-- ==== Sys2Proof/Word.lean ====
section
/-! DEFINITION. The word types of the block (00_scope.md R8, R9, R27). -/

namespace Sys2Proof

/-- Eight bits: a message byte, an immediate. -/
abbrev Byte := BitVec 8

/-- A word: 32 bits (R8), the width of a window access and of a command word. -/
abbrev Word := BitVec 32

/-- A lane: 64 bits (R8). -/
abbrev Lane := BitVec 64

/-- A 256-bit register's contents: a big value `0 ≤ v < 2^256` (R8, R27). -/
abbrev Big := BitVec 256

/-- The number of an integer register `FR[0..15]`. -/
abbrev FrNum := Fin 16

/-- The number of a point register, `AP[0..3]` or `JP[0..3]`. -/
abbrev PtNum := Fin 4

end Sys2Proof
end

