-- ==== Sys2Proof/Syntax.lean ====
section
/-! DEFINITION. The commands: one constructor for each row of spec/opcode_table.json, its arguments the fields its
format uses (30_encoding.md R81, R82). Register numbers carry their range in their type: an `FR` number is 0..15, a
point register number 0..3. -/

namespace Sys2Proof

/-- A command of the block (30_encoding.md R84). -/
inductive Instr where
  /-- `C_NOP`, R260 -/
  | cNop
  /-- `C_CLRERR`, R261 -/
  | cClrerr
  /-- `C_WIPE`, R262 -/
  | cWipe
  /-- `C_TBLINV`, R263 -/
  | cTblinv
  /-- `K_INIT`, R108 -/
  | kInit
  /-- `K_ABSORB imm`, R110 -/
  | kAbsorb (imm : Byte)
  /-- `K_ABSORBW`, R111 -/
  | kAbsorbw
  /-- `K_FINAL`, R112 -/
  | kFinal
  /-- `K_PERM`, R114 -/
  | kPerm
  /-- `F_RED.m fd, fa`, R145 -/
  | fRed (rd ra : FrNum) (m : Bool)
  /-- `F_ADD.m fd, fa, fb`, R146 -/
  | fAdd (rd ra rb : FrNum) (m : Bool)
  /-- `F_SUB.m fd, fa, fb`, R147 -/
  | fSub (rd ra rb : FrNum) (m : Bool)
  /-- `F_MUL.m fd, fa, fb`, R148 -/
  | fMul (rd ra rb : FrNum) (m : Bool)
  /-- `F_POW.m fd, fa, fb`, R149 -/
  | fPow (rd ra rb : FrNum) (m : Bool)
  /-- `F_INV.m fd, fa`, R150 -/
  | fInv (rd ra : FrNum) (m : Bool)
  /-- `F_BINV.m fa, count`, R151 -/
  | fBinv (ra : FrNum) (m : Bool) (count : Byte)
  /-- `J_DBL jd, ja`, R180 -/
  | jDbl (rd ra : PtNum)
  /-- `J_ADD jd, ja, jb`, R181 -/
  | jAdd (rd ra rb : PtNum)
  /-- `J_NEG jd, ja`, R182 -/
  | jNeg (rd ra : PtNum)
  /-- `J_EQ ja, jb`, R183 -/
  | jEq (ra rb : PtNum)
  /-- `J_FROMA jd, aa`, R198 -/
  | jFroma (rd ra : PtNum)
  /-- `J_TOA ad, ja`, R199 -/
  | jToa (rd ra : PtNum)
  /-- `J_ENDO jd, ja`, R200 -/
  | jEndo (rd ra : PtNum)
  /-- `A_ADD ad, aa, ab`, R187 -/
  | aAdd (rd ra rb : PtNum)
  /-- `A_DBL ad, aa`, R188 -/
  | aDbl (rd ra : PtNum)
  /-- `A_NEG ad, aa`, R189 -/
  | aNeg (rd ra : PtNum)
  /-- `A_EQ aa, ab`, R190 -/
  | aEq (ra rb : PtNum)
  /-- `A_VALID aa`, R194 -/
  | aValid (ra : PtNum)
  /-- `A_DECOMP ad, fa, even|odd` (`m` = 1 asks for odd), R196 -/
  | aDecomp (rd : PtNum) (ra : FrNum) (m : Bool)
  /-- `A_LDG ad`, R201 -/
  | aLdg (rd : PtNum)
  /-- `S_SPLIT fd, fa`, R226 -/
  | sSplit (rd ra : FrNum)
  /-- `S_PRECOMP aa, wN, glv|noglv`, R233 -/
  | sPrecomp (ra : PtNum) (m : Bool) (w : Byte)
  /-- `S_MUL ad, aa, fb, wN, glv|noglv`, R237 -/
  | sMul (rd ra : PtNum) (rb : FrNum) (m : Bool) (w : Byte)
  /-- `S_MULU ad, aa, fb`, R239 -/
  | sMulu (rd ra : PtNum) (rb : FrNum)
  deriving DecidableEq, Repr

end Sys2Proof
end

