-- ==== Sys2Proof/WellFormed.lean ====
section
/-! DEFINITION. The value checks of 30_encoding.md R85: what a command's fields must satisfy beyond the ranges of their
types. A command that fails its check is illegal (R83 step 3). -/

namespace Sys2Proof

/-- `imm ∈ {1, 2, 4, 8}`: the admitted window widths `W_SET` (00_scope.md R6, R85). -/
def validWidth (w : Byte) : Bool := w == 1 || w == 2 || w == 4 || w == 8

/-- `1 ≤ imm` and `ra + imm ≤ 16` (R85, `F_BINV`). -/
def validBatch (ra : FrNum) (count : Byte) : Bool := decide (1 ≤ count.toNat ∧ ra.val + count.toNat ≤ 16)

/-- `rd ≤ 14` (R85, `S_SPLIT`, which writes `FR[rd]` and `FR[rd+1]`). -/
def validPair (rd : FrNum) : Bool := decide (rd.val ≤ 14)

/-- The value checks of R85. -/
def Instr.wellFormed : Instr → Bool
  | .cNop | .cClrerr | .cWipe | .cTblinv => true
  | .kInit | .kAbsorb _ | .kAbsorbw | .kFinal | .kPerm => true
  | .fRed _ _ _ | .fAdd _ _ _ _ | .fSub _ _ _ _ | .fMul _ _ _ _ | .fPow _ _ _ _ | .fInv _ _ _ => true
  | .fBinv ra _ count => validBatch ra count
  | .jDbl _ _ | .jAdd _ _ _ | .jNeg _ _ | .jEq _ _ | .jFroma _ _ | .jToa _ _ | .jEndo _ _ => true
  | .aAdd _ _ _ | .aDbl _ _ | .aNeg _ _ | .aEq _ _ | .aValid _ | .aDecomp _ _ _ | .aLdg _ => true
  | .sSplit rd _ => validPair rd
  | .sPrecomp _ _ w => validWidth w
  | .sMul _ _ _ _ w => validWidth w
  | .sMulu _ _ _ => true

end Sys2Proof
end

