-- ==== Sys2Proof/Decode.lean ====
section
/-! DEFINITION. The decoder of 30_encoding.md R83, total on the 2^32 command words, and the encoder beside it. A word is
rejected by name: an unassigned opcode, a non-zero reserved or unused bit, a failed value check. -/

namespace Sys2Proof

/-- The formats of R82. -/
inductive Format where
  | N | I | F2 | F3 | FB | P2 | P3 | PC | P1 | PD | AD | SS | SP | SM | SU
  deriving DecidableEq, Repr

/-- The fixed-zero mask of a format (R82). -/
def Format.mask : Format → Word
  | .N => 0xFFFFFFFF
  | .I => 0xFFFFFF00
  | .F2 => 0xFF00FEFF
  | .F3 => 0xFF000EFF
  | .FB => 0xFFF0FE00
  | .P2 => 0xFFCCFFFF
  | .P3 => 0xFFCCCFFF
  | .PC => 0xFFFCCFFF
  | .P1 => 0xFFFCFFFF
  | .PD => 0xFFCFFFFF
  | .AD => 0xFFC0FEFF
  | .SS => 0xFF00FFFF
  | .SP => 0xFFFCFE00
  | .SM => 0xFFCC0E00
  | .SU => 0xFFCC0FFF

/-- The rows of the opcode map (R84). -/
inductive Opcode where
  | cNop | cClrerr | cWipe | cTblinv
  | kInit | kAbsorb | kAbsorbw | kFinal | kPerm
  | fRed | fAdd | fSub | fMul | fPow | fInv | fBinv
  | jDbl | jAdd | jNeg | jEq | jFroma | jToa | jEndo
  | aAdd | aDbl | aNeg | aEq | aValid | aDecomp | aLdg
  | sSplit | sPrecomp | sMul | sMulu
  deriving DecidableEq, Repr

/-- The `op` column of R84. -/
def Opcode.code : Opcode → Byte
  | .cNop => 0x00
  | .cClrerr => 0x01
  | .cWipe => 0x02
  | .cTblinv => 0x03
  | .kInit => 0x10
  | .kAbsorb => 0x11
  | .kAbsorbw => 0x12
  | .kFinal => 0x13
  | .kPerm => 0x14
  | .fRed => 0x20
  | .fAdd => 0x21
  | .fSub => 0x22
  | .fMul => 0x23
  | .fPow => 0x24
  | .fInv => 0x25
  | .fBinv => 0x26
  | .jDbl => 0x30
  | .jAdd => 0x31
  | .jNeg => 0x32
  | .jEq => 0x33
  | .jFroma => 0x34
  | .jToa => 0x35
  | .jEndo => 0x36
  | .aAdd => 0x38
  | .aDbl => 0x39
  | .aNeg => 0x3A
  | .aEq => 0x3B
  | .aValid => 0x3C
  | .aDecomp => 0x3D
  | .aLdg => 0x3E
  | .sSplit => 0x40
  | .sPrecomp => 0x41
  | .sMul => 0x42
  | .sMulu => 0x43

/-- The `format` column of R84. -/
def Opcode.format : Opcode → Format
  | .cNop | .cClrerr | .cWipe | .cTblinv | .kInit | .kAbsorbw | .kFinal | .kPerm => .N
  | .kAbsorb => .I
  | .fRed | .fInv => .F2
  | .fAdd | .fSub | .fMul | .fPow => .F3
  | .fBinv => .FB
  | .jDbl | .jNeg | .jEndo | .jFroma | .jToa | .aDbl | .aNeg => .P2
  | .jAdd | .aAdd => .P3
  | .jEq | .aEq => .PC
  | .aValid => .P1
  | .aLdg => .PD
  | .aDecomp => .AD
  | .sSplit => .SS
  | .sPrecomp => .SP
  | .sMul => .SM
  | .sMulu => .SU

/-- R83 step 1: the row whose `op` is the number `op`; no row for an unassigned one (R86). -/
def lookupOpcode (op : Nat) : Option Opcode :=
  match op with
  | 0x00 => some .cNop
  | 0x01 => some .cClrerr
  | 0x02 => some .cWipe
  | 0x03 => some .cTblinv
  | 0x10 => some .kInit
  | 0x11 => some .kAbsorb
  | 0x12 => some .kAbsorbw
  | 0x13 => some .kFinal
  | 0x14 => some .kPerm
  | 0x20 => some .fRed
  | 0x21 => some .fAdd
  | 0x22 => some .fSub
  | 0x23 => some .fMul
  | 0x24 => some .fPow
  | 0x25 => some .fInv
  | 0x26 => some .fBinv
  | 0x30 => some .jDbl
  | 0x31 => some .jAdd
  | 0x32 => some .jNeg
  | 0x33 => some .jEq
  | 0x34 => some .jFroma
  | 0x35 => some .jToa
  | 0x36 => some .jEndo
  | 0x38 => some .aAdd
  | 0x39 => some .aDbl
  | 0x3A => some .aNeg
  | 0x3B => some .aEq
  | 0x3C => some .aValid
  | 0x3D => some .aDecomp
  | 0x3E => some .aLdg
  | 0x40 => some .sSplit
  | 0x41 => some .sPrecomp
  | 0x42 => some .sMul
  | 0x43 => some .sMulu
  | _ => none

/-! ### The fields of the command word (R81) -/

/-- `w[31:24]`. -/
def opField (w : Word) : Byte := w.extractLsb' 24 8

/-- The `FR` number in the four bits from `lo` up. -/
def frField (w : Word) (lo : Nat) : FrNum := (w.extractLsb' lo 4).toFin

/-- The point register number: the low two bits of the four-bit field from `lo` up. -/
def ptField (w : Word) (lo : Nat) : PtNum := (w.extractLsb' lo 2).toFin

/-- `w[8]`. -/
def mField (w : Word) : Bool := w.getLsbD 8

/-- `w[7:0]`, taken as an unsigned number, never extended, scaled or shifted (R85). -/
def immField (w : Word) : Byte := w.extractLsb' 0 8

/-- The command of a row with the fields its format uses (R82, R84, R85). -/
def assemble (o : Opcode) (w : Word) : Instr :=
  match o with
  | .cNop => .cNop
  | .cClrerr => .cClrerr
  | .cWipe => .cWipe
  | .cTblinv => .cTblinv
  | .kInit => .kInit
  | .kAbsorb => .kAbsorb (immField w)
  | .kAbsorbw => .kAbsorbw
  | .kFinal => .kFinal
  | .kPerm => .kPerm
  | .fRed => .fRed (frField w 20) (frField w 16) (mField w)
  | .fAdd => .fAdd (frField w 20) (frField w 16) (frField w 12) (mField w)
  | .fSub => .fSub (frField w 20) (frField w 16) (frField w 12) (mField w)
  | .fMul => .fMul (frField w 20) (frField w 16) (frField w 12) (mField w)
  | .fPow => .fPow (frField w 20) (frField w 16) (frField w 12) (mField w)
  | .fInv => .fInv (frField w 20) (frField w 16) (mField w)
  | .fBinv => .fBinv (frField w 16) (mField w) (immField w)
  | .jDbl => .jDbl (ptField w 20) (ptField w 16)
  | .jAdd => .jAdd (ptField w 20) (ptField w 16) (ptField w 12)
  | .jNeg => .jNeg (ptField w 20) (ptField w 16)
  | .jEq => .jEq (ptField w 16) (ptField w 12)
  | .jFroma => .jFroma (ptField w 20) (ptField w 16)
  | .jToa => .jToa (ptField w 20) (ptField w 16)
  | .jEndo => .jEndo (ptField w 20) (ptField w 16)
  | .aAdd => .aAdd (ptField w 20) (ptField w 16) (ptField w 12)
  | .aDbl => .aDbl (ptField w 20) (ptField w 16)
  | .aNeg => .aNeg (ptField w 20) (ptField w 16)
  | .aEq => .aEq (ptField w 16) (ptField w 12)
  | .aValid => .aValid (ptField w 16)
  | .aDecomp => .aDecomp (ptField w 20) (frField w 16) (mField w)
  | .aLdg => .aLdg (ptField w 20)
  | .sSplit => .sSplit (frField w 20) (frField w 16)
  | .sPrecomp => .sPrecomp (ptField w 16) (mField w) (immField w)
  | .sMul => .sMul (ptField w 20) (ptField w 16) (frField w 12) (mField w) (immField w)
  | .sMulu => .sMulu (ptField w 20) (ptField w 16) (frField w 12)

/-- Why a word is no command (R83, R86). All three raise `E_ILLEGAL`. -/
inductive Illegal where
  /-- R83 step 1: `op` is not in the opcode map. -/
  | unassignedOpcode
  /-- R83 step 2: a reserved bit or an unused field is not zero, or a point register number is above 3. -/
  | nonZeroFixedBits
  /-- R83 step 3: a value check of R85 fails. -/
  | badValue
  deriving DecidableEq, Repr

/-- Decoding a command word, in the order of R83. -/
def decode (w : Word) : Except Illegal Instr :=
  match lookupOpcode (opField w).toNat with
  | none => .error .unassignedOpcode
  | some o =>
    if w &&& o.format.mask ≠ (opField w).setWidth 32 <<< 24 then .error .nonZeroFixedBits
    else if (assemble o w).wellFormed then .ok (assemble o w)
    else .error .badValue

/-- The row of a command. -/
def Instr.opcode : Instr → Opcode
  | .cNop => .cNop
  | .cClrerr => .cClrerr
  | .cWipe => .cWipe
  | .cTblinv => .cTblinv
  | .kInit => .kInit
  | .kAbsorb _ => .kAbsorb
  | .kAbsorbw => .kAbsorbw
  | .kFinal => .kFinal
  | .kPerm => .kPerm
  | .fRed _ _ _ => .fRed
  | .fAdd _ _ _ _ => .fAdd
  | .fSub _ _ _ _ => .fSub
  | .fMul _ _ _ _ => .fMul
  | .fPow _ _ _ _ => .fPow
  | .fInv _ _ _ => .fInv
  | .fBinv _ _ _ => .fBinv
  | .jDbl _ _ => .jDbl
  | .jAdd _ _ _ => .jAdd
  | .jNeg _ _ => .jNeg
  | .jEq _ _ => .jEq
  | .jFroma _ _ => .jFroma
  | .jToa _ _ => .jToa
  | .jEndo _ _ => .jEndo
  | .aAdd _ _ _ => .aAdd
  | .aDbl _ _ => .aDbl
  | .aNeg _ _ => .aNeg
  | .aEq _ _ => .aEq
  | .aValid _ => .aValid
  | .aDecomp _ _ _ => .aDecomp
  | .aLdg _ => .aLdg
  | .sSplit _ _ => .sSplit
  | .sPrecomp _ _ _ => .sPrecomp
  | .sMul _ _ _ _ _ => .sMul
  | .sMulu _ _ _ => .sMulu

/-- `op << 24 | rd << 20 | ra << 16 | rb << 12 | m << 8 | imm` (R81, R90), the reserved bits 11..9 zero. -/
def packWord (o : Opcode) (rd ra rb : Nat) (m : Bool) (imm : Byte) : Word :=
  o.code ++ BitVec.ofNat 4 rd ++ BitVec.ofNat 4 ra ++ BitVec.ofNat 4 rb ++ 0#3 ++ BitVec.ofBool m ++ imm

/-- The word of a command, an unused field zero (R81, R82, R84). -/
def encode (i : Instr) : Word :=
  match i with
  | .cNop | .cClrerr | .cWipe | .cTblinv => packWord i.opcode 0 0 0 false 0
  | .kInit | .kAbsorbw | .kFinal | .kPerm => packWord i.opcode 0 0 0 false 0
  | .kAbsorb imm => packWord i.opcode 0 0 0 false imm
  | .fRed rd ra m | .fInv rd ra m => packWord i.opcode rd ra 0 m 0
  | .fAdd rd ra rb m | .fSub rd ra rb m | .fMul rd ra rb m | .fPow rd ra rb m => packWord i.opcode rd ra rb m 0
  | .fBinv ra m count => packWord i.opcode 0 ra 0 m count
  | .jDbl rd ra | .jNeg rd ra | .jEndo rd ra | .jFroma rd ra | .jToa rd ra => packWord i.opcode rd ra 0 false 0
  | .aDbl rd ra | .aNeg rd ra => packWord i.opcode rd ra 0 false 0
  | .jAdd rd ra rb | .aAdd rd ra rb => packWord i.opcode rd ra rb false 0
  | .jEq ra rb | .aEq ra rb => packWord i.opcode 0 ra rb false 0
  | .aValid ra => packWord i.opcode 0 ra 0 false 0
  | .aDecomp rd ra m => packWord i.opcode rd ra 0 m 0
  | .aLdg rd => packWord i.opcode rd 0 0 false 0
  | .sSplit rd ra => packWord i.opcode rd ra 0 false 0
  | .sPrecomp ra m w => packWord i.opcode 0 ra 0 m w
  | .sMul rd ra rb m w => packWord i.opcode rd ra rb m w
  | .sMulu rd ra rb => packWord i.opcode rd ra rb false 0

/-- The command the decoder reads from the word whose bits are `w`, the bits from `nbits` up being 0. Every row of the
table has 32 bits (R80). -/
def decodeTableWord (nbits w : Nat) : Option Instr :=
  (decode (BitVec.ofNat 32 (w % 2 ^ nbits))).toOption

end Sys2Proof
end

