-- ==== Sys2Proof/Config.lean ====
section
/-! DEFINITION. What is fixed for this hardware and never changes: the curve constants of 00_scope.md R7 and the
parameters of R6 that the definitions use. They are mathematical non-negative integers. The spec leaves no value open
(93_implementation_defined.md section 1), so there is no free value here. -/

namespace Sys2Proof.Config

/-- The field prime `P = 2^256 − 2^32 − 977` (R7). -/
def P : Nat := 0xFFFFFFFFFFFFFFFFFFFFFFFFFFFFFFFFFFFFFFFFFFFFFFFFFFFFFFFEFFFFFC2F

/-- The group order `n` (R7). -/
def n : Nat := 0xFFFFFFFFFFFFFFFFFFFFFFFFFFFFFFFEBAAEDCE6AF48A03BBFD25E8CD0364141

/-- The x coordinate of the base point (R7). -/
def Gx : Nat := 0x79BE667EF9DCBBAC55A06295CE870B07029BFCDB2DCE28D959F2815B16F81798

/-- The y coordinate of the base point (R7). -/
def Gy : Nat := 0x483ADA7726A3C4655DA4FBFC0E1108A8FD17B448A68554199C47D08FFB10D4B8

/-- The endomorphism constant `β` (R7). -/
def beta : Nat := 0x7AE96A2B657C07106E64479EAC3434E99CF0497512F58995C1396C28719501EE

/-- The endomorphism eigenvalue `λ` (R7). -/
def lambda : Nat := 0x5363AD4CC05C30E0A5261C028812645A122E22EA20816678DF02967C1B23BD72

/-- The lattice constant `a1` (R7). -/
def a1 : Nat := 0x3086D221A7D46BCDE86C90E49284EB15

/-- `−b1`: `b1` is negative and its magnitude is stored (R7). -/
def negB1 : Nat := 0xE4437ED6010E88286F547FA90ABFE4C3

/-- The lattice constant `a2` (R7). -/
def a2 : Nat := 0x114CA50F7A8E2F3F657C1108D9D44CFD8

/-- The lattice constant `b2`, equal to `a1` (R7). -/
def b2 : Nat := 0x3086D221A7D46BCDE86C90E49284EB15

/-- The square-root exponent `(P + 1)/4` (R7, R195). -/
def sqrtExp : Nat := 0x3FFFFFFFFFFFFFFFFFFFFFFFFFFFFFFFFFFFFFFFFFFFFFFFFFFFFFFFBFFFFF0C

/-- The constant term of the curve `y² = x³ + 7` (R6). -/
def curveB : Nat := 7

/-- `M(m)`: the modulus the `m` bit selects, `M(0) = P`, `M(1) = n` (R13). -/
def modulus (m : Bool) : Nat := if m then n else P

end Sys2Proof.Config
end

