-- ==== Sys2Proof/Machine/State.lean ====
section
/-! DEFINITION. The state of the block (10_state.md R20 to R34), its reset value (R45), and the reasons a command or a
step can end with. Fields carry the spec's own names. State is plain data. The block has no memory besides these registers
(20_memory.md R50), so there is no memory list (log 3). -/

namespace Sys2Proof.Machine

/-- `KPHASE` (R25). -/
inductive Phase where
  | idle
  | absorb
  | done
  deriving DecidableEq, Repr

/-- An affine point register (R28): the identity when `inf` is set, whatever `x` and `y` hold. -/
structure Affine where
  x : Big
  y : Big
  inf : Bool
  deriving DecidableEq, Repr

/-- A Jacobian point register (R29): the identity when `Z` is 0 modulo `P`, whatever `X` and `Y` hold. -/
structure Jacobian where
  X : Big
  Y : Big
  Z : Big
  deriving DecidableEq, Repr

/-- `FLAGS` (R30): seven one-bit flags, bit 0 first. -/
structure Flags where
  EQ : Bool
  VALID : Bool
  ONCURVE : Bool
  K1NEG : Bool
  K2NEG : Bool
  INF : Bool
  TBLHIT : Bool
  deriving DecidableEq, Repr

/-- `TBL` (R33): the valid bit, the tag, and the hidden contents. -/
structure Table where
  valid : Bool
  x : Big
  y : Big
  W : Byte
  glv : Bool
  T : List Affine
  deriving DecidableEq, Repr

/-- What the host and the platform can do to the block: the machine's inputs (00_scope.md R5; log 1). `bits` is the
size of the access, which the bus can carry and the block accepts only when it is 32 (20_memory.md R60, R64). The data of
a write that is not 32 bits wide is dropped, so one word stands for it (log 8). -/
inductive HostEvent where
  /-- A read of `bits` bits at the window offset `addr`. -/
  | read (addr : BitVec 12) (bits : Nat)
  /-- A write of `bits` bits at the window offset `addr`. -/
  | write (addr : BitVec 12) (bits : Nat) (value : Word)
  /-- The platform's reset input (70_reset_and_hazards.md R300). -/
  | reset
  deriving DecidableEq, Repr

/-- The machine. All fields but the last two are the block's, exactly the list of R20. -/
structure State where
  /-- The sponge state, 50 words (R21). -/
  S : Vector Word 50
  /-- The hidden block buffer, 34 words (R22). -/
  BLK : Vector Word 34
  /-- The cursor, 0..135 (R23). -/
  KPOS : Fin 136
  /-- The buffer's contents are dead (R24). -/
  KRST : Bool
  /-- The phase of the sponge (R25). -/
  KPHASE : Phase
  /-- The data word of `K_ABSORBW` (R26). -/
  KDIN : Word
  /-- The integer registers (R27). -/
  FR : Vector Big 16
  /-- The affine point registers (R28). -/
  AP : Vector Affine 4
  /-- The Jacobian point registers (R29). -/
  JP : Vector Jacobian 4
  /-- The flags (R30). -/
  FLAGS : Flags
  /-- The outcome of the latest command (R32). -/
  ERRCODE : BitVec 3
  /-- The accumulated fault mask (R32). -/
  ERRSTICKY : BitVec 9
  /-- The precomputed-table cache (R33, R34). -/
  TBL : Table
  /-- The host's side, not the block's: the accesses that have not reached the block yet, the next one first (log 1). -/
  pending : List HostEvent
  /-- The host's side, not the block's: what its reads have returned, oldest first (log 2). -/
  replies : List Word
  deriving DecidableEq, Repr

/-- The command faults (60_exceptions.md R271). A command that raises one ends with the NEXT state of R272: it is no
stop of the machine. -/
inductive CmdFault where
  | illegal
  | sequence
  | invalidScalar
  | notInvertible
  | pointNotOnCurve
  | invalidAddition
  | scalarRange
  deriving DecidableEq, Repr

/-- The code of a command fault (R271). -/
def CmdFault.code : CmdFault → BitVec 3
  | .illegal => 1
  | .sequence => 2
  | .invalidScalar => 3
  | .notInvertible => 4
  | .pointNotOnCurve => 5
  | .invalidAddition => 6
  | .scalarRange => 7

/-- The reasons a step can stop the machine with a fault: none. "No fault is fatal: the block never locks up" (R278),
and every command, illegal word and bad access has a defined next state (93_implementation_defined.md section 1). -/
inductive Fault where
  deriving DecidableEq, Repr

/-- The reasons a step can be refused. -/
inductive Refusal where
  /-- Raised by an arm of exec whose command has no meaning in this model yet, by its mnemonic. Safe: the machine stops
  where the hardware goes on. No arm raises it: every command has its meaning. -/
  | notModelled (mnemonic : String)
  deriving DecidableEq, Repr

/-- All seven flags clear. -/
def Flags.clear : Flags := ⟨false, false, false, false, false, false, false⟩

/-- An affine register at reset: `(0, 0, inf = 0)`, which is no valid point (R45). -/
def Affine.zero : Affine := ⟨0, 0, false⟩

/-- A Jacobian register at reset: `(0, 0, 0)`, which represents the identity (R45). -/
def Jacobian.zero : Jacobian := ⟨0, 0, 0⟩

/-- The empty table cache (R45): the tag and the contents "then read as 0 and are meaningless" (log 6). -/
def Table.empty : Table := ⟨false, 0, 0, 0, false, []⟩

/-- The machine right after reset (R45, R301), with no host access pending. -/
def State.reset : State where
  S := Vector.replicate 50 0
  BLK := Vector.replicate 34 0
  KPOS := 0
  KRST := true
  KPHASE := .idle
  KDIN := 0
  FR := Vector.replicate 16 0
  AP := Vector.replicate 4 Affine.zero
  JP := Vector.replicate 4 Jacobian.zero
  FLAGS := Flags.clear
  ERRCODE := 0
  ERRSTICKY := 0
  TBL := Table.empty
  pending := []
  replies := []

end Sys2Proof.Machine
end

