-- ==== Sys2Proof/Machine/Ops.lean ====
section
/-! DEFINITION. The operations every unit shares: exact integer arithmetic with one narrowing (00_scope.md R8, R10), the
limbs of a big value (20_memory.md R56), taking a command fault (60_exceptions.md R272) and the normal end (R273). -/

namespace Sys2Proof.Machine

open Sys2Proof.Config

/-! ### Integers -/

/-- `mod(a, m)`: the unique `r` with `0 ≤ r < m` and `m` dividing `a − r`, for a negative `a` too (R10). -/
def mod (a : Int) (m : Nat) : Int := a % (m : Int)

/-- `mod(·, P)`. -/
def modP (a : Int) : Int := mod a P

/-- The mathematical integer a 256-bit register holds (R8, R27). -/
def intOf (v : Big) : Int := (v.toNat : Int)

/-- The register contents of a mathematical integer in `0 ≤ v < 2^256`. -/
def toBig (v : Int) : Big := BitVec.ofInt 256 v

/-! ### Limbs and bytes -/

/-- Limb `i` of a big value: bits `32i+31` to `32i` (R11). -/
def limb (v : Big) (i : Fin 8) : Word := v.extractLsb' (32 * i.val) 32

/-- The big value with limb `i` replaced and the other 224 bits unchanged (R56). -/
def setLimb (v : Big) (i : Fin 8) (w : Word) : Big :=
  (v &&& ~~~((0xFFFFFFFF : Big) <<< (32 * i.val))) ||| (w.setWidth 256 <<< (32 * i.val))

/-- Byte `j` of a word, byte 0 least significant (R11). -/
def wordByte (w : Word) (j : Nat) : Byte := w.extractLsb' (8 * j) 8

/-! ### The end of a command -/

/-- What a command fault does, and all it does (R272): the "trap entry" of the block (R277). There is no return from it
(R278): the block is at once ready for the next command. -/
def takeFault (c : CmdFault) (s : State) : State :=
  { s with ERRCODE := c.code, ERRSTICKY := s.ERRSTICKY ||| (1#9 <<< c.code.toNat) }

/-- The normal end of a command whose writes gave `t` (R273). -/
def normalEnd (t : State) : State := { t with ERRCODE := 0 }

/-- The end of a command started in `s`: its writes all together and the normal end, or the fault it raised and none of
its writes (00_scope.md R12, R272, R273). -/
def endCommand (s : State) (r : Except CmdFault State) : Host.Outcome State Fault Refusal :=
  match r with
  | .ok t => .next (normalEnd t)
  | .error c => .next (takeFault c s)

/-- A word that is no command: `raise E_ILLEGAL` (30_encoding.md R83, R86). -/
def illegalCommand (s : State) : Host.Outcome State Fault Refusal := endCommand s (.error .illegal)

end Sys2Proof.Machine
end

