-- ==== Sys2Proof/Machine/Operands.lean ====
section
/-! DEFINITION. The operand forms of the commands (30_encoding.md R81, R85): an `FR` number, an `AP` number, a `JP`
number, a run of consecutive `FR` numbers. Registers are read raw (10_state.md R38). No register is hardwired and none
aliases another (R27). -/

namespace Sys2Proof.Machine

/-- The integer `FR[r]` holds. -/
def State.fr (s : State) (r : FrNum) : Int := intOf s.FR[r]

/-- `FR[r] <- v`. -/
def State.setFr (s : State) (r : FrNum) (v : Int) : State := { s with FR := s.FR.set r (toBig v) }

/-- `AP[r]`. -/
def State.ap (s : State) (r : PtNum) : Affine := s.AP[r]

/-- `AP[r] <- a`. -/
def State.setAp (s : State) (r : PtNum) (a : Affine) : State := { s with AP := s.AP.set r a }

/-- `JP[r]`. -/
def State.jp (s : State) (r : PtNum) : Jacobian := s.JP[r]

/-- `JP[r] <- p`. -/
def State.setJp (s : State) (r : PtNum) (p : Jacobian) : State := { s with JP := s.JP.set r p }

/-- `FR[ra], FR[ra+1], …`, `count` of them, the operand of `F_BINV` (R151). The count's check (R85) keeps the run inside
the register file. -/
def State.frRun (s : State) (ra : FrNum) (count : Nat) : List Int :=
  ((s.FR.toList.drop ra.val).take count).map intOf

/-- The registers from number `k` up replaced by the values of a list, one each. -/
def setRun (fr : Vector Big 16) (k : Nat) : List Int → Vector Big 16
  | [] => fr
  | v :: vs => setRun (fr.setIfInBounds k (toBig v)) (k + 1) vs

end Sys2Proof.Machine
end

