-- ==== Sys2Proof/Machine/Flags.lean ====
section
/-! DEFINITION. `FLAGS` (10_state.md R30): the flag writes of the commands and the register's word. No command reads a
flag. -/

namespace Sys2Proof.Machine

open Sys2Proof.Config

/-- A Jacobian value is the identity when `mod(Z, P) = 0` (42_point.md section 2). -/
def Jacobian.isIdentity (p : Jacobian) : Bool := modP (intOf p.Z) == 0

/-- `FLAGS.INF <- b`. -/
def State.setInf (s : State) (b : Bool) : State := { s with FLAGS := { s.FLAGS with INF := b } }

/-- `FLAGS.EQ <- b`. -/
def State.setEq (s : State) (b : Bool) : State := { s with FLAGS := { s.FLAGS with EQ := b } }

/-- `FLAGS.VALID <- v; FLAGS.ONCURVE <- c`. -/
def State.setCurveTests (s : State) (v c : Bool) : State :=
  { s with FLAGS := { s.FLAGS with VALID := v, ONCURVE := c } }

/-- `FLAGS.K1NEG <- s1; FLAGS.K2NEG <- s2`. -/
def State.setHalfSigns (s : State) (s1 s2 : Bool) : State :=
  { s with FLAGS := { s.FLAGS with K1NEG := s1, K2NEG := s2 } }

/-- `FLAGS.TBLHIT <- b`. -/
def State.setTblHit (s : State) (b : Bool) : State := { s with FLAGS := { s.FLAGS with TBLHIT := b } }

/-- An `AP` destination with the `INF` flag of the point written (42_point.md R171c). -/
def State.putAp (s : State) (r : PtNum) (a : Affine) : State := (s.setAp r a).setInf a.inf

/-- A `JP` destination with the `INF` flag of the point written (42_point.md R171c). -/
def State.putJp (s : State) (r : PtNum) (p : Jacobian) : State := (s.setJp r p).setInf p.isIdentity

/-- The word of `FLAGS`: bit 0 `EQ` to bit 6 `TBLHIT`, bits 31..7 zero (R30). -/
def Flags.word (f : Flags) : Word :=
  0#25 ++ BitVec.ofBool f.TBLHIT ++ BitVec.ofBool f.INF ++ BitVec.ofBool f.K2NEG ++ BitVec.ofBool f.K1NEG
    ++ BitVec.ofBool f.ONCURVE ++ BitVec.ofBool f.VALID ++ BitVec.ofBool f.EQ

end Sys2Proof.Machine
end

