-- ==== Sys2Proof/Machine/Bus.lean ====
section
/-! DEFINITION. The register window (20_memory.md R50 to R64): the register map, host reads and writes, bad accesses, and
the arrival of the next host event. -/

namespace Sys2Proof.Machine

open Sys2Proof.Config

/-- A row of the register map, one 32-bit register each (R51). -/
inductive Reg where
  | cmd
  | status
  | errcode
  | errsticky
  | flags
  | kdin
  | kpos
  | tblinfo
  | tblTagX (i : Fin 8)
  | tblTagY (i : Fin 8)
  | S (i : Fin 50)
  | FR (r : FrNum) (i : Fin 8)
  | apX (r : PtNum) (i : Fin 8)
  | apY (r : PtNum) (i : Fin 8)
  | apInf (r : PtNum)
  | jpX (r : PtNum) (i : Fin 8)
  | jpY (r : PtNum) (i : Fin 8)
  | jpZ (r : PtNum) (i : Fin 8)
  | const (c : Fin 10) (i : Fin 8)
  deriving DecidableEq, Repr

/-- The offset of a register (R51). -/
def Reg.offset : Reg → Nat
  | .cmd => 0x000
  | .status => 0x004
  | .errcode => 0x008
  | .errsticky => 0x00C
  | .flags => 0x010
  | .kdin => 0x014
  | .kpos => 0x018
  | .tblinfo => 0x01C
  | .tblTagX i => 0x020 + 4 * i.val
  | .tblTagY i => 0x040 + 4 * i.val
  | .S i => 0x100 + 4 * i.val
  | .FR r i => 0x200 + 32 * r.val + 4 * i.val
  | .apX r i => 0x400 + 128 * r.val + 4 * i.val
  | .apY r i => 0x420 + 128 * r.val + 4 * i.val
  | .apInf r => 0x440 + 128 * r.val
  | .jpX r i => 0x600 + 128 * r.val + 4 * i.val
  | .jpY r i => 0x620 + 128 * r.val + 4 * i.val
  | .jpZ r i => 0x640 + 128 * r.val + 4 * i.val
  | .const c i => 0x800 + 32 * c.val + 4 * i.val

/-- The limb of an aligned offset inside a 256-bit register. -/
def limbOf (a : Nat) : Fin 8 := Fin.ofNat 8 (a / 4)

/-- The register at an offset below `0x020`, which is a multiple of 4. -/
def locateControl (a : Nat) : Option Reg :=
  match a with
  | 0x000 => some .cmd
  | 0x004 => some .status
  | 0x008 => some .errcode
  | 0x00C => some .errsticky
  | 0x010 => some .flags
  | 0x014 => some .kdin
  | 0x018 => some .kpos
  | 0x01C => some .tblinfo
  | _ => none

/-- The register at an offset `a` of the `AP` region. -/
def locateAp (a : Nat) : Option Reg :=
  let r := Fin.ofNat 4 ((a - 0x400) / 128)
  let o := (a - 0x400) % 128
  if o < 0x20 then some (.apX r (limbOf a))
  else if o < 0x40 then some (.apY r (limbOf a))
  else if o = 0x40 then some (.apInf r)
  else none

/-- The register at an offset `a` of the `JP` region. -/
def locateJp (a : Nat) : Option Reg :=
  let r := Fin.ofNat 4 ((a - 0x600) / 128)
  let o := (a - 0x600) % 128
  if o < 0x20 then some (.jpX r (limbOf a))
  else if o < 0x40 then some (.jpY r (limbOf a))
  else if o < 0x60 then some (.jpZ r (limbOf a))
  else none

/-- The register at an offset of the window: none for an offset that is not a multiple of 4 and for a hole (R51, R60). -/
def locate (a : Nat) : Option Reg :=
  if a % 4 ≠ 0 then none
  else if a < 0x020 then locateControl a
  else if a < 0x040 then some (.tblTagX (limbOf a))
  else if a < 0x060 then some (.tblTagY (limbOf a))
  else if a < 0x100 then none
  else if a < 0x1C8 then some (.S (Fin.ofNat 50 ((a - 0x100) / 4)))
  else if a < 0x200 then none
  else if a < 0x400 then some (.FR (Fin.ofNat 16 ((a - 0x200) / 32)) (limbOf a))
  else if a < 0x600 then locateAp a
  else if a < 0x800 then locateJp a
  else if a < 0x940 then some (.const (Fin.ofNat 10 ((a - 0x800) / 32)) (limbOf a))
  else none

/-- The number of a phase in `STATUS[3:2]` (10_state.md R25). -/
def Phase.code : Phase → BitVec 2
  | .idle => 0
  | .absorb => 1
  | .done => 2

/-- The word of `STATUS` (10_state.md R31): a view, with `BUSY` always 0. -/
def State.status (s : State) : Word :=
  0#26 ++ BitVec.ofBool s.TBL.valid ++ BitVec.ofBool s.KRST ++ s.KPHASE.code ++ BitVec.ofBool (s.ERRCODE != 0) ++ 0#1

/-- The word of `TBLINFO` (R57). -/
def Table.info (t : Table) : Word :=
  if t.valid then 1#1 ++ 0#22 ++ BitVec.ofBool t.glv ++ t.W else 0

/-- `CONST[c]` (R58). -/
def constValue (c : Fin 10) : Nat :=
  (#v[P, n, Gx, Gy, beta, lambda, a1, negB1, a2, b2])[c]

/-- `RegRead` of a register (R53 to R58): no word for `CMD`, whose read is a bad access. It changes no state. -/
def readReg (s : State) (r : Reg) : Option Word :=
  match r with
  | .cmd => none
  | .status => some s.status
  | .errcode => some (s.ERRCODE.setWidth 32)
  | .errsticky => some (s.ERRSTICKY.setWidth 32)
  | .flags => some s.FLAGS.word
  | .kdin => some s.KDIN
  | .kpos => some (BitVec.ofNat 32 s.KPOS.val)
  | .tblinfo => some s.TBL.info
  | .tblTagX i => some (if s.TBL.valid then limb s.TBL.x i else 0)
  | .tblTagY i => some (if s.TBL.valid then limb s.TBL.y i else 0)
  | .S i => some s.S[i]
  | .FR r i => some (limb s.FR[r] i)
  | .apX r i => some (limb s.AP[r].x i)
  | .apY r i => some (limb s.AP[r].y i)
  | .apInf r => some ((BitVec.ofBool s.AP[r].inf).setWidth 32)
  | .jpX r i => some (limb s.JP[r].X i)
  | .jpY r i => some (limb s.JP[r].Y i)
  | .jpZ r i => some (limb s.JP[r].Z i)
  | .const c i => some (limb (BitVec.ofNat 256 (constValue c)) i)

/-- `RegWrite` of a register other than `CMD` (R54 to R56): no state for a read-only row, whose write is a bad
access. -/
def writeReg (s : State) (r : Reg) (v : Word) : Option State :=
  match r with
  | .kdin => some { s with KDIN := v }
  | .S i => some { s with S := s.S.set i v }
  | .FR r i => some { s with FR := s.FR.set r (setLimb s.FR[r] i v) }
  | .apX r i => some (s.setAp r { s.ap r with x := setLimb (s.ap r).x i v })
  | .apY r i => some (s.setAp r { s.ap r with y := setLimb (s.ap r).y i v })
  | .apInf r => some (s.setAp r { s.ap r with inf := v.getLsbD 0 })
  | .jpX r i => some (s.setJp r { s.jp r with X := setLimb (s.jp r).X i v })
  | .jpY r i => some (s.setJp r { s.jp r with Y := setLimb (s.jp r).Y i v })
  | .jpZ r i => some (s.setJp r { s.jp r with Z := setLimb (s.jp r).Z i v })
  | .cmd | .status | .errcode | .errsticky | .flags | .kpos | .tblinfo => none
  | .tblTagX _ | .tblTagY _ | .const _ _ => none

/-- What a bad access does to the state: `ERRSTICKY` bit 8 is set and nothing else changes (R60). -/
def badAccess (s : State) : State := { s with ERRSTICKY := s.ERRSTICKY ||| (1#9 <<< 8) }

/-- The register a host access of `bits` bits at `addr` reaches: none for a size other than 32 bits, a misaligned offset
or a hole (R60, R64). -/
def target (addr : BitVec 12) (bits : Nat) : Option Reg := if bits = 32 then locate addr.toNat else none

/-- The value a host read returns; none for a bad read (R53, R60). -/
def hostRead (s : State) (addr : BitVec 12) (bits : Nat) : Option Word := (target addr bits).bind (readReg s)

/-- A value goes back to the host. -/
def State.reply (s : State) (v : Word) : State := { s with replies := s.replies ++ [v] }

/-- The state after a host read: the value is returned, 0 for a bad read (R53, R60). -/
def afterRead (s : State) (addr : BitVec 12) (bits : Nat) : State :=
  match hostRead s addr bits with
  | some v => s.reply v
  | none => (badAccess s).reply 0

/-- The state after a host write that issues no command: a bad write is dropped (R54, R60). -/
def afterWrite (s : State) (addr : BitVec 12) (bits : Nat) (v : Word) : State :=
  match (target addr bits).bind fun r => writeReg s r v with
  | some t => t
  | none => badAccess s

/-- The state after the platform's reset (R300, R301): every piece of the block's state at its reset value. What the
host has still to send and what it has read are not the block's. -/
def afterReset (s : State) : State := { State.reset with pending := s.pending, replies := s.replies }

/-- What the next host event asks of the block. -/
inductive Arrival where
  /-- No command: the state after the event, or the same state when nothing is pending. -/
  | settled (t : State)
  /-- The command word written to `CMD`, and the state in which it executes. -/
  | command (w : Word) (t : State)
  deriving DecidableEq, Repr

/-- The arrival of the next host event (R52 to R60, R66a): the first of `pending` is taken off. With nothing pending
the block is idle and holds its state (60_exceptions.md R291). -/
def nextArrival (s : State) : Arrival :=
  match s.pending with
  | [] => .settled s
  | .reset :: rest => .settled (afterReset { s with pending := rest })
  | .read addr bits :: rest => .settled (afterRead { s with pending := rest } addr bits)
  | .write addr bits v :: rest =>
    if target addr bits = some .cmd then .command v { s with pending := rest }
    else .settled (afterWrite { s with pending := rest } addr bits v)

end Sys2Proof.Machine
end

