-- ==== Sys2Proof/Machine/Field.lean ====
section
/-! DEFINITION. The FAU: the functions of 41_field.md R142 to R144 on mathematical integers and the meanings of its
commands (R145 to R151). Operands are raw and reduced on read; results are in `[0, M(m))` (R141). -/

namespace Sys2Proof.Machine

open Sys2Proof.Config

/-- The loop of `modpow` (R142): `r`, `x` and what is left of the exponent. `fuel` bounds the rounds (log 9). -/
def modpowLoop (m : Nat) : (fuel : Nat) → (r x : Int) → (e : Nat) → Int
  | 0, r, _, _ => r
  | fuel + 1, r, x, e =>
    if e = 0 then r
    else modpowLoop m fuel (if e % 2 = 1 then mod (r * x) m else r) (mod (x * x) m) (e / 2)

/-- `modpow(b, e, m)` by square-and-multiply from the least significant bit (R142); `modpow(b, 0, m) = 1`. The exponent
bounds its own number of halvings, so it is fuel enough (log 9). -/
def modpow (b : Int) (e : Nat) (m : Nat) : Int := modpowLoop m e 1 (mod b m) e

/-- The loop of the extended Euclidean algorithm (R143): `(r0, t0)` when `r1` has reached 0. -/
def euclid : (fuel : Nat) → (r0 r1 t0 t1 : Int) → Int × Int
  | 0, r0, _, t0, _ => (r0, t0)
  | fuel + 1, r0, r1, t0, t1 =>
    if r1 = 0 then (r0, t0)
    else euclid fuel r1 (r0 - r0 / r1 * r1) t1 (t0 - r0 / r1 * t1)

/-- `modinv(a, m)` (R143). `r1` strictly decreases, so `mod(a, m) + 1` rounds are enough (log 9). -/
def modinv (a : Int) (m : Nat) : Except CmdFault Int :=
  let r := euclid ((mod a m).toNat + 1) m (mod a m) 0 1
  if r.1 = 1 then .ok (mod r.2 m) else .error .notInvertible

/-- Montgomery's trick on the rest of a list (R144): given the product `acc` of the non-zero elements before it, the
inverses of its elements and the inverse of `acc`. At the end of the list stands the one inversion. -/
def batchinvFrom (m : Nat) (acc : Int) : List Int → Except CmdFault (List Int × Int)
  | [] =>
    match modinv acc m with
    | .error c => .error c
    | .ok u => .ok ([], u)
  | a :: l =>
    if a = 0 then
      match batchinvFrom m acc l with
      | .error c => .error c
      | .ok (out, u) => .ok (0 :: out, u)
    else
      match batchinvFrom m (mod (acc * a) m) l with
      | .error c => .error c
      | .ok (out, u) => .ok (mod (u * acc) m :: out, mod (u * a) m)

/-- `batchinv(L, m)` (R144): zeros pass through. -/
def batchinv (L : List Int) (m : Nat) : Except CmdFault (List Int) :=
  match batchinvFrom m 1 L with
  | .error c => .error c
  | .ok (out, _) => .ok out

/-- `F_RED` (R145). -/
def execFRed (rd ra : FrNum) (m : Bool) (s : State) : Host.Outcome State Fault Refusal :=
  endCommand s (.ok (s.setFr rd (mod (s.fr ra) (modulus m))))

/-- `F_ADD` (R146). -/
def execFAdd (rd ra rb : FrNum) (m : Bool) (s : State) : Host.Outcome State Fault Refusal :=
  endCommand s (.ok (s.setFr rd (mod (s.fr ra + s.fr rb) (modulus m))))

/-- `F_SUB` (R147). -/
def execFSub (rd ra rb : FrNum) (m : Bool) (s : State) : Host.Outcome State Fault Refusal :=
  endCommand s (.ok (s.setFr rd (mod (s.fr ra - s.fr rb) (modulus m))))

/-- `F_MUL` (R148). -/
def execFMul (rd ra rb : FrNum) (m : Bool) (s : State) : Host.Outcome State Fault Refusal :=
  endCommand s (.ok (s.setFr rd (mod (s.fr ra * s.fr rb) (modulus m))))

/-- `F_POW` (R149): the exponent is the whole raw value of `FR[rb]`. -/
def execFPow (rd ra rb : FrNum) (m : Bool) (s : State) : Host.Outcome State Fault Refusal :=
  endCommand s (.ok (s.setFr rd (modpow (s.fr ra) (s.fr rb).toNat (modulus m))))

/-- The writes of `F_INV` (R150). -/
def inverseInto (rd ra : FrNum) (m : Bool) (s : State) : Except CmdFault State :=
  match modinv (s.fr ra) (modulus m) with
  | .error c => .error c
  | .ok v => .ok (s.setFr rd v)

/-- `F_INV` (R150). -/
def execFInv (rd ra : FrNum) (m : Bool) (s : State) : Host.Outcome State Fault Refusal :=
  endCommand s (inverseInto rd ra m s)

/-- The writes of `F_BINV` (R151), the value check of R85 first. -/
def batchInverseAt (ra : FrNum) (m : Bool) (count : Byte) (s : State) : Except CmdFault State :=
  if validBatch ra count then
    match batchinv ((s.frRun ra count.toNat).map fun v => mod v (modulus m)) (modulus m) with
    | .error c => .error c
    | .ok out => .ok { s with FR := setRun s.FR ra.val out }
  else .error .illegal

/-- `F_BINV` (R151). -/
def execFBinv (ra : FrNum) (m : Bool) (count : Byte) (s : State) : Host.Outcome State Fault Refusal :=
  endCommand s (batchInverseAt ra m count s)

end Sys2Proof.Machine
end

