-- ==== Sys2Proof/Machine/Point.lean ====
section
/-! DEFINITION. The PAU: the point functions of 42_point.md R172 to R195 and the meanings of its commands. Coordinates are
read raw and used through `mod(·, P)` (R171a). -/

namespace Sys2Proof.Machine

open Sys2Proof.Config

/-- `J0 = (0, 1, 0)`, the canonical Jacobian identity (10_state.md R29). -/
def J0 : Jacobian := ⟨0, 1, 0⟩

/-- `A0 = (0, 0, inf = 1)`, the canonical affine identity (10_state.md R28). -/
def A0 : Affine := ⟨0, 0, true⟩

/-- The base point `G` (00_scope.md R7). -/
def basePoint : Affine := ⟨toBig Gx, toBig Gy, false⟩

/-! ### Jacobian functions -/

/-- `jdbl(p)` (R172). -/
def jdbl (p : Jacobian) : Jacobian :=
  if p.isIdentity then J0
  else
    let X1 := intOf p.X
    let Y1 := intOf p.Y
    let Z1 := intOf p.Z
    let A := modP (X1 * X1)
    let B := modP (Y1 * Y1)
    let C := modP (B * B)
    let D := modP (2 * ((X1 + B) * (X1 + B) - A - C))
    let E := modP (3 * A)
    let F := modP (E * E)
    let X3 := modP (F - 2 * D)
    let Y3 := modP (E * (D - X3) - 8 * C)
    let Z3 := modP (2 * Y1 * Z1)
    if Z3 = 0 then J0 else ⟨toBig X3, toBig Y3, toBig Z3⟩

/-- The last case of `jadd`: two finite operands with `H ≠ 0` (R173). -/
def jaddGeneral (U1 S1 H r Z1 Z2 : Int) : Jacobian :=
  let HH := modP (H * H)
  let HHH := modP (H * HH)
  let V := modP (U1 * HH)
  let X3 := modP (r * r - HHH - 2 * V)
  let Y3 := modP (r * (V - X3) - S1 * HHH)
  let Z3 := modP (Z1 * Z2 * H)
  ⟨toBig X3, toBig Y3, toBig Z3⟩

/-- `jadd(p, q)` (R173): a short-circuit returns the other operand's triple as it is. -/
def jadd (p q : Jacobian) : Jacobian :=
  if q.isIdentity then (if p.isIdentity then J0 else p)
  else if p.isIdentity then q
  else
    let X1 := intOf p.X
    let Y1 := intOf p.Y
    let Z1 := intOf p.Z
    let X2 := intOf q.X
    let Y2 := intOf q.Y
    let Z2 := intOf q.Z
    let Z1Z1 := modP (Z1 * Z1)
    let Z2Z2 := modP (Z2 * Z2)
    let U1 := modP (X1 * Z2Z2)
    let U2 := modP (X2 * Z1Z1)
    let S1 := modP (Y1 * Z2 * Z2Z2)
    let S2 := modP (Y2 * Z1 * Z1Z1)
    let H := modP (U2 - U1)
    let r := modP (S2 - S1)
    if H = 0 then (if r = 0 then jdbl p else J0)
    else jaddGeneral U1 S1 H r Z1 Z2

/-- `jneg(p)` (R174). -/
def jneg (p : Jacobian) : Jacobian :=
  if p.isIdentity then J0
  else ⟨toBig (modP (intOf p.X)), toBig (modP (-intOf p.Y)), toBig (modP (intOf p.Z))⟩

/-- `jeq(p, q)` (R175): equality of group elements, not of triples. -/
def jeq (p q : Jacobian) : Bool :=
  if p.isIdentity && q.isIdentity then true
  else if p.isIdentity || q.isIdentity then false
  else
    let Z1 := intOf p.Z
    let Z2 := intOf q.Z
    modP (intOf p.X * Z2 * Z2) == modP (intOf q.X * Z1 * Z1) &&
      modP (intOf p.Y * Z2 * Z2 * Z2) == modP (intOf q.Y * Z1 * Z1 * Z1)

/-- `jfroma(a)` (R176): coordinates copied as they are. -/
def jfroma (a : Affine) : Jacobian := if a.inf then J0 else ⟨a.x, a.y, 1⟩

/-- `jtoa(p)` (R177). The identity is tested first, so the inversion never meets a zero residue. -/
def jtoa (p : Jacobian) : Except CmdFault Affine :=
  if p.isIdentity then .ok A0
  else
    match modinv (intOf p.Z) P with
    | .error c => .error c
    | .ok iz =>
      let iz2 := modP (iz * iz)
      let iz3 := modP (iz2 * iz)
      .ok ⟨toBig (modP (intOf p.X * iz2)), toBig (modP (intOf p.Y * iz3)), false⟩

/-- `jendo(p)` (R178): the endomorphism `(x, y) ↦ (β·x, y)`. -/
def jendo (p : Jacobian) : Jacobian :=
  if p.isIdentity then J0
  else ⟨toBig (modP (beta * intOf p.X)), toBig (modP (intOf p.Y)), toBig (modP (intOf p.Z))⟩

/-! ### Affine functions -/

/-- The chord-and-tangent point of slope `sl` through `(x1, y1)` and a point with x coordinate `x2` (R184, R185). -/
def slopePoint (sl x1 y1 x2 : Int) : Affine :=
  let x3 := modP (sl * sl - x1 - x2)
  let y3 := modP (sl * (x1 - x3) - y1)
  ⟨toBig x3, toBig y3, false⟩

/-- `adbl(a)` (R184): the slope is `3x²/(2y)`. -/
def adbl (a : Affine) : Except CmdFault Affine :=
  if a.inf then .ok A0
  else
    let x := intOf a.x
    let y := intOf a.y
    match modinv (2 * y) P with
    | .error c => .error c
    | .ok i => .ok (slopePoint (modP (3 * x * x * i)) x y x)

/-- `aadd(a, b)` (R185). -/
def aadd (a b : Affine) : Except CmdFault Affine :=
  if a.inf then (if b.inf then .ok A0 else .ok b)
  else if b.inf then .ok a
  else
    let x1 := intOf a.x
    let y1 := intOf a.y
    let x2 := intOf b.x
    let y2 := intOf b.y
    if modP x1 = modP x2 ∧ modP y1 = modP y2 then adbl a
    else if modP x1 = modP x2 then .error .invalidAddition
    else
      match modinv (x2 - x1) P with
      | .error c => .error c
      | .ok i => .ok (slopePoint (modP ((y2 - y1) * i)) x1 y1 x2)

/-- `aneg(a)` (R186). -/
def aneg (a : Affine) : Affine :=
  if a.inf then A0 else ⟨toBig (modP (intOf a.x)), toBig (modP (-intOf a.y)), false⟩

/-- The equality of `A_EQ` (R190): residues are compared, and the coordinates of an identity are ignored. -/
def aeq (a b : Affine) : Bool :=
  (a.inf && b.inf) ||
    (!a.inf && !b.inf && modP (intOf a.x) == modP (intOf b.x) && modP (intOf a.y) == modP (intOf b.y))

/-! ### On-curve tests and decompression -/

/-- `curvef(x) = mod(x³ + 7, P)` (R191). -/
def curvef (x : Int) : Int := modP (x * x * x + curveB)

/-- `0 < v < P` on a raw value (R192, R195). -/
def inField (v : Int) : Bool := decide (0 < v ∧ v < P)

/-- `oncurve(a)`, the canonical test (R192). -/
def oncurve (a : Affine) : Bool :=
  !a.inf && inField (intOf a.x) && inField (intOf a.y) && modP (intOf a.y * intOf a.y) == curvef (intOf a.x)

/-- `dualvalid(a)`, the dual-sign test (R193). -/
def dualvalid (a : Affine) : Bool :=
  !a.inf && inField (intOf a.x) && inField (intOf a.y) &&
    (modP (intOf a.y * intOf a.y) == curvef (intOf a.x) ||
      modP (intOf a.y * intOf a.y) == modP (-curvef (intOf a.x)))

/-- The root of `decomp` with the requested parity: `(x³ + 7)^((P+1)/4)`, negated when its low bit is not `par` (R195). -/
def rootWithParity (x : Int) (par : Bool) : Int :=
  let y := modpow (curvef x) sqrtExp P
  if y % 2 = (if par then 1 else 0) then y else modP (-y)

/-- `decomp(x, par)` (R195). -/
def decomp (x : Int) (par : Bool) : Except CmdFault Affine :=
  if inField x then
    let y := rootWithParity x par
    if modP (y * y) ≠ curvef x ∨ y = 0 then .error .pointNotOnCurve
    else .ok ⟨toBig x, toBig y, false⟩
  else .error .pointNotOnCurve

/-! ### Meanings -/

/-- The writes of a command whose result is an affine point, with the `INF` flag (R171c). -/
def affineInto (rd : PtNum) (s : State) (r : Except CmdFault Affine) : Except CmdFault State :=
  match r with
  | .error c => .error c
  | .ok a => .ok (s.putAp rd a)

/-- `J_DBL` (R180). -/
def execJDbl (rd ra : PtNum) (s : State) : Host.Outcome State Fault Refusal :=
  endCommand s (.ok (s.putJp rd (jdbl (s.jp ra))))

/-- `J_ADD` (R181). -/
def execJAdd (rd ra rb : PtNum) (s : State) : Host.Outcome State Fault Refusal :=
  endCommand s (.ok (s.putJp rd (jadd (s.jp ra) (s.jp rb))))

/-- `J_NEG` (R182). -/
def execJNeg (rd ra : PtNum) (s : State) : Host.Outcome State Fault Refusal :=
  endCommand s (.ok (s.putJp rd (jneg (s.jp ra))))

/-- `J_EQ` (R183). -/
def execJEq (ra rb : PtNum) (s : State) : Host.Outcome State Fault Refusal :=
  endCommand s (.ok (s.setEq (jeq (s.jp ra) (s.jp rb))))

/-- `J_FROMA` (R198): `FLAGS.INF <- AP[ra].inf`. -/
def execJFroma (rd ra : PtNum) (s : State) : Host.Outcome State Fault Refusal :=
  endCommand s (.ok ((s.setJp rd (jfroma (s.ap ra))).setInf (s.ap ra).inf))

/-- `J_TOA` (R199). -/
def execJToa (rd ra : PtNum) (s : State) : Host.Outcome State Fault Refusal :=
  endCommand s (affineInto rd s (jtoa (s.jp ra)))

/-- `J_ENDO` (R200). -/
def execJEndo (rd ra : PtNum) (s : State) : Host.Outcome State Fault Refusal :=
  endCommand s (.ok (s.putJp rd (jendo (s.jp ra))))

/-- `A_ADD` (R187). -/
def execAAdd (rd ra rb : PtNum) (s : State) : Host.Outcome State Fault Refusal :=
  endCommand s (affineInto rd s (aadd (s.ap ra) (s.ap rb)))

/-- `A_DBL` (R188). -/
def execADbl (rd ra : PtNum) (s : State) : Host.Outcome State Fault Refusal :=
  endCommand s (affineInto rd s (adbl (s.ap ra)))

/-- `A_NEG` (R189). -/
def execANeg (rd ra : PtNum) (s : State) : Host.Outcome State Fault Refusal :=
  endCommand s (.ok (s.putAp rd (aneg (s.ap ra))))

/-- `A_EQ` (R190). -/
def execAEq (ra rb : PtNum) (s : State) : Host.Outcome State Fault Refusal :=
  endCommand s (.ok (s.setEq (aeq (s.ap ra) (s.ap rb))))

/-- `A_VALID` (R194). -/
def execAValid (ra : PtNum) (s : State) : Host.Outcome State Fault Refusal :=
  endCommand s (.ok (s.setCurveTests (dualvalid (s.ap ra)) (oncurve (s.ap ra))))

/-- The writes of `A_DECOMP` (R196): `FLAGS.INF <- 0`. -/
def decompInto (rd : PtNum) (ra : FrNum) (m : Bool) (s : State) : Except CmdFault State :=
  match decomp (s.fr ra) m with
  | .error c => .error c
  | .ok a => .ok ((s.setAp rd a).setInf false)

/-- `A_DECOMP` (R196). -/
def execADecomp (rd : PtNum) (ra : FrNum) (m : Bool) (s : State) : Host.Outcome State Fault Refusal :=
  endCommand s (decompInto rd ra m s)

/-- `A_LDG` (R201). -/
def execALdg (rd : PtNum) (s : State) : Host.Outcome State Fault Refusal :=
  endCommand s (.ok ((s.setAp rd basePoint).setInf false))

end Sys2Proof.Machine
end

