-- ==== Sys2Proof/Machine/Scalar.lean ====
section
/-! DEFINITION. The SMU: the GLV split, the precomputed table, the windowed and the plain multiplication (43_scalar.md
R220 to R241) and the meanings of its commands. -/

namespace Sys2Proof.Machine

open Sys2Proof.Config

/-- The scalar range of R221, on the raw value. -/
def validScalar (k : Int) : Bool := decide (0 < k ∧ k < n)

/-! ### The GLV split (R224) -/

/-- `c1 = (b2·k + n div 2) div n`. -/
def splitC1 (k : Int) : Int := (b2 * k + n / 2) / n

/-- `c2 = ((−b1)·k + n div 2) div n`. -/
def splitC2 (k : Int) : Int := (negB1 * k + n / 2) / n

/-- The signed first part `k1 = k − c1·a1 − c2·a2`. -/
def splitK1 (k : Int) : Int := k - splitC1 k * a1 - splitC2 k * a2

/-- The signed second part `k2 = −c1·b1 − c2·b2 = c1·(−b1) − c2·b2`. -/
def splitK2 (k : Int) : Int := splitC1 k * negB1 - splitC2 k * b2

/-- `split(k)`: the two magnitudes and the two sign bits. -/
def split (k : Int) : Nat × Nat × Bool × Bool :=
  ((splitK1 k).natAbs, (splitK2 k).natAbs, decide (splitK1 k < 0), decide (splitK2 k < 0))

/-! ### The precomputed table (R230, R232) -/

/-- `nwin(W, glv) = B/W + 1` (R232). -/
def nwin (W : Nat) (glv : Bool) : Nat := (if glv then 128 else 256) / W + 1

/-- `h = 2^(W−1)`, the multiples a window holds (R230). -/
def windowSize (W : Nat) : Nat := 2 ^ (W - 1)

/-- `b` and the `more` multiples of `p` after it, each one `jadd(·, p)` of the one before, with the last of them. -/
def multiples (p : Jacobian) : (more : Nat) → (b : Jacobian) → List Jacobian × Jacobian
  | 0, b => ([b], b)
  | more + 1, b =>
    let rest := multiples p more (jadd b p)
    (b :: rest.1, rest.2)

/-- The rows of `windows` windows, the first for the point `p` (R230): a row holds the multiples 1 to `h` of its point
and the next window's point is the double of the last. -/
def tableRows (h : Nat) : (windows : Nat) → (p : Jacobian) → List Jacobian
  | 0, _ => []
  | windows + 1, p =>
    let row := multiples p (h - 1) p
    row.1 ++ tableRows h windows (jdbl row.2)

/-- The Jacobian values of `table(Q, W, glv)`. -/
def tableJacobian (Q : Affine) (W : Nat) (glv : Bool) : List Jacobian :=
  tableRows (windowSize W) (nwin W glv) (jfroma Q)

/-- A table entry from its Jacobian value and the inverse of its `Z` (R230). -/
def normalise (p : Jacobian) (zi : Int) : Affine :=
  ⟨toBig (modP (intOf p.X * (zi * zi))), toBig (modP (intOf p.Y * (zi * zi * zi))), false⟩

/-- `table(Q, W, glv)` (R230), normalised with one inversion for the whole table. -/
def table (Q : Affine) (W : Nat) (glv : Bool) : Except CmdFault (List Affine) :=
  match batchinv ((tableJacobian Q W glv).map fun p => modP (intOf p.Z)) P with
  | .error c => .error c
  | .ok zi => .ok (List.zipWith normalise (tableJacobian Q W glv) zi)

/-! ### Windowed multiplication (R235, R236) -/

/-- The table entry `T[i]` lifted to `(x, y, 1)`. The index is inside the table for a table of the window's size; the
identity's coordinates stand in outside it (log 10). -/
def liftEntry (T : List Affine) (i : Nat) : Jacobian :=
  let t := T.getD i A0
  ⟨t.x, t.y, 1⟩

/-- The signed digit of the lowest window of `v` (R235): `2^W` is subtracted when the window's value exceeds `h`. -/
def digit (W v : Nat) : Int :=
  if v % 2 ^ W > windowSize W then ((v % 2 ^ W : Nat) : Int) - 2 ^ W else ((v % 2 ^ W : Nat) : Int)

/-- What is left of `v` after its lowest window, with the carry of 1 when the digit was borrowed (R235). -/
def carryOn (W v : Nat) : Nat := if v % 2 ^ W > windowSize W then v / 2 ^ W + 1 else v / 2 ^ W

/-- `acc` with the multiple that digit `d` of window `w` selects (R235). A zero digit adds nothing. -/
def addDigit (T : List Affine) (W w : Nat) (d : Int) (acc : Jacobian) : Jacobian :=
  if d > 0 then jadd acc (liftEntry T (w * windowSize W + d.toNat - 1))
  else if d < 0 then jadd acc (jneg (liftEntry T (w * windowSize W + (-d).toNat - 1)))
  else acc

/-- The windows from number `w` on, least significant first, `left` of them (R235). -/
def wnafFrom (T : List Affine) (W : Nat) : (left w v : Nat) → (acc : Jacobian) → Except CmdFault Jacobian
  | 0, _, v, acc => if v ≠ 0 then .error .scalarRange else .ok acc
  | left + 1, w, v, acc => wnafFrom T W left (w + 1) (carryOn W v) (addDigit T W w (digit W v) acc)

/-- `wnaf(T, v, W, glv)` (R235). -/
def wnaf (T : List Affine) (v W : Nat) (glv : Bool) : Except CmdFault Jacobian :=
  wnafFrom T W (nwin W glv) 0 v J0

/-- `p`, or its negative when the sign bit is set (R236). -/
def withSign (s : Bool) (p : Jacobian) : Jacobian := if s then jneg p else p

/-- The Jacobian result of `mulw` (R236), from the table `T` of the point. -/
def mulwJacobian (T : List Affine) (k : Int) (W : Nat) (glv : Bool) : Except CmdFault Jacobian :=
  if glv then
    match wnaf T (split k).1 W true, wnaf T (split k).2.1 W true with
    | .ok p1, .ok p2 => .ok (jadd (withSign (split k).2.2.1 p1) (jendo (withSign (split k).2.2.2 p2)))
    | .error c, _ => .error c
    | _, .error c => .error c
  else wnaf T k.toNat W false

/-- `mulw` from the table of the point: the result is always normalised to affine (R236). -/
def mulwWith (T : List Affine) (k : Int) (W : Nat) (glv : Bool) : Except CmdFault Affine :=
  match mulwJacobian T k W glv with
  | .error c => .error c
  | .ok r => jtoa r

/-- `mulw(Q, k, W, glv)` (R236), with `T = table(Q, W, glv)`. -/
def mulw (Q : Affine) (k : Int) (W : Nat) (glv : Bool) : Except CmdFault Affine :=
  match table Q W glv with
  | .error c => .error c
  | .ok T => mulwWith T k W glv

/-! ### Plain multiplication (R238) -/

/-- The loop of `mulu`: what is accumulated, the current double, what is left of the scalar. -/
def muluLoop : (fuel : Nat) → (acc d : Jacobian) → (k : Nat) → Jacobian
  | 0, acc, _, _ => acc
  | fuel + 1, acc, d, k =>
    if k = 0 then acc else muluLoop fuel (if k % 2 = 1 then jadd acc d else acc) (jdbl d) (k / 2)

/-- `mulu(Q, k)`, least significant bit first (R238). The scalar bounds its own number of halvings (log 9). -/
def mulu (Q : Affine) (k : Int) : Except CmdFault Affine := jtoa (muluLoop k.toNat J0 (jfroma Q) k.toNat)

/-! ### The table cache (10_state.md R33, R233, R237) -/

/-- The lookup: the valid bit and the whole tag, compared by value. -/
def Table.hit (t : Table) (Q : Affine) (w : Byte) (glv : Bool) : Bool :=
  t.valid && t.x == Q.x && t.y == Q.y && t.W == w && t.glv == glv

/-- The cache after a lookup for `(Q, W, glv)`: unchanged on a hit, rebuilt on a miss. -/
def Table.fill (t : Table) (Q : Affine) (w : Byte) (glv : Bool) : Except CmdFault Table :=
  if t.hit Q w glv then .ok t
  else
    match table Q w.toNat glv with
    | .error c => .error c
    | .ok T => .ok ⟨true, Q.x, Q.y, w, glv, T⟩

/-! ### Meanings -/

/-- The writes of `S_SPLIT` (R226): the value check of R85, then the scalar range. -/
def splitInto (rd ra : FrNum) (s : State) : Except CmdFault State :=
  if h : rd.val + 1 < 16 then
    if validScalar (s.fr ra) then
      let (m1, m2, s1, s2) := split (s.fr ra)
      .ok (((s.setFr rd m1).setFr ⟨rd.val + 1, h⟩ m2).setHalfSigns s1 s2)
    else .error .invalidScalar
  else .error .illegal

/-- `S_SPLIT` (R226). -/
def execSSplit (rd ra : FrNum) (s : State) : Host.Outcome State Fault Refusal :=
  endCommand s (splitInto rd ra s)

/-- The writes of `S_PRECOMP` (R233): the value check of R85, then the multiplicand. -/
def precompute (ra : PtNum) (m : Bool) (w : Byte) (s : State) : Except CmdFault State :=
  if validWidth w then
    if oncurve (s.ap ra) then
      match s.TBL.fill (s.ap ra) w m with
      | .error c => .error c
      | .ok t => .ok { s with TBL := t }
    else .error .pointNotOnCurve
  else .error .illegal

/-- `S_PRECOMP` (R233). -/
def execSPrecomp (ra : PtNum) (m : Bool) (w : Byte) (s : State) : Host.Outcome State Fault Refusal :=
  endCommand s (precompute ra m w s)

/-- The point and the cache of `S_MUL` after its checks (R237). The multiplication uses the contents of the cache after
the lookup (log 7). -/
def cachedMul (t : Table) (Q : Affine) (k : Int) (m : Bool) (w : Byte) : Except CmdFault (Affine × Table) :=
  match t.fill Q w m with
  | .error c => .error c
  | .ok t' =>
    match mulwWith t'.T k w.toNat m with
    | .error c => .error c
    | .ok a => .ok (a, t')

/-- The writes of `S_MUL` (R237), the checks in the order of R223: the value check, the scalar, the multiplicand. -/
def multiplyInto (rd ra : PtNum) (rb : FrNum) (m : Bool) (w : Byte) (s : State) : Except CmdFault State :=
  if validWidth w then
    if validScalar (s.fr rb) then
      if oncurve (s.ap ra) then
        match cachedMul s.TBL (s.ap ra) (s.fr rb) m w with
        | .error c => .error c
        | .ok (a, t) =>
          .ok ((({ s with TBL := t }.setAp rd a).setInf false).setTblHit (s.TBL.hit (s.ap ra) w m))
      else .error .pointNotOnCurve
    else .error .invalidScalar
  else .error .illegal

/-- `S_MUL` (R237). -/
def execSMul (rd ra : PtNum) (rb : FrNum) (m : Bool) (w : Byte) (s : State) : Host.Outcome State Fault Refusal :=
  endCommand s (multiplyInto rd ra rb m w s)

/-- The writes of `S_MULU` (R239): the scalar, then the multiplicand (R223); `TBL` is neither read nor written. -/
def plainMultiplyInto (rd ra : PtNum) (rb : FrNum) (s : State) : Except CmdFault State :=
  if validScalar (s.fr rb) then
    if oncurve (s.ap ra) then
      match mulu (s.ap ra) (s.fr rb) with
      | .error c => .error c
      | .ok a => .ok ((s.setAp rd a).setInf false)
    else .error .pointNotOnCurve
  else .error .invalidScalar

/-- `S_MULU` (R239). -/
def execSMulu (rd ra : PtNum) (rb : FrNum) (s : State) : Host.Outcome State Fault Refusal :=
  endCommand s (plainMultiplyInto rd ra rb s)

end Sys2Proof.Machine
end

