-- ==== Sys2Proof/Machine/Keccak.lean ====
section
/-! DEFINITION. The permutation Keccak-f[1600] (40_keccak.md R100 to R106), a pure function of the 50 words. -/

namespace Sys2Proof.Machine

/-- The number `L = x + 5y` of the lane at coordinates `(x, y)`, both modulo 5 (10_state.md R21, R101). -/
def laneAt (x y : Nat) : Fin 25 := ⟨x % 5 + 5 * (y % 5), by omega⟩

/-- The 24 round constants `RC[0..23]` (R103). -/
def roundConstants : List Lane :=
  [0x0000000000000001, 0x0000000000008082, 0x800000000000808A, 0x8000000080008000,
   0x000000000000808B, 0x0000000080000001, 0x8000000080008081, 0x8000000000008009] ++
  [0x000000000000008A, 0x0000000000000088, 0x0000000080008009, 0x000000008000000A,
   0x000000008000808B, 0x800000000000008B, 0x8000000000008089, 0x8000000000008003] ++
  [0x8000000000008002, 0x8000000000000080, 0x000000000000800A, 0x800000008000000A,
   0x8000000080008081, 0x8000000000008080, 0x0000000080000001, 0x8000000080008008]

/-- The rotation offsets `r[x, y]` by lane number (R104). -/
def rotationOffsets : Vector Nat 25 :=
  #v[0, 1, 62, 28, 27,
     36, 44, 6, 55, 20,
     3, 10, 43, 25, 39,
     41, 45, 15, 21, 8,
     18, 2, 61, 56, 14]

/-- `C[x]`, the parity of column `x` (R105). -/
def columnParity (A : Vector Lane 25) (x : Nat) : Lane :=
  A[laneAt x 0] ^^^ A[laneAt x 1] ^^^ A[laneAt x 2] ^^^ A[laneAt x 3] ^^^ A[laneAt x 4]

/-- θ (R105). -/
def theta (A : Vector Lane 25) : Vector Lane 25 :=
  let C : Vector Lane 5 := Vector.ofFn fun x => columnParity A x
  let D : Vector Lane 5 := Vector.ofFn fun x =>
    C[Fin.ofNat 5 (x + 4)] ^^^ (C[Fin.ofNat 5 (x + 1)]).rotateLeft 1
  Vector.ofFn fun L => A[L] ^^^ D[Fin.ofNat 5 L]

/-- The source lane of ρπ's destination lane `(X, Y)`: `X = y` and `Y = 2x + 3y`, so `x = X + 3Y` and `y = X` modulo 5
(R105). -/
def rhoPiSource (X Y : Nat) : Fin 25 := laneAt (X + 3 * Y) X

/-- ρπ: `B[y, 2x+3y] = rol_64(A1[x, y], r[x, y])` (R105), read at the destination. -/
def rhoPi (A1 : Vector Lane 25) : Vector Lane 25 :=
  Vector.ofFn fun L =>
    let src := rhoPiSource (L.val % 5) (L.val / 5)
    (A1[src]).rotateLeft rotationOffsets[src]

/-- χ (R105). -/
def chi (B : Vector Lane 25) : Vector Lane 25 :=
  Vector.ofFn fun L =>
    let x := L.val % 5
    let y := L.val / 5
    B[laneAt x y] ^^^ (~~~ B[laneAt (x + 1) y] &&& B[laneAt (x + 2) y])

/-- ι: the round constant is XORed into lane 0 (R105). -/
def iota (A3 : Vector Lane 25) (rc : Lane) : Vector Lane 25 := A3.set 0 (A3[0] ^^^ rc)

/-- One round (R105), the four steps in the order of R102. -/
def round (A : Vector Lane 25) (rc : Lane) : Vector Lane 25 := iota (chi (rhoPi (theta A))) rc

/-- The lane view of the 50 words: `A[L] = S[2L+1] ∥ S[2L]` (R101). -/
def lanesOf (S : Vector Word 50) : Vector Lane 25 := Vector.ofFn fun L => S[2 * L.val + 1] ++ S[2 * L.val]

/-- The words of the lanes: the low half at the even index, the high half at the odd index (R106). -/
def wordsOf (A : Vector Lane 25) : Vector Word 50 :=
  Vector.ofFn fun i => (A[i.val / 2]).extractLsb' (32 * (i.val % 2)) 32

/-- `f1600`: 24 rounds (R102, R106). Irreducible, so that no unification unrolls the rounds. -/
@[irreducible] def f1600 (S : Vector Word 50) : Vector Word 50 := wordsOf (roundConstants.foldl round (lanesOf S))

end Sys2Proof.Machine
end

