-- ==== Sys2Proof/Machine/Sponge.lean ====
section
/-! DEFINITION. The sponge state machine of the KSE (40_keccak.md R108 to R115) and the meanings of its commands. -/

namespace Sys2Proof.Machine

/-- The buffer with byte `b` ORed in at byte position `pos` (R110). -/
def orByte (blk : Vector Word 34) (pos : Fin 136) (b : Byte) : Vector Word 34 :=
  let w : Fin 34 := ⟨pos.val / 4, by omega⟩
  blk.set w (blk[w] ||| (b.setWidth 32 <<< (8 * (pos.val % 4))))

/-- `S[i] <- S[i] ^ BLK[i]` for `i = 0..33`; the capacity words `S[34..49]` are left alone (R110). -/
def xorBlock (S : Vector Word 50) (blk : Vector Word 34) : Vector Word 50 :=
  Vector.ofFn fun i => if h : i.val < 34 then S[i] ^^^ blk[i.val] else S[i]

/-- `kclear` (R109): a dead buffer is zeroed before its next use. -/
def kclear (s : State) : State :=
  if s.KRST then { s with BLK := Vector.replicate 34 0, KRST := false } else s

/-- A full or padded block goes into the sponge: `S <- f1600(S ^ BLK)`, the cursor back to 0, the buffer dead. -/
def absorbBlock (s : State) : State :=
  { s with S := f1600 (xorBlock s.S s.BLK), KPOS := 0, KRST := true }

/-- The next cursor after a byte; none when the block is full (`KPOS + 1 = 136`, R110). -/
def nextCursor (pos : Fin 136) : Option (Fin 136) :=
  if h : pos.val + 1 < 136 then some ⟨pos.val + 1, h⟩ else none

/-- `absorb_byte(b)` (R110), its lines in sequence. -/
def absorbByte (b : Byte) (s : State) : State :=
  let s1 := kclear s
  let s2 := { s1 with BLK := orByte s1.BLK s1.KPOS b }
  match nextCursor s2.KPOS with
  | some k => { s2 with KPOS := k }
  | none => absorbBlock s2

/-- The four bytes of `KDIN`, least significant first (R111). -/
def absorbWord (w : Word) (s : State) : State :=
  absorbByte (wordByte w 3) (absorbByte (wordByte w 2) (absorbByte (wordByte w 1) (absorbByte (wordByte w 0) s)))

/-- Padding, the last block, phase `DONE` (R112): byte `0x01` at the cursor, the top bit of the last word. -/
def padAndFinish (s : State) : State :=
  let s1 := kclear s
  let blk := orByte s1.BLK s1.KPOS 0x01
  let blk' := blk.set 33 (blk[33] ||| 0x80000000)
  { absorbBlock { s1 with BLK := blk' } with KPHASE := .done }

/-- `if KPHASE ≠ ABSORB then raise E_SEQUENCE`, then the command's effect (R110 to R112, R115). -/
def inAbsorb (s : State) (f : State → State) : Except CmdFault State :=
  if s.KPHASE = .absorb then .ok (f s) else .error .sequence

/-- The state `K_INIT` leaves (R108). -/
def startHash (s : State) : State :=
  { s with S := Vector.replicate 50 0, BLK := Vector.replicate 34 0, KPOS := 0, KRST := true, KPHASE := .absorb }

/-- `K_INIT` (R108): legal in every phase. -/
def execKInit (s : State) : Host.Outcome State Fault Refusal := endCommand s (.ok (startHash s))

/-- `K_ABSORB imm` (R110). -/
def execKAbsorb (imm : Byte) (s : State) : Host.Outcome State Fault Refusal :=
  endCommand s (inAbsorb s (absorbByte imm))

/-- `K_ABSORBW` (R111): the phase is checked once, before any byte; `KDIN` is not changed. -/
def execKAbsorbw (s : State) : Host.Outcome State Fault Refusal :=
  endCommand s (inAbsorb s (absorbWord s.KDIN))

/-- `K_FINAL` (R112). -/
def execKFinal (s : State) : Host.Outcome State Fault Refusal := endCommand s (inAbsorb s padAndFinish)

/-- `K_PERM` (R114): legal in every phase; only `S` changes. -/
def execKPerm (s : State) : Host.Outcome State Fault Refusal := endCommand s (.ok { s with S := f1600 s.S })

end Sys2Proof.Machine
end

