-- ==== Sys2Proof/Machine/System.lean ====
section
/-! DEFINITION. The system commands (44_system.md R260 to R263). -/

namespace Sys2Proof.Machine

/-- `C_NOP` (R260): nothing but the normal end. -/
def execCNop (s : State) : Host.Outcome State Fault Refusal := endCommand s (.ok s)

/-- `C_CLRERR` (R261): all nine bits of `ERRSTICKY` are cleared. -/
def execCClrerr (s : State) : Host.Outcome State Fault Refusal := endCommand s (.ok { s with ERRSTICKY := 0 })

/-- The state with `FR`, `AP`, `JP`, `FLAGS` and `KDIN` zeroed (R262). -/
def wipe (s : State) : State :=
  { s with
    FR := Vector.replicate 16 0
    AP := Vector.replicate 4 Affine.zero
    JP := Vector.replicate 4 Jacobian.zero
    FLAGS := Flags.clear
    KDIN := 0 }

/-- `C_WIPE` (R262). -/
def execCWipe (s : State) : Host.Outcome State Fault Refusal := endCommand s (.ok (wipe s))

/-- `C_TBLINV` (R263): `TBL.valid <- 0` and nothing else. -/
def execCTblinv (s : State) : Host.Outcome State Fault Refusal :=
  endCommand s (.ok { s with TBL := { s.TBL with valid := false } })

end Sys2Proof.Machine
end

