-- ==== Sys2Proof/Machine/Dispatch.lean ====
section
/-! DEFINITION. One arm per command, each one direct call of its meaning. -/

namespace Sys2Proof.Machine

open Sys2Proof

def exec (i : Instr) (s : State) : Host.Outcome State Fault Refusal :=
  match i with
  | .cNop => Sys2Proof.Machine.execCNop s
  | .cClrerr => Sys2Proof.Machine.execCClrerr s
  | .cWipe => Sys2Proof.Machine.execCWipe s
  | .cTblinv => Sys2Proof.Machine.execCTblinv s
  | .kInit => Sys2Proof.Machine.execKInit s
  | .kAbsorb imm => Sys2Proof.Machine.execKAbsorb imm s
  | .kAbsorbw => Sys2Proof.Machine.execKAbsorbw s
  | .kFinal => Sys2Proof.Machine.execKFinal s
  | .kPerm => Sys2Proof.Machine.execKPerm s
  | .fRed rd ra m => Sys2Proof.Machine.execFRed rd ra m s
  | .fAdd rd ra rb m => Sys2Proof.Machine.execFAdd rd ra rb m s
  | .fSub rd ra rb m => Sys2Proof.Machine.execFSub rd ra rb m s
  | .fMul rd ra rb m => Sys2Proof.Machine.execFMul rd ra rb m s
  | .fPow rd ra rb m => Sys2Proof.Machine.execFPow rd ra rb m s
  | .fInv rd ra m => Sys2Proof.Machine.execFInv rd ra m s
  | .fBinv ra m count => Sys2Proof.Machine.execFBinv ra m count s
  | .jDbl rd ra => Sys2Proof.Machine.execJDbl rd ra s
  | .jAdd rd ra rb => Sys2Proof.Machine.execJAdd rd ra rb s
  | .jNeg rd ra => Sys2Proof.Machine.execJNeg rd ra s
  | .jEq ra rb => Sys2Proof.Machine.execJEq ra rb s
  | .jFroma rd ra => Sys2Proof.Machine.execJFroma rd ra s
  | .jToa rd ra => Sys2Proof.Machine.execJToa rd ra s
  | .jEndo rd ra => Sys2Proof.Machine.execJEndo rd ra s
  | .aAdd rd ra rb => Sys2Proof.Machine.execAAdd rd ra rb s
  | .aDbl rd ra => Sys2Proof.Machine.execADbl rd ra s
  | .aNeg rd ra => Sys2Proof.Machine.execANeg rd ra s
  | .aEq ra rb => Sys2Proof.Machine.execAEq ra rb s
  | .aValid ra => Sys2Proof.Machine.execAValid ra s
  | .aDecomp rd ra m => Sys2Proof.Machine.execADecomp rd ra m s
  | .aLdg rd => Sys2Proof.Machine.execALdg rd s
  | .sSplit rd ra => Sys2Proof.Machine.execSSplit rd ra s
  | .sPrecomp ra m w => Sys2Proof.Machine.execSPrecomp ra m w s
  | .sMul rd ra rb m w => Sys2Proof.Machine.execSMul rd ra rb m w s
  | .sMulu rd ra rb => Sys2Proof.Machine.execSMulu rd ra rb s

end Sys2Proof.Machine
end

