-- ==== Sys2Proof/Machine/Step.lean ====
section
/-! DEFINITION. One step of the machine: the next host event, and for a write to `CMD` the whole execution of the command
it carries, decode first (20_memory.md R52, 30_encoding.md R83). -/

namespace Sys2Proof.Machine

/-- The execution of a command word (R52, R83). -/
def command (w : Word) (s : State) : Host.Outcome State Fault Refusal :=
  match decode w with
  | .ok i => exec i s
  | .error _ => illegalCommand s

/-- One step: one host event, or nothing when none is pending. -/
def step (s : State) : Host.Outcome State Fault Refusal :=
  match nextArrival s with
  | .settled t => .next t
  | .command w t => command w t

/-- The state with the command word `w` (its bits from `nbits` up zero) as the host's next write, to `CMD` (log 1). -/
def State.withFetchWord (s : State) (nbits w : Nat) : State :=
  { s with pending := .write 0x000 32 (BitVec.ofNat 32 (w % 2 ^ nbits)) :: s.pending }

end Sys2Proof.Machine
end

