-- ==== Sys2Proof/Safety.lean ====
section
/-! DEFINITION. What claims about the machine are stated in: the invariant of the state, what each command may raise and
may write, which accesses are bad, sequences of commands, the hash function the KSE computes, the digits of the windowed
multiplier, and the group of the curve. -/

namespace Sys2Proof.Machine

open Sys2Proof.Config

/-! ### The invariant -/

/-- Byte `j` of the block buffer (10_state.md R22). -/
def State.blkByte (s : State) (j : Fin 136) : Byte := wordByte s.BLK[j.val / 4] (j.val % 4)

/-- Byte `j` of the block being accumulated: a dead buffer counts as zero (R24, 40_keccak.md R109). -/
def State.liveByte (s : State) (j : Fin 136) : Byte := if s.KRST then 0 else s.blkByte j

/-- What every step keeps. -/
structure State.Inv (s : State) : Prop where
  /-- A live buffer is zero from the cursor on (10_state.md R24). -/
  cleanBuffer : s.KRST = false → ∀ j : Fin 136, s.KPOS ≤ j → s.blkByte j = 0
  /-- A dead buffer has its cursor at 0 (R24, R110). -/
  deadAtZero : s.KRST = true → s.KPOS = 0
  /-- Outside `ABSORB` the buffer is dead (R45, R112). -/
  deadOutside : s.KPHASE ≠ .absorb → s.KRST = true
  /-- "bit 0 is always 0" (R32). -/
  stickyZero : s.ERRSTICKY.getLsbD 0 = false
  /-- The code of the latest fault is also in the sticky mask (R32, R272). -/
  codeIsSticky : s.ERRCODE ≠ 0 → s.ERRSTICKY.getLsbD s.ERRCODE.toNat = true
  /-- A valid table is the table of its tag, and its tag is a legal multiplicand (R33, R34). -/
  tableOfTag : s.TBL.valid = true →
    validWidth s.TBL.W = true ∧ oncurve ⟨s.TBL.x, s.TBL.y, false⟩ = true ∧
      table ⟨s.TBL.x, s.TBL.y, false⟩ s.TBL.W.toNat s.TBL.glv = .ok s.TBL.T

/-! ### Rows of the window, by what they belong to -/

/-- The rows of the registers of `AP[r]`. -/
def Reg.isAp (r : PtNum) : Reg → Bool
  | .apX q _ | .apY q _ | .apInf q => q == r
  | _ => false

/-- The rows of the registers of `JP[r]`. -/
def Reg.isJp (r : PtNum) : Reg → Bool
  | .jpX q _ | .jpY q _ | .jpZ q _ => q == r
  | _ => false

/-- The rows of `FR[r]` for the numbers `r` from `lo` up, `count` of them. -/
def Reg.isFrRun (lo count : Nat) : Reg → Bool
  | .FR q _ => decide (lo ≤ q.val ∧ q.val < lo + count)
  | _ => false

/-- The rows of the table cache (20_memory.md R57). -/
def Reg.isTable : Reg → Bool
  | .tblinfo | .tblTagX _ | .tblTagY _ => true
  | _ => false

/-- The rows `S[i]` and `KPOS`. -/
def Reg.isSponge : Reg → Bool
  | .S _ | .kpos => true
  | _ => false

/-! ### What a command may do -/

/-- The faulting end of a command, with the code `c` (60_exceptions.md R272), written out. -/
def State.faulted (s : State) (c : BitVec 3) : State :=
  { s with ERRCODE := c, ERRSTICKY := s.ERRSTICKY ||| (1#9 <<< c.toNat) }

end Sys2Proof.Machine

namespace Sys2Proof

open Sys2Proof.Config
open Sys2Proof.Machine

/-- The commands of the KSE (40_keccak.md). -/
def Instr.isKse : Instr → Bool
  | .kInit | .kAbsorb _ | .kAbsorbw | .kFinal | .kPerm => true
  | .cNop | .cClrerr | .cWipe | .cTblinv => false
  | .fRed _ _ _ | .fAdd _ _ _ _ | .fSub _ _ _ _ | .fMul _ _ _ _ | .fPow _ _ _ _ | .fInv _ _ _ | .fBinv _ _ _ => false
  | .jDbl _ _ | .jAdd _ _ _ | .jNeg _ _ | .jEq _ _ | .jFroma _ _ | .jToa _ _ | .jEndo _ _ => false
  | .aAdd _ _ _ | .aDbl _ _ | .aNeg _ _ | .aEq _ _ | .aValid _ | .aDecomp _ _ _ | .aLdg _ => false
  | .sSplit _ _ | .sPrecomp _ _ _ | .sMul _ _ _ _ _ | .sMulu _ _ _ => false

/-- The faults a well-formed command may raise (40_keccak.md R123; 41_field.md R145 to R151; 42_point.md R202;
43_scalar.md R241; the "nominal" ones left out, which the rules call unreachable). -/
def Instr.faults : Instr → List CmdFault
  | .kAbsorb _ | .kAbsorbw | .kFinal => [.sequence]
  | .fInv _ _ _ => [.notInvertible]
  | .aAdd _ _ _ => [.invalidAddition, .notInvertible]
  | .aDbl _ _ => [.notInvertible]
  | .aDecomp _ _ _ => [.pointNotOnCurve]
  | .sSplit _ _ => [.invalidScalar]
  | .sPrecomp _ _ _ => [.pointNotOnCurve]
  | .sMul _ _ _ _ _ | .sMulu _ _ _ => [.invalidScalar, .pointNotOnCurve]
  | .cNop | .cClrerr | .cWipe | .cTblinv | .kInit | .kPerm => []
  | .fRed _ _ _ | .fAdd _ _ _ _ | .fSub _ _ _ _ | .fMul _ _ _ _ | .fPow _ _ _ _ | .fBinv _ _ _ => []
  | .jDbl _ _ | .jAdd _ _ _ | .jNeg _ _ | .jEq _ _ | .jFroma _ _ | .jToa _ _ | .jEndo _ _ => []
  | .aNeg _ _ | .aEq _ _ | .aValid _ | .aLdg _ => []

/-- The rows a command may change besides `STATUS`, `ERRCODE` and `ERRSTICKY`: its destinations as its rule names
them. -/
def Instr.mayChange (i : Instr) (r : Reg) : Bool :=
  match i with
  | .cNop | .cClrerr => false
  | .cWipe => r.isFrRun 0 16 || r.isAp 0 || r.isAp 1 || r.isAp 2 || r.isAp 3 || r.isJp 0 || r.isJp 1 || r.isJp 2 ||
      r.isJp 3 || r == .flags || r == .kdin
  | .cTblinv => r.isTable
  | .kInit | .kAbsorb _ | .kAbsorbw | .kFinal => r.isSponge
  | .kPerm => r.isSponge && r != .kpos
  | .fRed rd _ _ | .fInv rd _ _ => r.isFrRun rd 1
  | .fAdd rd _ _ _ | .fSub rd _ _ _ | .fMul rd _ _ _ | .fPow rd _ _ _ => r.isFrRun rd 1
  | .fBinv ra _ count => r.isFrRun ra count.toNat
  | .jDbl rd _ | .jAdd rd _ _ | .jNeg rd _ | .jFroma rd _ | .jEndo rd _ => r.isJp rd || r == .flags
  | .jToa rd _ | .aAdd rd _ _ | .aDbl rd _ | .aNeg rd _ | .aDecomp rd _ _ | .aLdg rd => r.isAp rd || r == .flags
  | .jEq _ _ | .aEq _ _ | .aValid _ => r == .flags
  | .sSplit rd _ => r.isFrRun rd 2 || r == .flags
  | .sPrecomp _ _ _ => r.isTable
  | .sMul rd _ _ _ _ => r.isAp rd || r == .flags || r.isTable
  | .sMulu rd _ _ => r.isAp rd || r == .flags

/-- The flags of `f` with the ones a command is listed for in 10_state.md R30 taken from `g`. -/
def Instr.flagsFrom (i : Instr) (f g : Flags) : Flags :=
  match i with
  | .jEq _ _ | .aEq _ _ => { f with EQ := g.EQ }
  | .aValid _ => { f with VALID := g.VALID, ONCURVE := g.ONCURVE }
  | .sSplit _ _ => { f with K1NEG := g.K1NEG, K2NEG := g.K2NEG }
  | .jDbl _ _ | .jAdd _ _ _ | .jNeg _ _ | .jFroma _ _ | .jToa _ _ | .jEndo _ _ => { f with INF := g.INF }
  | .aAdd _ _ _ | .aDbl _ _ | .aNeg _ _ | .aDecomp _ _ _ | .aLdg _ | .sMulu _ _ _ => { f with INF := g.INF }
  | .sMul _ _ _ _ _ => { f with INF := g.INF, TBLHIT := g.TBLHIT }
  | .cWipe => g
  | .cNop | .cClrerr | .cTblinv | .kInit | .kAbsorb _ | .kAbsorbw | .kFinal | .kPerm => f
  | .fRed _ _ _ | .fAdd _ _ _ _ | .fSub _ _ _ _ | .fMul _ _ _ _ | .fPow _ _ _ _ | .fInv _ _ _ | .fBinv _ _ _ => f
  | .sPrecomp _ _ _ => f

/-- The phase after a command (40_keccak.md R115). -/
def Instr.phaseAfter (i : Instr) (p : Phase) : Phase :=
  match i with
  | .kInit => .absorb
  | .kFinal => if p = .absorb then .done else p
  | .kAbsorb _ | .kAbsorbw | .kPerm | .cNop | .cClrerr | .cWipe | .cTblinv => p
  | .fRed _ _ _ | .fAdd _ _ _ _ | .fSub _ _ _ _ | .fMul _ _ _ _ | .fPow _ _ _ _ | .fInv _ _ _ | .fBinv _ _ _ => p
  | .jDbl _ _ | .jAdd _ _ _ | .jNeg _ _ | .jEq _ _ | .jFroma _ _ | .jToa _ _ | .jEndo _ _ => p
  | .aAdd _ _ _ | .aDbl _ _ | .aNeg _ _ | .aEq _ _ | .aValid _ | .aDecomp _ _ _ | .aLdg _ => p
  | .sSplit _ _ | .sPrecomp _ _ _ | .sMul _ _ _ _ _ | .sMulu _ _ _ => p

/-- What a result of a command in an `FR` register is below (10_state.md R38). -/
def Instr.frBound : Instr → Nat
  | .fRed _ _ m | .fInv _ _ m | .fBinv _ m _ => modulus m
  | .fAdd _ _ _ m | .fSub _ _ _ m | .fMul _ _ _ m | .fPow _ _ _ m => modulus m
  | .sSplit _ _ => 2 ^ 128
  | .cWipe => 1
  | .cNop | .cClrerr | .cTblinv | .kInit | .kAbsorb _ | .kAbsorbw | .kFinal | .kPerm => 0
  | .jDbl _ _ | .jAdd _ _ _ | .jNeg _ _ | .jEq _ _ | .jFroma _ _ | .jToa _ _ | .jEndo _ _ => 0
  | .aAdd _ _ _ | .aDbl _ _ | .aNeg _ _ | .aEq _ _ | .aValid _ | .aDecomp _ _ _ | .aLdg _ => 0
  | .sPrecomp _ _ _ | .sMul _ _ _ _ _ | .sMulu _ _ _ => 0

end Sys2Proof

namespace Sys2Proof.Machine

open Sys2Proof.Config

/-! ### Accesses -/

/-- The `RO` rows of 20_memory.md R51. -/
def Reg.readOnly : Reg → Bool
  | .status | .errcode | .errsticky | .flags | .kpos | .tblinfo => true
  | .tblTagX _ | .tblTagY _ | .const _ _ => true
  | .cmd | .kdin | .S _ | .FR _ _ | .apX _ _ | .apY _ _ | .apInf _ | .jpX _ _ | .jpY _ _ | .jpZ _ _ => false

/-- An access no row answers: its size, its alignment or its address is wrong (R60). -/
def offTarget (addr : BitVec 12) (bits : Nat) : Prop :=
  bits ≠ 32 ∨ addr.toNat % 4 ≠ 0 ∨ ∀ r : Reg, r.offset ≠ addr.toNat

/-- A bad read (R60). -/
def badRead (addr : BitVec 12) (bits : Nat) : Prop := offTarget addr bits ∨ addr.toNat = Reg.cmd.offset

/-- A bad write (R60). -/
def badWrite (addr : BitVec 12) (bits : Nat) : Prop :=
  offTarget addr bits ∨ ∃ r : Reg, r.readOnly = true ∧ r.offset = addr.toNat

/-! ### Sequences -/

/-- The commands of a list in order, each from the state the one before it left. -/
def execAll : List Instr → State → Host.Outcome State Fault Refusal
  | [], s => .next s
  | i :: rest, s =>
    match exec i s with
    | .next t => execAll rest t
    | .fault r => .fault r
    | .refused r => .refused r

/-! ### Keccak-256 of a byte string (40_keccak.md R117) -/

/-- The message followed by its padding, `q = 136 − (L mod 136)` bytes. -/
def padded (msg : List Byte) : List Byte :=
  let q := 136 - msg.length % 136
  msg ++ (if q = 1 then [0x81] else 0x01 :: List.replicate (q - 2) 0x00 ++ [0x80])

/-- The word of the bytes `4i` to `4i+3` of a block, little-endian (20_memory.md R61). -/
def blockWord (block : List Byte) (i : Nat) : Word :=
  block.getD (4 * i + 3) 0 ++ block.getD (4 * i + 2) 0 ++ block.getD (4 * i + 1) 0 ++ block.getD (4 * i) 0

/-- A block of 136 bytes XORed into state bytes 0..135. -/
def xorBytes (S : Vector Word 50) (block : List Byte) : Vector Word 50 :=
  Vector.ofFn fun i => if i.val < 34 then S[i] ^^^ blockWord block i.val else S[i]

/-- The first `count` blocks of `bytes`, in order: each is XORed in and followed by `f1600`. -/
def spongeBlocks : (count : Nat) → (bytes : List Byte) → Vector Word 50 → Vector Word 50
  | 0, _, S => S
  | count + 1, bytes, S => spongeBlocks count (bytes.drop 136) (f1600 (xorBytes S (bytes.take 136)))

/-- The state bytes 0..31 (R113). -/
def digest (S : Vector Word 50) : List Byte := List.ofFn fun j : Fin 32 => wordByte S[j.val / 4] (j.val % 4)

/-- `keccak256(msg)` (R117). -/
def keccak256 (msg : List Byte) : List Byte :=
  digest (spongeBlocks ((padded msg).length / 136) (padded msg) (Vector.replicate 50 0))

/-! ### The digits of the windowed multiplier (43_scalar.md R235) -/

/-- The digits of `v`, least significant first, `left` of them. -/
def wnafDigits (W : Nat) : (left : Nat) → (v : Nat) → List Int
  | 0, _ => []
  | left + 1, v => digit W v :: wnafDigits W left (carryOn W v)

/-- `Σ d_w·2^(Ww)`. -/
def digitSum (W : Nat) : List Int → Int
  | [] => 0
  | d :: ds => d + 2 ^ W * digitSum W ds

/-- The multiples the digits select from window `w` on, accumulated in order. -/
def accumulate (T : List Affine) (W : Nat) : (w : Nat) → List Int → Jacobian → Jacobian
  | _, [], acc => acc
  | w, d :: ds, acc => accumulate T W (w + 1) ds (addDigit T W w d acc)

/-! ### The group of the curve (42_point.md R170) -/

/-- The curve `y² = x³ + 7` over the integers modulo `P`, as Mathlib's Weierstrass curve. -/
def secp256k1 : WeierstrassCurve.Affine (ZMod P) := ⟨0, 0, 0, 0, 7⟩

/-- An affine register value stands for an element of the group: the identity, or the point with these residues. -/
def Affine.stands (a : Affine) (g : secp256k1.Point) : Prop :=
  match g with
  | .zero => a.inf = true
  | .some x y _ => a.inf = false ∧ (intOf a.x : ZMod P) = x ∧ (intOf a.y : ZMod P) = y

/-- A Jacobian register value stands for an element of the group: its affine form does. -/
def Jacobian.stands (p : Jacobian) (g : secp256k1.Point) : Prop := ∃ a, jtoa p = .ok a ∧ a.stands g

end Sys2Proof.Machine
end

