-- ==== Sys2Proof/Certificates/Slice0/Obligations.lean ====
section
/-! DEFINITION. The statements about this machine, for the provers. Operands are written out from the raw register
contents wherever a rule gives a formula, so that a statement does not lean on the function it is about. An equation
`exec i s = .next { s with … }` gives the result, says that the command completes, and is its frame. -/

section Statements

open Sys2Proof
open Sys2Proof.Config
open Sys2Proof.Machine

/-! ### Reset and the step -/

/-- R45: the values after reset, and `STATUS` reads `0x00000010`. The tag behind a clear valid bit and the host's two lists
are the model's (log 6, log 1, log 2) and are not stated. -/
def Obligations.ResetLeavesTheResetValues : Prop :=
  (∀ i : Fin 50, State.reset.S[i] = 0) ∧ (∀ i : Fin 34, State.reset.BLK[i] = 0) ∧ State.reset.KPOS = 0 ∧
  State.reset.KRST = true ∧ State.reset.KPHASE = .idle ∧ State.reset.KDIN = 0 ∧
  (∀ r : FrNum, State.reset.FR[r] = 0) ∧ (∀ r : PtNum, State.reset.AP[r] = ⟨0, 0, false⟩) ∧
  (∀ r : PtNum, State.reset.JP[r] = ⟨0, 0, 0⟩) ∧
  State.reset.FLAGS = ⟨false, false, false, false, false, false, false⟩ ∧ State.reset.ERRCODE = 0 ∧
  State.reset.ERRSTICKY = 0 ∧ State.reset.TBL.valid = false ∧
  readReg State.reset .status = some 0x00000010 ∧ readReg State.reset .tblinfo = some 0 ∧
  (∀ i, readReg State.reset (.tblTagX i) = some 0 ∧ readReg State.reset (.tblTagY i) = some 0)

/-- The invariant holds at reset. -/
def Obligations.ResetMeetsTheInvariant : Prop := State.reset.Inv

/-- Every step keeps the invariant: a live buffer is zero from the cursor on and a dead one has its cursor at 0 (R24), the
buffer is dead outside `ABSORB`, bit 0 of `ERRSTICKY` is 0 and the latest fault is in the mask (R32), a valid table is the
table of its tag (R34). -/
def Obligations.EveryStepKeepsTheInvariant : Prop := ∀ s t : State, s.Inv → step s = .next t → t.Inv

/-- R52: a host write of the word `w` to `CMD` executes the command `w` completely, in the state the write finds; a word
that is no command raises `E_ILLEGAL`. The written access leaves the host's list and nothing else is added. -/
def Obligations.AStepRunsTheDecodedCommand : Prop :=
  ∀ (s : State) (w : Word) (rest : List HostEvent), s.pending = .write 0x000 32 w :: rest →
    (∀ i, decode w = .ok i → step s = exec i { s with pending := rest }) ∧
    (∀ e, decode w = .error e → step s = .next (State.faulted { s with pending := rest } 1)) ∧
    (∀ n : Nat, n = w.toNat → step ({ s with pending := rest }.withFetchWord 32 n) = step s)

/-- R52, R278, R291, R300: no step stops the machine. With nothing pending the block holds its state; otherwise the first
arrival is taken off the host's list, and only a read adds a reply, one. The reset input leaves the reset state whatever
the state it meets; the host's two lists are the host's, not the block's (log 1, log 2, log 8). -/
def Obligations.EveryStepHasANextState : Prop :=
  (∀ s : State, s.pending = [] → step s = .next s) ∧
  (∀ (s : State) (rest : List HostEvent), s.pending = .reset :: rest →
    step s = .next { State.reset with pending := rest, replies := s.replies }) ∧
  ∀ (s : State) (e : HostEvent) (rest : List HostEvent), s.pending = e :: rest → ∃ t, step s = .next t ∧
    t.pending = rest ∧
    ((∃ addr bits v, e = .read addr bits ∧ t.replies = s.replies ++ [v]) ∨
      ((∀ addr bits, e ≠ .read addr bits) ∧ t.replies = s.replies))

/-! ### The encoding -/

/-- Decoding the word of a well-formed command gives the command back, every operand at every value (R81 to R85). -/
def Obligations.DecodeOfEncode : Prop := ∀ i : Instr, i.wellFormed = true → decode (encode i) = .ok i

/-- A word that decodes to a command is the word of that command and the command is well-formed, so no two words are the
same command (R83, R87). -/
def Obligations.EncodeOfDecode : Prop :=
  ∀ (w : Word) (i : Instr), decode w = .ok i → encode i = w ∧ i.wellFormed = true

/-- R86, R83: a word with an unassigned opcode, every word that is not the word of a well-formed command, and a command
whose value check fails (R85) raise `E_ILLEGAL` in every state; nothing but `ERRCODE` and `ERRSTICKY` changes. -/
def Obligations.IllegalWordsRaiseIllegal : Prop :=
  (∀ (w : Word) (s : State) (op : Nat), op = w.toNat / 2 ^ 24 →
    (0x04 ≤ op ∧ op ≤ 0x0F) ∨ (0x15 ≤ op ∧ op ≤ 0x1F) ∨ (0x27 ≤ op ∧ op ≤ 0x2F) ∨ op = 0x37 ∨ op = 0x3F ∨ 0x44 ≤ op →
    command w s = .next { s with ERRCODE := 1, ERRSTICKY := s.ERRSTICKY ||| 0x002 }) ∧
  (∀ (w : Word) (s : State), (∀ i : Instr, i.wellFormed = true → encode i ≠ w) →
    command w s = .next { s with ERRCODE := 1, ERRSTICKY := s.ERRSTICKY ||| 0x002 }) ∧
  (∀ (i : Instr) (s : State), i.wellFormed = false →
    exec i s = .next { s with ERRCODE := 1, ERRSTICKY := s.ERRSTICKY ||| 0x002 })

/-- R90: the encoding examples, legal and illegal. -/
def Obligations.EncodingExamples : Prop :=
  decode 0x10000000 = .ok .kInit ∧ decode 0x11000061 = .ok (.kAbsorb 0x61) ∧ decode 0x13000000 = .ok .kFinal ∧
  decode 0x23201100 = .ok (.fMul 2 0 1 true) ∧ decode 0x25100000 = .ok (.fInv 1 0 false) ∧
  decode 0x26040003 = .ok (.fBinv 4 false 3) ∧ decode 0x31210000 = .ok (.jAdd 2 1 0) ∧
  decode 0x35120000 = .ok (.jToa 1 2) ∧ decode 0x3B012000 = .ok (.aEq 1 2) ∧
  decode 0x3D100100 = .ok (.aDecomp 1 0 true) ∧ decode 0x41000108 = .ok (.sPrecomp 0 true 8) ∧
  decode 0x42100108 = .ok (.sMul 1 0 0 true 8) ∧ decode 0x43200000 = .ok (.sMulu 2 0 0) ∧
  decode 0x27000000 = .error .unassignedOpcode ∧ decode 0x30400000 = .error .nonZeroFixedBits ∧
  decode 0x10000001 = .error .nonZeroFixedBits ∧ decode 0x42100103 = .error .badValue ∧
  decode 0x260F0002 = .error .badValue ∧ decode 0x23201300 = .error .nonZeroFixedBits

/-! ### The register window -/

/-- R51: the register map. Every row sits at a multiple of 4 inside the window, no two rows share an offset, and an
offset is answered by the row that sits there and by no other. -/
def Obligations.RegisterMap : Prop :=
  (∀ r : Reg, r.offset % 4 = 0 ∧ r.offset < 4096) ∧
  (∀ r q : Reg, r.offset = q.offset → r = q) ∧
  (∀ (a : Nat) (r : Reg), a < 4096 → (locate a = some r ↔ r.offset = a))

/-- R60: a bad access changes no state except that it sets `ERRSTICKY` bit 8; a bad read returns 0, a bad write is
dropped. -/
def Obligations.BadAccessOnlySetsAccess : Prop :=
  (∀ (s : State) (addr : BitVec 12) (bits : Nat) (rest : List HostEvent), s.pending = .read addr bits :: rest →
    badRead addr bits → step s =
      .next { s with pending := rest, replies := s.replies ++ [0], ERRSTICKY := s.ERRSTICKY ||| 0x100 }) ∧
  (∀ (s : State) (addr : BitVec 12) (bits : Nat) (v : Word) (rest : List HostEvent),
    s.pending = .write addr bits v :: rest → badWrite addr bits →
      step s = .next { s with pending := rest, ERRSTICKY := s.ERRSTICKY ||| 0x100 })

/-- R53: a read of a readable row returns its current value and changes no state of the block. -/
def Obligations.ReadsHaveNoSideEffect : Prop :=
  ∀ (s : State) (addr : BitVec 12) (rest : List HostEvent) (r : Reg), s.pending = .read addr 32 :: rest →
    r.offset = addr.toNat → r ≠ .cmd →
      ∃ v, readReg s r = some v ∧ step s = .next { s with pending := rest, replies := s.replies ++ [v] }

/-- R54, R55, R56: a write to a writable row other than `CMD` replaces that register or that limb and changes nothing
else: every other row reads as before and the hidden state is the same. Of a word written to `AP[r].inf` only bit 0
counts (R51). -/
def Obligations.AWriteReplacesOneRow : Prop :=
  ∀ (s : State) (addr : BitVec 12) (v : Word) (rest : List HostEvent) (r : Reg),
    s.pending = .write addr 32 v :: rest → r.offset = addr.toNat → r.readOnly = false → r ≠ .cmd →
      ∃ t, step s = .next t ∧
        ((∀ q, r ≠ .apInf q) → readReg t r = some v) ∧ ((∃ q, r = .apInf q) → readReg t r = some (v &&& 1)) ∧
        (∀ q, q ≠ r → readReg t q = readReg s q) ∧
        t = { s with S := t.S, KDIN := t.KDIN, FR := t.FR, AP := t.AP, JP := t.JP, pending := rest }

/-- R89, R56: `WR256`. The eight writes of the limbs of a value to an `FR` register, limb 0 first, load the value and
change nothing else. -/
def Obligations.EightWritesLoadARegister : Prop :=
  ∀ (s : State) (r : FrNum) (v : Big) (rest : List HostEvent),
    s.pending = (List.ofFn fun i : Fin 8 =>
      HostEvent.write (BitVec.ofNat 12 (0x200 + 32 * r.val + 4 * i.val)) 32 (v.extractLsb' (32 * i.val) 32)) ++ rest →
    Host.Core.run core 8 s = .next { s with FR := s.FR.set r v, pending := rest }

/-- R30, R31, R32, R57, R58: what the read-only rows show. -/
def Obligations.ReadOnlyViews : Prop :=
  (∀ s : State, ∃ w, readReg s .status = some w ∧ w.getLsbD 0 = false ∧ (w.getLsbD 1 = true ↔ s.ERRCODE ≠ 0) ∧
    (w.extractLsb' 2 2 = 0 ↔ s.KPHASE = .idle) ∧ (w.extractLsb' 2 2 = 1 ↔ s.KPHASE = .absorb) ∧
    (w.extractLsb' 2 2 = 2 ↔ s.KPHASE = .done) ∧ w.getLsbD 4 = s.KRST ∧ w.getLsbD 5 = s.TBL.valid ∧
    w.extractLsb' 6 26 = 0) ∧
  (∀ s : State, ∃ w, readReg s .tblinfo = some w ∧
    (s.TBL.valid = true → w.getLsbD 31 = true ∧ w.getLsbD 8 = s.TBL.glv ∧ w.extractLsb' 0 8 = s.TBL.W ∧
      w.extractLsb' 9 22 = 0) ∧ (s.TBL.valid = false → w = 0)) ∧
  (∀ (s : State) (i : Fin 8), (s.TBL.valid = true → readReg s (.tblTagX i) = some (s.TBL.x.extractLsb' (32 * i.val) 32) ∧
      readReg s (.tblTagY i) = some (s.TBL.y.extractLsb' (32 * i.val) 32)) ∧
    (s.TBL.valid = false → readReg s (.tblTagX i) = some 0 ∧ readReg s (.tblTagY i) = some 0)) ∧
  (∀ (s : State) (c : Fin 10) (i : Fin 8), readReg s (.const c i) =
    some (BitVec.ofNat 32 ([P, n, Gx, Gy, beta, lambda, a1, negB1, a2, b2].getD c.val 0 / 2 ^ (32 * i.val)))) ∧
  (∀ s : State, ∃ w, readReg s .flags = some w ∧ w.getLsbD 0 = s.FLAGS.EQ ∧ w.getLsbD 1 = s.FLAGS.VALID ∧
    w.getLsbD 2 = s.FLAGS.ONCURVE ∧ w.getLsbD 3 = s.FLAGS.K1NEG ∧ w.getLsbD 4 = s.FLAGS.K2NEG ∧
    w.getLsbD 5 = s.FLAGS.INF ∧ w.getLsbD 6 = s.FLAGS.TBLHIT ∧ w.extractLsb' 7 25 = 0) ∧
  (∀ s : State, readReg s .errcode = some (s.ERRCODE.setWidth 32) ∧
    readReg s .errsticky = some (s.ERRSTICKY.setWidth 32) ∧ readReg s .kpos = some (BitVec.ofNat 32 s.KPOS.val))

/-! ### Whole-machine rules of commands -/

/-- R272, R273: a command either ends normally, with `ERRCODE` 0 and `ERRSTICKY` kept (but for `C_CLRERR`), or faults,
and then writes its code, sets the code's bit and changes nothing else. -/
def Obligations.ACommandEndsInOneOfTwoWays : Prop :=
  ∀ (w : Word) (s : State), ∃ t, command w s = .next t ∧
    ((t.ERRCODE = 0 ∧ (w ≠ 0x01000000 → t.ERRSTICKY = s.ERRSTICKY)) ∨
      (t.ERRCODE ≠ 0 ∧ t = { s with
        ERRCODE := t.ERRCODE, ERRSTICKY := s.ERRSTICKY ||| (1#9 <<< t.ERRCODE.toNat) }))

/-- A well-formed command raises only the faults its rule lists for it; the ones the rules call nominal, `E_SCALAR_RANGE`
and `E_NOT_INVERTIBLE` of `F_BINV` and of the SMU, are unreachable (R123, R151, R202, R235, R241). -/
def Obligations.CommandsRaiseOnlyTheirFaults : Prop :=
  ∀ (i : Instr) (s t : State), i.wellFormed = true → exec i s = .next t → t.ERRCODE ≠ 0 →
    ∃ c ∈ i.faults, t.ERRCODE = c.code

/-- A command changes no row of the window but its destinations and the error registers, and no hidden state: the block
buffer is the KSE commands', the table the ones that may change its rows, and the host's lists are never a command's. -/
def Obligations.CommandFrame : Prop :=
  ∀ (i : Instr) (s t : State), exec i s = .next t →
    (∀ r : Reg, i.mayChange r = false → r ≠ .status → r ≠ .errcode → r ≠ .errsticky → readReg t r = readReg s r) ∧
    (i.isKse = false → t.BLK = s.BLK) ∧ (i.mayChange .tblinfo = false → t.TBL = s.TBL) ∧
    t.pending = s.pending ∧ t.replies = s.replies

/-- R30: a flag is written only by the commands listed for it and only when the command ends without a fault; `C_WIPE`
clears all seven. -/
def Obligations.FlagsFrame : Prop :=
  ∀ (i : Instr) (s t : State), exec i s = .next t →
    t.FLAGS = i.flagsFrom s.FLAGS t.FLAGS ∧ (t.ERRCODE ≠ 0 → t.FLAGS = s.FLAGS) ∧
    (i = .cWipe → t.FLAGS = ⟨false, false, false, false, false, false, false⟩)

/-- R30: no command's behaviour depends on a flag. Started with other flags, a command does the same to everything else
and writes the same flags. -/
def Obligations.NoCommandReadsAFlag : Prop :=
  ∀ (i : Instr) (s t : State) (f : Flags), exec i s = .next t → ∃ g, exec i { s with FLAGS := f } =
    .next { t with FLAGS := g } ∧ (t.ERRCODE = 0 → g = i.flagsFrom f t.FLAGS) ∧ (t.ERRCODE ≠ 0 → g = f)

/-- R34, R39, R310: what a command leaves in the table depends on no `FR` register: two runs that differ only in `FR` and
both end normally leave the same table. -/
def Obligations.TheTableIsIndependentOfScalars : Prop :=
  ∀ (i : Instr) (s t t' : State) (fr : Vector Big 16), exec i s = .next t → exec i { s with FR := fr } = .next t' →
    t.ERRCODE = 0 → t'.ERRCODE = 0 → t.TBL = t'.TBL

/-- R34, R309: the table cache changes no result. Started with any other table that meets the invariant, a command does
the same to everything but the cache itself and `TBLHIT`. -/
def Obligations.TheTableIsNoCorrectnessHazard : Prop :=
  ∀ (i : Instr) (s t : State) (tbl : Table), s.Inv → State.Inv { s with TBL := tbl } → exec i s = .next t →
    ∃ tbl' hit, exec i { s with TBL := tbl } =
      .next { t with TBL := tbl', FLAGS := { t.FLAGS with TBLHIT := hit } }

/-- R38, R28, R29: what a command leaves in an operand register. An `FR` register keeps its value or is below the
command's modulus (`2^128` for `S_SPLIT`); an `AP` or `JP` register is a copy or has coordinates in `[0, P)`; a written
identity is `(0, 0, inf = 1)` or `(0, 1, 0)`. `C_WIPE` (R262) writes zeros. -/
def Obligations.ResultsAreCanonical : Prop :=
  ∀ (i : Instr) (s t : State), exec i s = .next t →
    (∀ k : FrNum, t.FR[k] = s.FR[k] ∨ t.FR[k].toNat < i.frBound) ∧
    (∀ k : PtNum, (∃ j : PtNum, t.AP[k] = s.AP[j]) ∨ (t.AP[k].x.toNat < P ∧ t.AP[k].y.toNat < P)) ∧
    (∀ k : PtNum, t.AP[k].inf = true → t.AP[k] = s.AP[k] ∨ t.AP[k] = ⟨0, 0, true⟩) ∧
    (∀ k : PtNum, (∃ j : PtNum, t.JP[k] = s.JP[j] ∨ t.JP[k] = ⟨s.AP[j].x, s.AP[j].y, 1⟩) ∨
      (t.JP[k].X.toNat < P ∧ t.JP[k].Y.toNat < P ∧ t.JP[k].Z.toNat < P)) ∧
    (∀ k : PtNum, t.JP[k].Z.toNat % P = 0 → t.JP[k] = s.JP[k] ∨ t.JP[k] = ⟨0, 1, 0⟩ ∨
      (i = .cWipe ∧ t.JP[k] = ⟨0, 0, 0⟩))

/-! ### System commands -/

/-- R260, R261, R262, R263: the four system commands; after `C_TBLINV` the table's rows read 0. -/
def Obligations.SystemCommands : Prop :=
  ∀ s : State,
    (encode .cNop = 0x00000000 ∧ exec .cNop s = .next { s with ERRCODE := 0 }) ∧
    (encode .cClrerr = 0x01000000 ∧ exec .cClrerr s = .next { s with ERRSTICKY := 0, ERRCODE := 0 }) ∧
    (encode .cWipe = 0x02000000 ∧ exec .cWipe s = .next { s with
      FR := Vector.replicate 16 0, AP := Vector.replicate 4 ⟨0, 0, false⟩, JP := Vector.replicate 4 ⟨0, 0, 0⟩,
      FLAGS := ⟨false, false, false, false, false, false, false⟩, KDIN := 0, ERRCODE := 0 }) ∧
    (encode .cTblinv = 0x03000000 ∧ ∃ t, exec .cTblinv s = .next t ∧
      t = { s with TBL := { s.TBL with valid := false }, ERRCODE := 0 } ∧ readReg t .tblinfo = some 0 ∧
      (∀ i, readReg t (.tblTagX i) = some 0 ∧ readReg t (.tblTagY i) = some 0) ∧
      ∃ w, readReg t .status = some w ∧ w.getLsbD 5 = false)

/-! ### The sponge -/

/-- R108: `K_INIT` starts a hash, in every phase; issued twice in a row, the second changes nothing. -/
def Obligations.KInitStartsAHash : Prop :=
  encode .kInit = 0x10000000 ∧
  ∀ s : State, ∃ t, exec .kInit s = .next t ∧ t = { s with
      S := Vector.replicate 50 0, BLK := Vector.replicate 34 0, KPOS := 0, KRST := true, KPHASE := .absorb,
      ERRCODE := 0 } ∧ exec .kInit t = .next t

/-- R110 with R109: `K_ABSORB`. In phase `ABSORB` the byte is ORed into the live block at the cursor; the 136th byte of a
block is followed, in the same command, by the XOR of the 34 words into `S[0..33]` and the permutation. In the other
phases it raises `E_SEQUENCE`. -/
def Obligations.KAbsorbTakesAByte : Prop :=
  (∀ imm : Byte, encode (.kAbsorb imm) = 0x11000000 ||| imm.setWidth 32) ∧
  (∀ (s : State) (imm : Byte), s.KPHASE ≠ .absorb →
    exec (.kAbsorb imm) s = .next { s with ERRCODE := 2, ERRSTICKY := s.ERRSTICKY ||| 0x004 }) ∧
  ∀ (s : State) (imm : Byte), s.KPHASE = .absorb → ∃ blk : Vector Word 34,
    (∀ j : Fin 136, wordByte blk[j.val / 4] (j.val % 4) =
      if j = s.KPOS then s.liveByte j ||| imm else s.liveByte j) ∧
    (∀ h : s.KPOS.val + 1 < 136, exec (.kAbsorb imm) s =
      .next { s with BLK := blk, KPOS := ⟨s.KPOS.val + 1, h⟩, KRST := false, ERRCODE := 0 }) ∧
    (s.KPOS.val + 1 = 136 → ∃ X : Vector Word 50,
      (∀ i : Fin 50, X[i] = if h : i.val < 34 then s.S[i] ^^^ blk[i.val] else s.S[i]) ∧
      exec (.kAbsorb imm) s =
        .next { s with S := f1600 X, BLK := blk, KPOS := 0, KRST := true, ERRCODE := 0 })

/-- R111: `K_ABSORBW` in phase `ABSORB` is four `K_ABSORB` commands with the bytes of `KDIN` from the least significant
to the most significant; `KDIN` is not changed. In the other phases it raises `E_SEQUENCE` and absorbs nothing. -/
def Obligations.KAbsorbwIsFourBytes : Prop :=
  encode .kAbsorbw = 0x12000000 ∧
  (∀ s : State, s.KPHASE ≠ .absorb →
    exec .kAbsorbw s = .next { s with ERRCODE := 2, ERRSTICKY := s.ERRSTICKY ||| 0x004 }) ∧
  ∀ s : State, s.KPHASE = .absorb → ∃ t, exec .kAbsorbw s = .next t ∧ t.KDIN = s.KDIN ∧ t.ERRCODE = 0 ∧
    execAll [.kAbsorb (s.KDIN.extractLsb' 0 8), .kAbsorb (s.KDIN.extractLsb' 8 8), .kAbsorb (s.KDIN.extractLsb' 16 8),
      .kAbsorb (s.KDIN.extractLsb' 24 8)] s = .next t

/-- R112: `K_FINAL` in phase `ABSORB`: byte `0x01` at the cursor, byte `0x80` at position 135, one permutation, phase
`DONE`. In the other phases it raises `E_SEQUENCE`. -/
def Obligations.KFinalPadsAndFinishes : Prop :=
  encode .kFinal = 0x13000000 ∧
  (∀ s : State, s.KPHASE ≠ .absorb →
    exec .kFinal s = .next { s with ERRCODE := 2, ERRSTICKY := s.ERRSTICKY ||| 0x004 }) ∧
  ∀ s : State, s.KPHASE = .absorb → ∃ (blk : Vector Word 34) (X : Vector Word 50),
    (∀ j : Fin 136, wordByte blk[j.val / 4] (j.val % 4) =
      s.liveByte j ||| (if j = s.KPOS then 0x01 else 0x00) ||| (if j.val = 135 then 0x80 else 0x00)) ∧
    (∀ i : Fin 50, X[i] = if h : i.val < 34 then s.S[i] ^^^ blk[i.val] else s.S[i]) ∧
    exec .kFinal s =
      .next { s with S := f1600 X, BLK := blk, KPOS := 0, KRST := true, KPHASE := .done, ERRCODE := 0 }

/-- R114: `K_PERM` permutes the state as it stands, in every phase, and changes nothing else. -/
def Obligations.KPermPermutes : Prop :=
  encode .kPerm = 0x14000000 ∧ ∀ s : State, exec .kPerm s = .next { s with S := f1600 s.S, ERRCODE := 0 }

/-- R115: the state machine as a table; no other command and no host access changes `KPHASE`. -/
def Obligations.PhaseTable : Prop :=
  (∀ s : State, ∃ t, exec .kInit s = .next t ∧ t.KPHASE = .absorb ∧ t.ERRCODE = 0) ∧
  (∀ (s : State) (imm : Byte), ∃ t, exec (.kAbsorb imm) s = .next t ∧ t.KPHASE = s.KPHASE ∧
    t.ERRCODE = if s.KPHASE = .absorb then 0 else 2) ∧
  (∀ s : State, ∃ t, exec .kAbsorbw s = .next t ∧ t.KPHASE = s.KPHASE ∧
    t.ERRCODE = if s.KPHASE = .absorb then 0 else 2) ∧
  (∀ s : State, ∃ t, exec .kFinal s = .next t ∧ (s.KPHASE = .idle → t.KPHASE = .idle ∧ t.ERRCODE = 2) ∧
    (s.KPHASE = .absorb → t.KPHASE = .done ∧ t.ERRCODE = 0) ∧ (s.KPHASE = .done → t.KPHASE = .done ∧ t.ERRCODE = 2)) ∧
  (∀ s : State, ∃ t, exec .kPerm s = .next t ∧ t.KPHASE = s.KPHASE ∧ t.ERRCODE = 0) ∧
  (∀ (i : Instr) (s t : State), i ≠ .kInit → i ≠ .kFinal → exec i s = .next t → t.KPHASE = s.KPHASE) ∧
  (∀ (s t : State) (e : HostEvent) (rest : List HostEvent), s.pending = e :: rest → step s = .next t →
    (e = .reset → t.KPHASE = .idle) ∧
    (e ≠ .reset → (∀ w, e ≠ .write 0x000 32 w) → t.KPHASE = s.KPHASE))

/-- R116: no command of another unit touches the sponge, so other commands between the absorbs do not change a digest. -/
def Obligations.OnlyKseCommandsTouchTheSponge : Prop :=
  ∀ (i : Instr) (s t : State), i.isKse = false → exec i s = .next t →
    t.S = s.S ∧ t.BLK = s.BLK ∧ t.KPOS = s.KPOS ∧ t.KRST = s.KRST ∧ t.KPHASE = s.KPHASE ∧
      (i ≠ .cWipe → t.KDIN = s.KDIN)

/-- R117, R113: from any state, `K_INIT`, one `K_ABSORB` for each byte of a message in order and `K_FINAL` leave the
Keccak-256 of the message in `S[0..7]`. -/
def Obligations.TheSpongeComputesKeccak256 : Prop :=
  ∀ (s : State) (msg : List Byte), ∃ t, execAll (.kInit :: msg.map .kAbsorb ++ [.kFinal]) s = .next t ∧
    digest t.S = keccak256 msg ∧ t.KPHASE = .done ∧ t.ERRCODE = 0 ∧ t.ERRSTICKY = s.ERRSTICKY

/-- R105 with R101 and R104: one round is θ, ρπ, χ and ι in this order, written at lane coordinates modulo 5. -/
def Obligations.ARoundIsFourSteps : Prop :=
  ∀ (A : Vector Lane 25) (rc : Lane), ∃ A1 B A3 : Vector Lane 25,
    (∀ x y : Fin 5, A1[x.val + 5 * y.val] = A[x.val + 5 * y.val] ^^^
      ((A[(x + 4).val] ^^^ A[(x + 4).val + 5] ^^^ A[(x + 4).val + 10] ^^^ A[(x + 4).val + 15] ^^^ A[(x + 4).val + 20]) ^^^
        (A[(x + 1).val] ^^^ A[(x + 1).val + 5] ^^^ A[(x + 1).val + 10] ^^^ A[(x + 1).val + 15] ^^^
          A[(x + 1).val + 20]).rotateLeft 1)) ∧
    (∀ x y : Fin 5, B[y.val + 5 * (2 * x + 3 * y).val] =
      (A1[x.val + 5 * y.val]).rotateLeft ([0, 1, 62, 28, 27, 36, 44, 6, 55, 20, 3, 10, 43, 25, 39, 41, 45, 15, 21, 8,
        18, 2, 61, 56, 14].getD (x.val + 5 * y.val) 0)) ∧
    (∀ x y : Fin 5, A3[x.val + 5 * y.val] = B[x.val + 5 * y.val] ^^^
      (~~~ B[(x + 1).val + 5 * y.val] &&& B[(x + 2).val + 5 * y.val])) ∧
    (∀ x y : Fin 5, (Machine.round A rc)[x.val + 5 * y.val] =
      if x.val = 0 ∧ y.val = 0 then A3[0] ^^^ rc else A3[x.val + 5 * y.val])

/-- R106 with R101, R102: the permutation is 24 rounds on the lanes of the 50 words, round `i` with `RC[i]`, the lanes
written back low half first. -/
def Obligations.ThePermutationIsTwentyFourRounds : Prop :=
  ∀ S : Vector Word 50, ∃ A : Nat → Vector Lane 25,
    (∀ L : Fin 25, (A 0)[L] = S[2 * L.val + 1] ++ S[2 * L.val]) ∧
    (∀ i : Fin 24, A (i.val + 1) = Machine.round (A i.val) (roundConstants.getD i.val 0)) ∧
    (∀ L : Fin 25, (f1600 S)[2 * L.val] = ((A 24)[L]).extractLsb' 0 32 ∧
      (f1600 S)[2 * L.val + 1] = ((A 24)[L]).extractLsb' 32 32)

/-! ### Field arithmetic -/

/-- R145, R146, R147, R148: reduction, addition, subtraction and multiplication modulo `P` or `n`, of the raw register
values and with nothing lost before the reduction. -/
def Obligations.ReduceAddSubtractMultiply : Prop :=
  ∀ (rd ra rb : FrNum) (m : Bool) (s : State),
    ((encode (.fRed rd ra m)).toNat = 0x20000000 + rd.val * 2 ^ 20 + ra.val * 2 ^ 16 + m.toNat * 2 ^ 8 ∧
      exec (.fRed rd ra m) s =
        .next { s with FR := s.FR.set rd (BitVec.ofNat 256 (s.FR[ra].toNat % modulus m)), ERRCODE := 0 }) ∧
    ((encode (.fAdd rd ra rb m)).toNat =
        0x21000000 + rd.val * 2 ^ 20 + ra.val * 2 ^ 16 + rb.val * 2 ^ 12 + m.toNat * 2 ^ 8 ∧
      exec (.fAdd rd ra rb m) s = .next { s with
        FR := s.FR.set rd (BitVec.ofNat 256 ((s.FR[ra].toNat + s.FR[rb].toNat) % modulus m)), ERRCODE := 0 }) ∧
    ((encode (.fSub rd ra rb m)).toNat =
        0x22000000 + rd.val * 2 ^ 20 + ra.val * 2 ^ 16 + rb.val * 2 ^ 12 + m.toNat * 2 ^ 8 ∧
      ∃ d : Nat, d < modulus m ∧ (d + s.FR[rb].toNat) % modulus m = s.FR[ra].toNat % modulus m ∧
        exec (.fSub rd ra rb m) s = .next { s with FR := s.FR.set rd (BitVec.ofNat 256 d), ERRCODE := 0 }) ∧
    ((encode (.fMul rd ra rb m)).toNat =
        0x23000000 + rd.val * 2 ^ 20 + ra.val * 2 ^ 16 + rb.val * 2 ^ 12 + m.toNat * 2 ^ 8 ∧
      exec (.fMul rd ra rb m) s = .next { s with
        FR := s.FR.set rd (BitVec.ofNat 256 (s.FR[ra].toNat * s.FR[rb].toNat % modulus m)), ERRCODE := 0 })

/-- R149, R142: `F_POW` writes the power with the whole raw exponent; exponent 0 gives 1 for every base. -/
def Obligations.PowerIsThePower : Prop :=
  ∀ (rd ra rb : FrNum) (m : Bool) (s : State),
    (encode (.fPow rd ra rb m)).toNat =
      0x24000000 + rd.val * 2 ^ 20 + ra.val * 2 ^ 16 + rb.val * 2 ^ 12 + m.toNat * 2 ^ 8 ∧
    exec (.fPow rd ra rb m) s = .next { s with
      FR := s.FR.set rd (BitVec.ofNat 256 (s.FR[ra].toNat ^ s.FR[rb].toNat % modulus m)), ERRCODE := 0 }

/-- R150, R143: `F_INV` writes the inverse in `[0, M)`, and faults with code 4 exactly when the residue is 0, keeping its
destination. -/
def Obligations.InverseOrNotInvertible : Prop :=
  ∀ (rd ra : FrNum) (m : Bool) (s : State),
    (encode (.fInv rd ra m)).toNat = 0x25000000 + rd.val * 2 ^ 20 + ra.val * 2 ^ 16 + m.toNat * 2 ^ 8 ∧
    (s.FR[ra].toNat % modulus m ≠ 0 → ∃ v : Nat, v < modulus m ∧ s.FR[ra].toNat * v % modulus m = 1 ∧
      exec (.fInv rd ra m) s = .next { s with FR := s.FR.set rd (BitVec.ofNat 256 v), ERRCODE := 0 }) ∧
    (s.FR[ra].toNat % modulus m = 0 →
      exec (.fInv rd ra m) s = .next { s with ERRCODE := 4, ERRSTICKY := s.ERRSTICKY ||| 0x010 })

/-- R151, R144: `F_BINV` replaces each register of its run by the inverse of its residue, a zero residue by 0, and no
other register; it does not fault. A bad count is illegal (R85). -/
def Obligations.BatchInverseIsElementwise : Prop :=
  ∀ (ra : FrNum) (m : Bool) (count : Byte) (s : State),
    (encode (.fBinv ra m count)).toNat = 0x26000000 + ra.val * 2 ^ 16 + m.toNat * 2 ^ 8 + count.toNat ∧
    (1 ≤ count.toNat ∧ ra.val + count.toNat ≤ 16 → ∃ fr : Vector Big 16,
      exec (.fBinv ra m count) s = .next { s with FR := fr, ERRCODE := 0 } ∧
      ∀ k : FrNum,
        (k.val < ra.val ∨ ra.val + count.toNat ≤ k.val → fr[k] = s.FR[k]) ∧
        (ra.val ≤ k.val ∧ k.val < ra.val + count.toNat →
          (s.FR[k].toNat % modulus m = 0 → fr[k] = 0) ∧
          (s.FR[k].toNat % modulus m ≠ 0 →
            fr[k].toNat < modulus m ∧ s.FR[k].toNat * fr[k].toNat % modulus m = 1))) ∧
    (¬ (1 ≤ count.toNat ∧ ra.val + count.toNat ≤ 16) → exec (.fBinv ra m count) s =
      .next { s with ERRCODE := 1, ERRSTICKY := s.ERRSTICKY ||| 0x002 })

/-! ### Points: single commands -/

/-- R180, R172: `J_DBL` in the closed form, on the raw coordinates; the identity and a value with `Y ≡ 0` give
`(0, 1, 0)`. -/
def Obligations.JacobianDouble : Prop :=
  ∀ (rd ra : PtNum) (s : State),
    (encode (.jDbl rd ra)).toNat = 0x30000000 + rd.val * 2 ^ 20 + ra.val * 2 ^ 16 ∧
    ∀ X Y Z : Int, X = s.JP[ra].X.toNat → Y = s.JP[ra].Y.toNat → Z = s.JP[ra].Z.toNat →
      (Z % P = 0 ∨ Y % P = 0 → exec (.jDbl rd ra) s =
        .next { s with JP := s.JP.set rd ⟨0, 1, 0⟩, FLAGS := { s.FLAGS with INF := true }, ERRCODE := 0 }) ∧
      (Z % P ≠ 0 ∧ Y % P ≠ 0 → ∃ X3 Y3 Z3 : Int,
        X3 = (9 * X ^ 4 - 8 * X * Y ^ 2) % P ∧ Y3 = (3 * X ^ 2 * (4 * X * Y ^ 2 - X3) - 8 * Y ^ 4) % P ∧
        Z3 = 2 * Y * Z % P ∧
        exec (.jDbl rd ra) s = .next { s with
          JP := s.JP.set rd ⟨BitVec.ofInt 256 X3, BitVec.ofInt 256 Y3, BitVec.ofInt 256 Z3⟩
          FLAGS := { s.FLAGS with INF := false }, ERRCODE := 0 })

/-- R181, R173: `J_ADD`, case by case. A short-circuit copies the other operand's triple as it is; equal operands go
through the doubling of the first one's triple, opposite ones give the identity. -/
def Obligations.JacobianAdd : Prop :=
  ∀ (rd ra rb : PtNum) (s : State),
    (encode (.jAdd rd ra rb)).toNat = 0x31000000 + rd.val * 2 ^ 20 + ra.val * 2 ^ 16 + rb.val * 2 ^ 12 ∧
    ∀ X1 Y1 Z1 X2 Y2 Z2 H r : Int,
      X1 = s.JP[ra].X.toNat → Y1 = s.JP[ra].Y.toNat → Z1 = s.JP[ra].Z.toNat →
      X2 = s.JP[rb].X.toNat → Y2 = s.JP[rb].Y.toNat → Z2 = s.JP[rb].Z.toNat →
      H = X2 * Z1 ^ 2 - X1 * Z2 ^ 2 → r = Y2 * Z1 ^ 3 - Y1 * Z2 ^ 3 →
      (Z1 % P = 0 ∧ Z2 % P = 0 → exec (.jAdd rd ra rb) s =
        .next { s with JP := s.JP.set rd ⟨0, 1, 0⟩, FLAGS := { s.FLAGS with INF := true }, ERRCODE := 0 }) ∧
      (Z1 % P ≠ 0 ∧ Z2 % P = 0 → exec (.jAdd rd ra rb) s =
        .next { s with JP := s.JP.set rd s.JP[ra], FLAGS := { s.FLAGS with INF := false }, ERRCODE := 0 }) ∧
      (Z1 % P = 0 ∧ Z2 % P ≠ 0 → exec (.jAdd rd ra rb) s =
        .next { s with JP := s.JP.set rd s.JP[rb], FLAGS := { s.FLAGS with INF := false }, ERRCODE := 0 }) ∧
      (Z1 % P ≠ 0 ∧ Z2 % P ≠ 0 ∧ H % P = 0 ∧ r % P = 0 → ∃ t,
        exec (.jDbl rd ra) s = .next t ∧ exec (.jAdd rd ra rb) s = .next t) ∧
      (Z1 % P ≠ 0 ∧ Z2 % P ≠ 0 ∧ H % P = 0 ∧ r % P ≠ 0 → exec (.jAdd rd ra rb) s =
        .next { s with JP := s.JP.set rd ⟨0, 1, 0⟩, FLAGS := { s.FLAGS with INF := true }, ERRCODE := 0 }) ∧
      (Z1 % P ≠ 0 ∧ Z2 % P ≠ 0 ∧ H % P ≠ 0 → ∃ X3 Y3 Z3 : Int,
        X3 = (r ^ 2 - H ^ 3 - 2 * (X1 * Z2 ^ 2) * H ^ 2) % P ∧
        Y3 = (r * (X1 * Z2 ^ 2 * H ^ 2 - X3) - Y1 * Z2 ^ 3 * H ^ 3) % P ∧ Z3 = Z1 * Z2 * H % P ∧
        exec (.jAdd rd ra rb) s = .next { s with
          JP := s.JP.set rd ⟨BitVec.ofInt 256 X3, BitVec.ofInt 256 Y3, BitVec.ofInt 256 Z3⟩
          FLAGS := { s.FLAGS with INF := false }, ERRCODE := 0 })

/-- R182, R200 with R174, R178: `J_NEG` and `J_ENDO`; the identity gives `(0, 1, 0)`; the multiplier `β` is a cube root of 1,
so that three applications return the point. -/
def Obligations.JacobianNegateAndEndomorphism : Prop :=
  beta ^ 3 % P = 1 ∧ ∀ (rd ra : PtNum) (s : State),
    (encode (.jNeg rd ra)).toNat = 0x32000000 + rd.val * 2 ^ 20 + ra.val * 2 ^ 16 ∧
    (encode (.jEndo rd ra)).toNat = 0x36000000 + rd.val * 2 ^ 20 + ra.val * 2 ^ 16 ∧
    ∀ X Y Z : Nat, X = s.JP[ra].X.toNat → Y = s.JP[ra].Y.toNat → Z = s.JP[ra].Z.toNat →
      (Z % P = 0 →
        exec (.jNeg rd ra) s =
          .next { s with JP := s.JP.set rd ⟨0, 1, 0⟩, FLAGS := { s.FLAGS with INF := true }, ERRCODE := 0 } ∧
        exec (.jEndo rd ra) s =
          .next { s with JP := s.JP.set rd ⟨0, 1, 0⟩, FLAGS := { s.FLAGS with INF := true }, ERRCODE := 0 }) ∧
      (Z % P ≠ 0 →
        exec (.jNeg rd ra) s = .next { s with
          JP := s.JP.set rd ⟨BitVec.ofNat 256 (X % P), BitVec.ofNat 256 ((P - Y % P) % P), BitVec.ofNat 256 (Z % P)⟩
          FLAGS := { s.FLAGS with INF := false }, ERRCODE := 0 } ∧
        exec (.jEndo rd ra) s = .next { s with
          JP := s.JP.set rd ⟨BitVec.ofNat 256 (beta * X % P), BitVec.ofNat 256 (Y % P), BitVec.ofNat 256 (Z % P)⟩
          FLAGS := { s.FLAGS with INF := false }, ERRCODE := 0 })

/-- R183, R175: `J_EQ` sets `EQ` exactly when the operands are both the identity, or both finite with equal cross
products, and that is when their affine forms are equal. -/
def Obligations.JacobianEqualityIsGroupEquality : Prop :=
  ∀ (ra rb : PtNum) (s : State),
    (encode (.jEq ra rb)).toNat = 0x33000000 + ra.val * 2 ^ 16 + rb.val * 2 ^ 12 ∧
    ∀ X1 Y1 Z1 X2 Y2 Z2 : Nat,
      X1 = s.JP[ra].X.toNat → Y1 = s.JP[ra].Y.toNat → Z1 = s.JP[ra].Z.toNat →
      X2 = s.JP[rb].X.toNat → Y2 = s.JP[rb].Y.toNat → Z2 = s.JP[rb].Z.toNat →
      ∃ b : Bool, exec (.jEq ra rb) s = .next { s with FLAGS := { s.FLAGS with EQ := b }, ERRCODE := 0 } ∧
        (b = true ↔ (Z1 % P = 0 ∧ Z2 % P = 0) ∨ (Z1 % P ≠ 0 ∧ Z2 % P ≠ 0 ∧
          X1 * Z2 ^ 2 % P = X2 * Z1 ^ 2 % P ∧ Y1 * Z2 ^ 3 % P = Y2 * Z1 ^ 3 % P)) ∧
        (b = true ↔ jtoa s.JP[ra] = jtoa s.JP[rb])

/-- R198, R199 with R176, R177: the conversions. `J_FROMA` copies the coordinates; `J_TOA` never faults, and its result is
the reduced pair with `x·Z² ≡ X` and `y·Z³ ≡ Y`. -/
def Obligations.Conversions : Prop :=
  ∀ (rd ra : PtNum) (s : State),
    (encode (.jFroma rd ra)).toNat = 0x34000000 + rd.val * 2 ^ 20 + ra.val * 2 ^ 16 ∧
    (encode (.jToa rd ra)).toNat = 0x35000000 + rd.val * 2 ^ 20 + ra.val * 2 ^ 16 ∧
    exec (.jFroma rd ra) s = .next { s with
      JP := s.JP.set rd (if s.AP[ra].inf then ⟨0, 1, 0⟩ else ⟨s.AP[ra].x, s.AP[ra].y, 1⟩)
      FLAGS := { s.FLAGS with INF := s.AP[ra].inf }, ERRCODE := 0 } ∧
    ∃ a : Affine, exec (.jToa rd ra) s =
        .next { s with AP := s.AP.set rd a, FLAGS := { s.FLAGS with INF := a.inf }, ERRCODE := 0 } ∧
      (s.JP[ra].Z.toNat % P = 0 → a = ⟨0, 0, true⟩) ∧
      (s.JP[ra].Z.toNat % P ≠ 0 → a.inf = false ∧ a.x.toNat < P ∧ a.y.toNat < P ∧
        a.x.toNat * s.JP[ra].Z.toNat ^ 2 % P = s.JP[ra].X.toNat % P ∧
        a.y.toNat * s.JP[ra].Z.toNat ^ 3 % P = s.JP[ra].Y.toNat % P)

/-- R187, R188 with R184, R185: `A_ADD` and `A_DBL`, case by case, the slope `sl` being the solution of its linear
equation; where the affine law has no answer the command faults. -/
def Obligations.AffineAddAndDouble : Prop :=
  ∀ (rd ra rb : PtNum) (s : State),
    (encode (.aAdd rd ra rb)).toNat = 0x38000000 + rd.val * 2 ^ 20 + ra.val * 2 ^ 16 + rb.val * 2 ^ 12 ∧
    (encode (.aDbl rd ra)).toNat = 0x39000000 + rd.val * 2 ^ 20 + ra.val * 2 ^ 16 ∧
    ∀ (a b : Affine) (x1 y1 x2 y2 : Int), a = s.AP[ra] → b = s.AP[rb] →
      x1 = a.x.toNat → y1 = a.y.toNat → x2 = b.x.toNat → y2 = b.y.toNat →
      (a.inf = true ∧ b.inf = true → exec (.aAdd rd ra rb) s =
        .next { s with AP := s.AP.set rd ⟨0, 0, true⟩, FLAGS := { s.FLAGS with INF := true }, ERRCODE := 0 }) ∧
      (a.inf = true ∧ b.inf = false → exec (.aAdd rd ra rb) s =
        .next { s with AP := s.AP.set rd b, FLAGS := { s.FLAGS with INF := false }, ERRCODE := 0 }) ∧
      (a.inf = false ∧ b.inf = true → exec (.aAdd rd ra rb) s =
        .next { s with AP := s.AP.set rd a, FLAGS := { s.FLAGS with INF := false }, ERRCODE := 0 }) ∧
      (a.inf = false ∧ b.inf = false ∧ x1 % P = x2 % P ∧ y1 % P = y2 % P → ∃ t,
        exec (.aDbl rd ra) s = .next t ∧ exec (.aAdd rd ra rb) s = .next t) ∧
      (a.inf = false ∧ b.inf = false ∧ x1 % P = x2 % P ∧ y1 % P ≠ y2 % P → exec (.aAdd rd ra rb) s =
        .next { s with ERRCODE := 6, ERRSTICKY := s.ERRSTICKY ||| 0x040 }) ∧
      (a.inf = false ∧ b.inf = false ∧ x1 % P ≠ x2 % P → ∃ sl x3 y3 : Int,
        0 ≤ sl ∧ sl < P ∧ sl * (x2 - x1) % P = (y2 - y1) % P ∧ x3 = (sl ^ 2 - x1 - x2) % P ∧
        y3 = (sl * (x1 - x3) - y1) % P ∧
        exec (.aAdd rd ra rb) s = .next { s with
          AP := s.AP.set rd ⟨BitVec.ofInt 256 x3, BitVec.ofInt 256 y3, false⟩
          FLAGS := { s.FLAGS with INF := false }, ERRCODE := 0 }) ∧
      (a.inf = true → exec (.aDbl rd ra) s =
        .next { s with AP := s.AP.set rd ⟨0, 0, true⟩, FLAGS := { s.FLAGS with INF := true }, ERRCODE := 0 }) ∧
      (a.inf = false ∧ y1 % P = 0 → exec (.aDbl rd ra) s =
        .next { s with ERRCODE := 4, ERRSTICKY := s.ERRSTICKY ||| 0x010 }) ∧
      (a.inf = false ∧ y1 % P ≠ 0 → ∃ sl x3 y3 : Int,
        0 ≤ sl ∧ sl < P ∧ sl * (2 * y1) % P = 3 * x1 ^ 2 % P ∧ x3 = (sl ^ 2 - 2 * x1) % P ∧
        y3 = (sl * (x1 - x3) - y1) % P ∧
        exec (.aDbl rd ra) s = .next { s with
          AP := s.AP.set rd ⟨BitVec.ofInt 256 x3, BitVec.ofInt 256 y3, false⟩
          FLAGS := { s.FLAGS with INF := false }, ERRCODE := 0 })

/-- R189, R190, R201 with R186: `A_NEG`, `A_EQ` and `A_LDG`. -/
def Obligations.AffineNegateCompareAndLoad : Prop :=
  ∀ (rd ra rb : PtNum) (s : State),
    ((encode (.aNeg rd ra)).toNat = 0x3A000000 + rd.val * 2 ^ 20 + ra.val * 2 ^ 16 ∧
      exec (.aNeg rd ra) s = .next { s with
        AP := s.AP.set rd (if s.AP[ra].inf then ⟨0, 0, true⟩ else
          ⟨BitVec.ofNat 256 (s.AP[ra].x.toNat % P), BitVec.ofNat 256 ((P - s.AP[ra].y.toNat % P) % P), false⟩)
        FLAGS := { s.FLAGS with INF := s.AP[ra].inf }, ERRCODE := 0 }) ∧
    ((encode (.aEq ra rb)).toNat = 0x3B000000 + ra.val * 2 ^ 16 + rb.val * 2 ^ 12 ∧
      ∃ b : Bool, exec (.aEq ra rb) s = .next { s with FLAGS := { s.FLAGS with EQ := b }, ERRCODE := 0 } ∧
        (b = true ↔ (s.AP[ra].inf = true ∧ s.AP[rb].inf = true) ∨ (s.AP[ra].inf = false ∧ s.AP[rb].inf = false ∧
          s.AP[ra].x.toNat % P = s.AP[rb].x.toNat % P ∧ s.AP[ra].y.toNat % P = s.AP[rb].y.toNat % P))) ∧
    ((encode (.aLdg rd)).toNat = 0x3E000000 + rd.val * 2 ^ 20 ∧
      exec (.aLdg rd) s = .next { s with
        AP := s.AP.set rd ⟨BitVec.ofNat 256 Gx, BitVec.ofNat 256 Gy, false⟩
        FLAGS := { s.FLAGS with INF := false }, ERRCODE := 0 })

/-- R194 with R191, R192, R193: `A_VALID` reports the dual-sign test and the canonical test, on the raw coordinates; it
does not fault. -/
def Obligations.AValidReportsBothTests : Prop :=
  ∀ (ra : PtNum) (s : State),
    (encode (.aValid ra)).toNat = 0x3C000000 + ra.val * 2 ^ 16 ∧
    ∀ x y : Nat, x = s.AP[ra].x.toNat → y = s.AP[ra].y.toNat → ∃ v c : Bool,
      exec (.aValid ra) s =
        .next { s with FLAGS := { s.FLAGS with VALID := v, ONCURVE := c }, ERRCODE := 0 } ∧
      (c = true ↔ s.AP[ra].inf = false ∧ (0 < x ∧ x < P) ∧ (0 < y ∧ y < P) ∧ y ^ 2 % P = (x ^ 3 + 7) % P) ∧
      (v = true ↔ s.AP[ra].inf = false ∧ (0 < x ∧ x < P) ∧ (0 < y ∧ y < P) ∧
        (y ^ 2 % P = (x ^ 3 + 7) % P ∨ (y ^ 2 + (x ^ 3 + 7)) % P = 0))

/-- R196, R195: `A_DECOMP` succeeds exactly when `0 < x < P` and `x³ + 7` is a square modulo `P`; it then writes the root
of the requested parity, and the point passes the canonical test. Otherwise it faults with code 5. -/
def Obligations.DecompressionFindsTheRoot : Prop :=
  ∀ (rd : PtNum) (ra : FrNum) (m : Bool) (s : State),
    (encode (.aDecomp rd ra m)).toNat = 0x3D000000 + rd.val * 2 ^ 20 + ra.val * 2 ^ 16 + m.toNat * 2 ^ 8 ∧
    ∀ x : Nat, x = s.FR[ra].toNat →
      ((0 < x ∧ x < P ∧ ∃ z : Nat, z ^ 2 % P = (x ^ 3 + 7) % P) → ∃ y : Nat,
        y < P ∧ y % 2 = m.toNat ∧ oncurve ⟨s.FR[ra], BitVec.ofNat 256 y, false⟩ = true ∧
        exec (.aDecomp rd ra m) s = .next { s with
          AP := s.AP.set rd ⟨s.FR[ra], BitVec.ofNat 256 y, false⟩
          FLAGS := { s.FLAGS with INF := false }, ERRCODE := 0 }) ∧
      (¬ (0 < x ∧ x < P ∧ ∃ z : Nat, z ^ 2 % P = (x ^ 3 + 7) % P) → exec (.aDecomp rd ra m) s =
        .next { s with ERRCODE := 5, ERRSTICKY := s.ERRSTICKY ||| 0x020 })

/-! ### Points: the group -/

/-- R170, R193: no on-curve point has a coordinate 0, and for every `x` in the field exactly one of the curve and its twist
has a point: the second branch of `dualvalid` is not dead code. -/
def Obligations.CurveOrTwist : Prop :=
  (∀ x : Int, curvef x ≠ 0) ∧ (∀ y : Int, modP (y * y) ≠ curvef 0) ∧
  ∀ x : Big, 0 < x.toNat → x.toNat < P →
    ((∃ y : Big, oncurve ⟨x, y, false⟩ = true) ↔
      ¬ ∃ y : Big, dualvalid ⟨x, y, false⟩ = true ∧ oncurve ⟨x, y, false⟩ = false)

/-- R179: on values that stand for elements of the group, the Jacobian functions are the group's operations, whatever
representative is given. -/
def Obligations.JacobianGroupLaw : Prop :=
  ∀ [Fact (Nat.Prime P)] (p q : Jacobian) (a : Affine) (A B : secp256k1.Point),
    p.stands A → q.stands B →
      (jdbl p).stands (A + A) ∧ (jadd p q).stands (A + B) ∧ (jneg p).stands (-A) ∧ (a.stands A → (jfroma a).stands A)

/-- R184, R185: on values that stand for elements of the group, the affine adder gives the group sum; where both operands
are finite and the sum is the identity it faults with `E_INVALID_ADDITION`, and it faults nowhere else. -/
def Obligations.AffineGroupLaw : Prop :=
  ∀ [Fact (Nat.Prime P)] (a b : Affine) (A B : secp256k1.Point), a.stands A → b.stands B →
    (A ≠ 0 ∧ B ≠ 0 ∧ A + B = 0 → aadd a b = .error .invalidAddition) ∧
    (¬ (A ≠ 0 ∧ B ≠ 0 ∧ A + B = 0) → ∃ c, aadd a b = .ok c ∧ c.stands (A + B)) ∧
    (∃ c, adbl a = .ok c ∧ c.stands (A + A)) ∧ (aneg a).stands (-A)

/-! ### Scalars -/

/-- R226, R224, R221: `S_SPLIT` writes the two magnitudes and the two signs; a scalar outside `(0, n)` is code 3, a
destination pair outside the file is illegal. -/
def Obligations.SplitWritesBothHalves : Prop :=
  ∀ (rd ra : FrNum) (s : State),
    (encode (.sSplit rd ra)).toNat = 0x40000000 + rd.val * 2 ^ 20 + ra.val * 2 ^ 16 ∧
    (15 ≤ rd.val → exec (.sSplit rd ra) s = .next { s with ERRCODE := 1, ERRSTICKY := s.ERRSTICKY ||| 0x002 }) ∧
    ∀ h : rd.val + 1 < 16,
      (¬ (0 < s.FR[ra].toNat ∧ s.FR[ra].toNat < n) →
        exec (.sSplit rd ra) s = .next { s with ERRCODE := 3, ERRSTICKY := s.ERRSTICKY ||| 0x008 }) ∧
      (0 < s.FR[ra].toNat ∧ s.FR[ra].toNat < n → ∀ k c1 c2 k1 k2 : Int, k = s.FR[ra].toNat →
        c1 = (b2 * k + (n / 2 : Nat)) / n → c2 = (negB1 * k + (n / 2 : Nat)) / n →
        k1 = k - c1 * a1 - c2 * a2 → k2 = c1 * negB1 - c2 * b2 →
        exec (.sSplit rd ra) s = .next { s with
          FR := (s.FR.set rd (BitVec.ofNat 256 k1.natAbs)).set (rd.val + 1) (BitVec.ofNat 256 k2.natAbs) h
          FLAGS := { s.FLAGS with K1NEG := decide (k1 < 0), K2NEG := decide (k2 < 0) }, ERRCODE := 0 })

/-- R224, R225: the split is a decomposition `k1 + k2·λ ≡ k (mod n)` with magnitudes below half-length bounds; a zero part
has sign bit 0 and not both parts are zero. -/
def Obligations.SplitIsShortAndCongruent : Prop :=
  ∀ k : Int, 0 < k → k < n → ∀ (m1 m2 : Nat) (s1 s2 : Bool), Machine.split k = (m1, m2, s1, s2) →
    m1 < 0xA2A8918CA85BAFE22016D0B917E4DD77 ∧ m2 < 0x8A65287BD47179FB2BE08846CEA267ED ∧
    ((if s1 then -(m1 : Int) else m1) + (if s2 then -(m2 : Int) else m2) * lambda) % n = k ∧
    (m1 = 0 → s1 = false) ∧ (m2 = 0 → s2 = false) ∧ ¬ (m1 = 0 ∧ m2 = 0)

/-- R233, R222: `S_PRECOMP` keeps the table on a hit and builds it on a miss, of the size of R232; a multiplicand off the
curve is code 5, a bad width illegal. -/
def Obligations.PrecomputeBuildsOrKeepsTheTable : Prop :=
  ∀ (ra : PtNum) (m : Bool) (w : Byte) (s : State),
    (encode (.sPrecomp ra m w)).toNat = 0x41000000 + ra.val * 2 ^ 16 + m.toNat * 2 ^ 8 + w.toNat ∧
    (w ∉ [1, 2, 4, 8] →
      exec (.sPrecomp ra m w) s = .next { s with ERRCODE := 1, ERRSTICKY := s.ERRSTICKY ||| 0x002 }) ∧
    (w ∈ [1, 2, 4, 8] → oncurve s.AP[ra] = false →
      exec (.sPrecomp ra m w) s = .next { s with ERRCODE := 5, ERRSTICKY := s.ERRSTICKY ||| 0x020 }) ∧
    (w ∈ [1, 2, 4, 8] → oncurve s.AP[ra] = true →
      (s.TBL.valid = true ∧ s.TBL.x = s.AP[ra].x ∧ s.TBL.y = s.AP[ra].y ∧ s.TBL.W = w ∧ s.TBL.glv = m →
        exec (.sPrecomp ra m w) s = .next { s with ERRCODE := 0 }) ∧
      (¬ (s.TBL.valid = true ∧ s.TBL.x = s.AP[ra].x ∧ s.TBL.y = s.AP[ra].y ∧ s.TBL.W = w ∧ s.TBL.glv = m) →
        ∃ T : List Affine, table s.AP[ra] w.toNat m = .ok T ∧
          T.length = ((if m then 128 else 256) / w.toNat + 1) * 2 ^ (w.toNat - 1) ∧
          exec (.sPrecomp ra m w) s =
            .next { s with TBL := ⟨true, s.AP[ra].x, s.AP[ra].y, w, m, T⟩, ERRCODE := 0 }))

/-- R237, R223: `S_MUL`. With a table cache that meets the invariant it writes `mulw(Q, k, W, glv)`, leaves the table of
its own tag in the cache and says in `TBLHIT` whether it was there; its checks come in the order width, scalar,
multiplicand. -/
def Obligations.WindowedMultiply : Prop :=
  ∀ (rd ra : PtNum) (rb : FrNum) (m : Bool) (w : Byte) (s : State),
    (encode (.sMul rd ra rb m w)).toNat =
      0x42000000 + rd.val * 2 ^ 20 + ra.val * 2 ^ 16 + rb.val * 2 ^ 12 + m.toNat * 2 ^ 8 + w.toNat ∧
    (w ∉ [1, 2, 4, 8] →
      exec (.sMul rd ra rb m w) s = .next { s with ERRCODE := 1, ERRSTICKY := s.ERRSTICKY ||| 0x002 }) ∧
    (w ∈ [1, 2, 4, 8] → ¬ (0 < s.FR[rb].toNat ∧ s.FR[rb].toNat < n) →
      exec (.sMul rd ra rb m w) s = .next { s with ERRCODE := 3, ERRSTICKY := s.ERRSTICKY ||| 0x008 }) ∧
    (w ∈ [1, 2, 4, 8] → 0 < s.FR[rb].toNat → s.FR[rb].toNat < n → oncurve s.AP[ra] = false →
      exec (.sMul rd ra rb m w) s = .next { s with ERRCODE := 5, ERRSTICKY := s.ERRSTICKY ||| 0x020 }) ∧
    (w ∈ [1, 2, 4, 8] → 0 < s.FR[rb].toNat → s.FR[rb].toNat < n → oncurve s.AP[ra] = true → s.Inv →
      ∃ (a : Affine) (T : List Affine) (hit : Bool), mulw s.AP[ra] s.FR[rb].toNat w.toNat m = .ok a ∧
        table s.AP[ra] w.toNat m = .ok T ∧
        (hit = true ↔ s.TBL.valid = true ∧ s.TBL.x = s.AP[ra].x ∧ s.TBL.y = s.AP[ra].y ∧ s.TBL.W = w ∧
          s.TBL.glv = m) ∧
        exec (.sMul rd ra rb m w) s = .next { s with
          AP := s.AP.set rd a, TBL := ⟨true, s.AP[ra].x, s.AP[ra].y, w, m, T⟩
          FLAGS := { s.FLAGS with INF := false, TBLHIT := hit }, ERRCODE := 0 })

/-- R239, R223: `S_MULU` writes `mulu(Q, k)` and neither reads nor writes the table; its checks come in the order scalar,
multiplicand. -/
def Obligations.PlainMultiply : Prop :=
  ∀ (rd ra : PtNum) (rb : FrNum) (s : State),
    (encode (.sMulu rd ra rb)).toNat = 0x43000000 + rd.val * 2 ^ 20 + ra.val * 2 ^ 16 + rb.val * 2 ^ 12 ∧
    (¬ (0 < s.FR[rb].toNat ∧ s.FR[rb].toNat < n) →
      exec (.sMulu rd ra rb) s = .next { s with ERRCODE := 3, ERRSTICKY := s.ERRSTICKY ||| 0x008 }) ∧
    (0 < s.FR[rb].toNat → s.FR[rb].toNat < n → oncurve s.AP[ra] = false →
      exec (.sMulu rd ra rb) s = .next { s with ERRCODE := 5, ERRSTICKY := s.ERRSTICKY ||| 0x020 }) ∧
    (0 < s.FR[rb].toNat → s.FR[rb].toNat < n → oncurve s.AP[ra] = true →
      ∃ a : Affine, mulu s.AP[ra] s.FR[rb].toNat = .ok a ∧ exec (.sMulu rd ra rb) s =
        .next { s with AP := s.AP.set rd a, FLAGS := { s.FLAGS with INF := false }, ERRCODE := 0 })

/-- R235: the digits lie in `−(h−1) .. h`, satisfy `Σ d_w·2^(Ww) = v`, and nothing is left over: `wnaf` accumulates exactly
the multiples they select, and `E_SCALAR_RANGE` is unreachable for `v < 2^B`. -/
def Obligations.WnafDigitsAreARecoding : Prop :=
  ∀ (T : List Affine) (W v : Nat) (glv : Bool), W ∈ [1, 2, 4, 8] → v < 2 ^ (if glv then 128 else 256) →
    digitSum W (wnafDigits W (nwin W glv) v) = v ∧
    (∀ d ∈ wnafDigits W (nwin W glv) v, -((2 : Int) ^ (W - 1)) < d ∧ d ≤ 2 ^ (W - 1)) ∧
    wnaf T v W glv = .ok (accumulate T W 0 (wnafDigits W (nwin W glv) v) J0)

/-- R230: the table of an on-curve point holds the affine points `T[w·h + j − 1] = (j·2^(Ww))·Q`, as the plain multiplier
computes them. -/
def Obligations.TheTableHoldsTheMultiples : Prop :=
  ∀ (Q : Affine) (W : Nat) (glv : Bool), oncurve Q = true → W ∈ [1, 2, 4, 8] → ∃ T : List Affine,
    table Q W glv = .ok T ∧ T.length = nwin W glv * 2 ^ (W - 1) ∧
    ∀ w j : Nat, w < nwin W glv → 1 ≤ j → j ≤ 2 ^ (W - 1) →
      mulu Q ((j * 2 ^ (W * w) : Nat) : Int) = .ok (T.getD (w * 2 ^ (W - 1) + j - 1) A0) ∧
        (T.getD (w * 2 ^ (W - 1) + j - 1) A0).inf = false

/-- R238, R240: the plain multiplier computes the multiple in the group, for every scalar. -/
def Obligations.PlainMultiplierIsTheGroupMultiple : Prop :=
  ∀ [Fact (Nat.Prime P)] (Q : Affine) (A : secp256k1.Point) (k : Nat), Q.stands A →
    ∃ a, mulu Q k = .ok a ∧ a.stands (k • A)

/-- R178, R7: on every on-curve point the endomorphism `(x, y) ↦ (β·x, y)` is multiplication by `λ`. -/
def Obligations.TheEndomorphismIsMultiplicationByLambda : Prop :=
  ∀ Q : Affine, oncurve Q = true → ∃ a, jtoa (jendo (jfroma Q)) = .ok a ∧ mulu Q lambda = .ok a

/-- R240, R237: for every on-curve point, every scalar in `(0, n)`, every window width and both values of glv, the windowed
and the plain multiplier give the same register contents, an on-curve point, never the identity. -/
def Obligations.TheMultipliersAgree : Prop :=
  ∀ (Q : Affine) (k : Int) (W : Nat) (glv : Bool), oncurve Q = true → 0 < k → k < n → W ∈ [1, 2, 4, 8] →
    ∃ a, mulw Q k W glv = .ok a ∧ mulu Q k = .ok a ∧ a.inf = false ∧ oncurve a = true

end Statements
end

