-- ==== Sys2Proof/Laws/State.lean ====
section
/-! SUPPORT. One lemma per field for each update of the state, so that no later proof unfolds a record update. -/

namespace Sys2Proof.Machine

@[simp] theorem setFr_S (s : State) (r : FrNum) (v : Int) : (s.setFr r v).S = s.S := rfl
@[simp] theorem setFr_BLK (s : State) (r : FrNum) (v : Int) : (s.setFr r v).BLK = s.BLK := rfl
@[simp] theorem setFr_KPOS (s : State) (r : FrNum) (v : Int) : (s.setFr r v).KPOS = s.KPOS := rfl
@[simp] theorem setFr_KRST (s : State) (r : FrNum) (v : Int) : (s.setFr r v).KRST = s.KRST := rfl
@[simp] theorem setFr_KPHASE (s : State) (r : FrNum) (v : Int) : (s.setFr r v).KPHASE = s.KPHASE := rfl
@[simp] theorem setFr_KDIN (s : State) (r : FrNum) (v : Int) : (s.setFr r v).KDIN = s.KDIN := rfl
@[simp] theorem setFr_FR (s : State) (r : FrNum) (v : Int) : (s.setFr r v).FR = s.FR.set r (toBig v) := rfl
@[simp] theorem setFr_AP (s : State) (r : FrNum) (v : Int) : (s.setFr r v).AP = s.AP := rfl
@[simp] theorem setFr_JP (s : State) (r : FrNum) (v : Int) : (s.setFr r v).JP = s.JP := rfl
@[simp] theorem setFr_FLAGS (s : State) (r : FrNum) (v : Int) : (s.setFr r v).FLAGS = s.FLAGS := rfl
@[simp] theorem setFr_ERRCODE (s : State) (r : FrNum) (v : Int) : (s.setFr r v).ERRCODE = s.ERRCODE := rfl
@[simp] theorem setFr_ERRSTICKY (s : State) (r : FrNum) (v : Int) : (s.setFr r v).ERRSTICKY = s.ERRSTICKY := rfl
@[simp] theorem setFr_TBL (s : State) (r : FrNum) (v : Int) : (s.setFr r v).TBL = s.TBL := rfl
@[simp] theorem setFr_pending (s : State) (r : FrNum) (v : Int) : (s.setFr r v).pending = s.pending := rfl
@[simp] theorem setFr_replies (s : State) (r : FrNum) (v : Int) : (s.setFr r v).replies = s.replies := rfl

@[simp] theorem setAp_S (s : State) (r : PtNum) (a : Affine) : (s.setAp r a).S = s.S := rfl
@[simp] theorem setAp_BLK (s : State) (r : PtNum) (a : Affine) : (s.setAp r a).BLK = s.BLK := rfl
@[simp] theorem setAp_KPOS (s : State) (r : PtNum) (a : Affine) : (s.setAp r a).KPOS = s.KPOS := rfl
@[simp] theorem setAp_KRST (s : State) (r : PtNum) (a : Affine) : (s.setAp r a).KRST = s.KRST := rfl
@[simp] theorem setAp_KPHASE (s : State) (r : PtNum) (a : Affine) : (s.setAp r a).KPHASE = s.KPHASE := rfl
@[simp] theorem setAp_KDIN (s : State) (r : PtNum) (a : Affine) : (s.setAp r a).KDIN = s.KDIN := rfl
@[simp] theorem setAp_FR (s : State) (r : PtNum) (a : Affine) : (s.setAp r a).FR = s.FR := rfl
@[simp] theorem setAp_AP (s : State) (r : PtNum) (a : Affine) : (s.setAp r a).AP = s.AP.set r a := rfl
@[simp] theorem setAp_JP (s : State) (r : PtNum) (a : Affine) : (s.setAp r a).JP = s.JP := rfl
@[simp] theorem setAp_FLAGS (s : State) (r : PtNum) (a : Affine) : (s.setAp r a).FLAGS = s.FLAGS := rfl
@[simp] theorem setAp_ERRCODE (s : State) (r : PtNum) (a : Affine) : (s.setAp r a).ERRCODE = s.ERRCODE := rfl
@[simp] theorem setAp_ERRSTICKY (s : State) (r : PtNum) (a : Affine) : (s.setAp r a).ERRSTICKY = s.ERRSTICKY := rfl
@[simp] theorem setAp_TBL (s : State) (r : PtNum) (a : Affine) : (s.setAp r a).TBL = s.TBL := rfl
@[simp] theorem setAp_pending (s : State) (r : PtNum) (a : Affine) : (s.setAp r a).pending = s.pending := rfl
@[simp] theorem setAp_replies (s : State) (r : PtNum) (a : Affine) : (s.setAp r a).replies = s.replies := rfl

@[simp] theorem setJp_S (s : State) (r : PtNum) (p : Jacobian) : (s.setJp r p).S = s.S := rfl
@[simp] theorem setJp_BLK (s : State) (r : PtNum) (p : Jacobian) : (s.setJp r p).BLK = s.BLK := rfl
@[simp] theorem setJp_KPOS (s : State) (r : PtNum) (p : Jacobian) : (s.setJp r p).KPOS = s.KPOS := rfl
@[simp] theorem setJp_KRST (s : State) (r : PtNum) (p : Jacobian) : (s.setJp r p).KRST = s.KRST := rfl
@[simp] theorem setJp_KPHASE (s : State) (r : PtNum) (p : Jacobian) : (s.setJp r p).KPHASE = s.KPHASE := rfl
@[simp] theorem setJp_KDIN (s : State) (r : PtNum) (p : Jacobian) : (s.setJp r p).KDIN = s.KDIN := rfl
@[simp] theorem setJp_FR (s : State) (r : PtNum) (p : Jacobian) : (s.setJp r p).FR = s.FR := rfl
@[simp] theorem setJp_AP (s : State) (r : PtNum) (p : Jacobian) : (s.setJp r p).AP = s.AP := rfl
@[simp] theorem setJp_JP (s : State) (r : PtNum) (p : Jacobian) : (s.setJp r p).JP = s.JP.set r p := rfl
@[simp] theorem setJp_FLAGS (s : State) (r : PtNum) (p : Jacobian) : (s.setJp r p).FLAGS = s.FLAGS := rfl
@[simp] theorem setJp_ERRCODE (s : State) (r : PtNum) (p : Jacobian) : (s.setJp r p).ERRCODE = s.ERRCODE := rfl
@[simp] theorem setJp_ERRSTICKY (s : State) (r : PtNum) (p : Jacobian) : (s.setJp r p).ERRSTICKY = s.ERRSTICKY := rfl
@[simp] theorem setJp_TBL (s : State) (r : PtNum) (p : Jacobian) : (s.setJp r p).TBL = s.TBL := rfl
@[simp] theorem setJp_pending (s : State) (r : PtNum) (p : Jacobian) : (s.setJp r p).pending = s.pending := rfl
@[simp] theorem setJp_replies (s : State) (r : PtNum) (p : Jacobian) : (s.setJp r p).replies = s.replies := rfl

@[simp] theorem setInf_S (s : State) (b : Bool) : (s.setInf b).S = s.S := rfl
@[simp] theorem setInf_BLK (s : State) (b : Bool) : (s.setInf b).BLK = s.BLK := rfl
@[simp] theorem setInf_KPOS (s : State) (b : Bool) : (s.setInf b).KPOS = s.KPOS := rfl
@[simp] theorem setInf_KRST (s : State) (b : Bool) : (s.setInf b).KRST = s.KRST := rfl
@[simp] theorem setInf_KPHASE (s : State) (b : Bool) : (s.setInf b).KPHASE = s.KPHASE := rfl
@[simp] theorem setInf_KDIN (s : State) (b : Bool) : (s.setInf b).KDIN = s.KDIN := rfl
@[simp] theorem setInf_FR (s : State) (b : Bool) : (s.setInf b).FR = s.FR := rfl
@[simp] theorem setInf_AP (s : State) (b : Bool) : (s.setInf b).AP = s.AP := rfl
@[simp] theorem setInf_JP (s : State) (b : Bool) : (s.setInf b).JP = s.JP := rfl
@[simp] theorem setInf_FLAGS (s : State) (b : Bool) : (s.setInf b).FLAGS = { s.FLAGS with INF := b } := rfl
@[simp] theorem setInf_ERRCODE (s : State) (b : Bool) : (s.setInf b).ERRCODE = s.ERRCODE := rfl
@[simp] theorem setInf_ERRSTICKY (s : State) (b : Bool) : (s.setInf b).ERRSTICKY = s.ERRSTICKY := rfl
@[simp] theorem setInf_TBL (s : State) (b : Bool) : (s.setInf b).TBL = s.TBL := rfl
@[simp] theorem setInf_pending (s : State) (b : Bool) : (s.setInf b).pending = s.pending := rfl
@[simp] theorem setInf_replies (s : State) (b : Bool) : (s.setInf b).replies = s.replies := rfl

@[simp] theorem setEq_S (s : State) (b : Bool) : (s.setEq b).S = s.S := rfl
@[simp] theorem setEq_BLK (s : State) (b : Bool) : (s.setEq b).BLK = s.BLK := rfl
@[simp] theorem setEq_KPOS (s : State) (b : Bool) : (s.setEq b).KPOS = s.KPOS := rfl
@[simp] theorem setEq_KRST (s : State) (b : Bool) : (s.setEq b).KRST = s.KRST := rfl
@[simp] theorem setEq_KPHASE (s : State) (b : Bool) : (s.setEq b).KPHASE = s.KPHASE := rfl
@[simp] theorem setEq_KDIN (s : State) (b : Bool) : (s.setEq b).KDIN = s.KDIN := rfl
@[simp] theorem setEq_FR (s : State) (b : Bool) : (s.setEq b).FR = s.FR := rfl
@[simp] theorem setEq_AP (s : State) (b : Bool) : (s.setEq b).AP = s.AP := rfl
@[simp] theorem setEq_JP (s : State) (b : Bool) : (s.setEq b).JP = s.JP := rfl
@[simp] theorem setEq_FLAGS (s : State) (b : Bool) : (s.setEq b).FLAGS = { s.FLAGS with EQ := b } := rfl
@[simp] theorem setEq_ERRCODE (s : State) (b : Bool) : (s.setEq b).ERRCODE = s.ERRCODE := rfl
@[simp] theorem setEq_ERRSTICKY (s : State) (b : Bool) : (s.setEq b).ERRSTICKY = s.ERRSTICKY := rfl
@[simp] theorem setEq_TBL (s : State) (b : Bool) : (s.setEq b).TBL = s.TBL := rfl
@[simp] theorem setEq_pending (s : State) (b : Bool) : (s.setEq b).pending = s.pending := rfl
@[simp] theorem setEq_replies (s : State) (b : Bool) : (s.setEq b).replies = s.replies := rfl

@[simp] theorem setCurveTests_S (s : State) (v c : Bool) : (s.setCurveTests v c).S = s.S := rfl
@[simp] theorem setCurveTests_BLK (s : State) (v c : Bool) : (s.setCurveTests v c).BLK = s.BLK := rfl
@[simp] theorem setCurveTests_KPOS (s : State) (v c : Bool) : (s.setCurveTests v c).KPOS = s.KPOS := rfl
@[simp] theorem setCurveTests_KRST (s : State) (v c : Bool) : (s.setCurveTests v c).KRST = s.KRST := rfl
@[simp] theorem setCurveTests_KPHASE (s : State) (v c : Bool) : (s.setCurveTests v c).KPHASE = s.KPHASE := rfl
@[simp] theorem setCurveTests_KDIN (s : State) (v c : Bool) : (s.setCurveTests v c).KDIN = s.KDIN := rfl
@[simp] theorem setCurveTests_FR (s : State) (v c : Bool) : (s.setCurveTests v c).FR = s.FR := rfl
@[simp] theorem setCurveTests_AP (s : State) (v c : Bool) : (s.setCurveTests v c).AP = s.AP := rfl
@[simp] theorem setCurveTests_JP (s : State) (v c : Bool) : (s.setCurveTests v c).JP = s.JP := rfl
@[simp] theorem setCurveTests_FLAGS (s : State) (v c : Bool) : (s.setCurveTests v c).FLAGS = { s.FLAGS with VALID := v, ONCURVE := c } := rfl
@[simp] theorem setCurveTests_ERRCODE (s : State) (v c : Bool) : (s.setCurveTests v c).ERRCODE = s.ERRCODE := rfl
@[simp] theorem setCurveTests_ERRSTICKY (s : State) (v c : Bool) : (s.setCurveTests v c).ERRSTICKY = s.ERRSTICKY := rfl
@[simp] theorem setCurveTests_TBL (s : State) (v c : Bool) : (s.setCurveTests v c).TBL = s.TBL := rfl
@[simp] theorem setCurveTests_pending (s : State) (v c : Bool) : (s.setCurveTests v c).pending = s.pending := rfl
@[simp] theorem setCurveTests_replies (s : State) (v c : Bool) : (s.setCurveTests v c).replies = s.replies := rfl

@[simp] theorem setHalfSigns_S (s : State) (b c : Bool) : (s.setHalfSigns b c).S = s.S := rfl
@[simp] theorem setHalfSigns_BLK (s : State) (b c : Bool) : (s.setHalfSigns b c).BLK = s.BLK := rfl
@[simp] theorem setHalfSigns_KPOS (s : State) (b c : Bool) : (s.setHalfSigns b c).KPOS = s.KPOS := rfl
@[simp] theorem setHalfSigns_KRST (s : State) (b c : Bool) : (s.setHalfSigns b c).KRST = s.KRST := rfl
@[simp] theorem setHalfSigns_KPHASE (s : State) (b c : Bool) : (s.setHalfSigns b c).KPHASE = s.KPHASE := rfl
@[simp] theorem setHalfSigns_KDIN (s : State) (b c : Bool) : (s.setHalfSigns b c).KDIN = s.KDIN := rfl
@[simp] theorem setHalfSigns_FR (s : State) (b c : Bool) : (s.setHalfSigns b c).FR = s.FR := rfl
@[simp] theorem setHalfSigns_AP (s : State) (b c : Bool) : (s.setHalfSigns b c).AP = s.AP := rfl
@[simp] theorem setHalfSigns_JP (s : State) (b c : Bool) : (s.setHalfSigns b c).JP = s.JP := rfl
@[simp] theorem setHalfSigns_FLAGS (s : State) (b c : Bool) : (s.setHalfSigns b c).FLAGS = { s.FLAGS with K1NEG := b, K2NEG := c } := rfl
@[simp] theorem setHalfSigns_ERRCODE (s : State) (b c : Bool) : (s.setHalfSigns b c).ERRCODE = s.ERRCODE := rfl
@[simp] theorem setHalfSigns_ERRSTICKY (s : State) (b c : Bool) : (s.setHalfSigns b c).ERRSTICKY = s.ERRSTICKY := rfl
@[simp] theorem setHalfSigns_TBL (s : State) (b c : Bool) : (s.setHalfSigns b c).TBL = s.TBL := rfl
@[simp] theorem setHalfSigns_pending (s : State) (b c : Bool) : (s.setHalfSigns b c).pending = s.pending := rfl
@[simp] theorem setHalfSigns_replies (s : State) (b c : Bool) : (s.setHalfSigns b c).replies = s.replies := rfl

@[simp] theorem setTblHit_S (s : State) (b : Bool) : (s.setTblHit b).S = s.S := rfl
@[simp] theorem setTblHit_BLK (s : State) (b : Bool) : (s.setTblHit b).BLK = s.BLK := rfl
@[simp] theorem setTblHit_KPOS (s : State) (b : Bool) : (s.setTblHit b).KPOS = s.KPOS := rfl
@[simp] theorem setTblHit_KRST (s : State) (b : Bool) : (s.setTblHit b).KRST = s.KRST := rfl
@[simp] theorem setTblHit_KPHASE (s : State) (b : Bool) : (s.setTblHit b).KPHASE = s.KPHASE := rfl
@[simp] theorem setTblHit_KDIN (s : State) (b : Bool) : (s.setTblHit b).KDIN = s.KDIN := rfl
@[simp] theorem setTblHit_FR (s : State) (b : Bool) : (s.setTblHit b).FR = s.FR := rfl
@[simp] theorem setTblHit_AP (s : State) (b : Bool) : (s.setTblHit b).AP = s.AP := rfl
@[simp] theorem setTblHit_JP (s : State) (b : Bool) : (s.setTblHit b).JP = s.JP := rfl
@[simp] theorem setTblHit_FLAGS (s : State) (b : Bool) : (s.setTblHit b).FLAGS = { s.FLAGS with TBLHIT := b } := rfl
@[simp] theorem setTblHit_ERRCODE (s : State) (b : Bool) : (s.setTblHit b).ERRCODE = s.ERRCODE := rfl
@[simp] theorem setTblHit_ERRSTICKY (s : State) (b : Bool) : (s.setTblHit b).ERRSTICKY = s.ERRSTICKY := rfl
@[simp] theorem setTblHit_TBL (s : State) (b : Bool) : (s.setTblHit b).TBL = s.TBL := rfl
@[simp] theorem setTblHit_pending (s : State) (b : Bool) : (s.setTblHit b).pending = s.pending := rfl
@[simp] theorem setTblHit_replies (s : State) (b : Bool) : (s.setTblHit b).replies = s.replies := rfl

@[simp] theorem putAp_S (s : State) (r : PtNum) (a : Affine) : (s.putAp r a).S = s.S := rfl
@[simp] theorem putAp_BLK (s : State) (r : PtNum) (a : Affine) : (s.putAp r a).BLK = s.BLK := rfl
@[simp] theorem putAp_KPOS (s : State) (r : PtNum) (a : Affine) : (s.putAp r a).KPOS = s.KPOS := rfl
@[simp] theorem putAp_KRST (s : State) (r : PtNum) (a : Affine) : (s.putAp r a).KRST = s.KRST := rfl
@[simp] theorem putAp_KPHASE (s : State) (r : PtNum) (a : Affine) : (s.putAp r a).KPHASE = s.KPHASE := rfl
@[simp] theorem putAp_KDIN (s : State) (r : PtNum) (a : Affine) : (s.putAp r a).KDIN = s.KDIN := rfl
@[simp] theorem putAp_FR (s : State) (r : PtNum) (a : Affine) : (s.putAp r a).FR = s.FR := rfl
@[simp] theorem putAp_AP (s : State) (r : PtNum) (a : Affine) : (s.putAp r a).AP = s.AP.set r a := rfl
@[simp] theorem putAp_JP (s : State) (r : PtNum) (a : Affine) : (s.putAp r a).JP = s.JP := rfl
@[simp] theorem putAp_FLAGS (s : State) (r : PtNum) (a : Affine) : (s.putAp r a).FLAGS = { s.FLAGS with INF := a.inf } := rfl
@[simp] theorem putAp_ERRCODE (s : State) (r : PtNum) (a : Affine) : (s.putAp r a).ERRCODE = s.ERRCODE := rfl
@[simp] theorem putAp_ERRSTICKY (s : State) (r : PtNum) (a : Affine) : (s.putAp r a).ERRSTICKY = s.ERRSTICKY := rfl
@[simp] theorem putAp_TBL (s : State) (r : PtNum) (a : Affine) : (s.putAp r a).TBL = s.TBL := rfl
@[simp] theorem putAp_pending (s : State) (r : PtNum) (a : Affine) : (s.putAp r a).pending = s.pending := rfl
@[simp] theorem putAp_replies (s : State) (r : PtNum) (a : Affine) : (s.putAp r a).replies = s.replies := rfl

@[simp] theorem putJp_S (s : State) (r : PtNum) (p : Jacobian) : (s.putJp r p).S = s.S := rfl
@[simp] theorem putJp_BLK (s : State) (r : PtNum) (p : Jacobian) : (s.putJp r p).BLK = s.BLK := rfl
@[simp] theorem putJp_KPOS (s : State) (r : PtNum) (p : Jacobian) : (s.putJp r p).KPOS = s.KPOS := rfl
@[simp] theorem putJp_KRST (s : State) (r : PtNum) (p : Jacobian) : (s.putJp r p).KRST = s.KRST := rfl
@[simp] theorem putJp_KPHASE (s : State) (r : PtNum) (p : Jacobian) : (s.putJp r p).KPHASE = s.KPHASE := rfl
@[simp] theorem putJp_KDIN (s : State) (r : PtNum) (p : Jacobian) : (s.putJp r p).KDIN = s.KDIN := rfl
@[simp] theorem putJp_FR (s : State) (r : PtNum) (p : Jacobian) : (s.putJp r p).FR = s.FR := rfl
@[simp] theorem putJp_AP (s : State) (r : PtNum) (p : Jacobian) : (s.putJp r p).AP = s.AP := rfl
@[simp] theorem putJp_JP (s : State) (r : PtNum) (p : Jacobian) : (s.putJp r p).JP = s.JP.set r p := rfl
@[simp] theorem putJp_FLAGS (s : State) (r : PtNum) (p : Jacobian) : (s.putJp r p).FLAGS = { s.FLAGS with INF := p.isIdentity } := rfl
@[simp] theorem putJp_ERRCODE (s : State) (r : PtNum) (p : Jacobian) : (s.putJp r p).ERRCODE = s.ERRCODE := rfl
@[simp] theorem putJp_ERRSTICKY (s : State) (r : PtNum) (p : Jacobian) : (s.putJp r p).ERRSTICKY = s.ERRSTICKY := rfl
@[simp] theorem putJp_TBL (s : State) (r : PtNum) (p : Jacobian) : (s.putJp r p).TBL = s.TBL := rfl
@[simp] theorem putJp_pending (s : State) (r : PtNum) (p : Jacobian) : (s.putJp r p).pending = s.pending := rfl
@[simp] theorem putJp_replies (s : State) (r : PtNum) (p : Jacobian) : (s.putJp r p).replies = s.replies := rfl

@[simp] theorem takeFault_S (c : CmdFault) (s : State) : (takeFault c s).S = s.S := rfl
@[simp] theorem takeFault_BLK (c : CmdFault) (s : State) : (takeFault c s).BLK = s.BLK := rfl
@[simp] theorem takeFault_KPOS (c : CmdFault) (s : State) : (takeFault c s).KPOS = s.KPOS := rfl
@[simp] theorem takeFault_KRST (c : CmdFault) (s : State) : (takeFault c s).KRST = s.KRST := rfl
@[simp] theorem takeFault_KPHASE (c : CmdFault) (s : State) : (takeFault c s).KPHASE = s.KPHASE := rfl
@[simp] theorem takeFault_KDIN (c : CmdFault) (s : State) : (takeFault c s).KDIN = s.KDIN := rfl
@[simp] theorem takeFault_FR (c : CmdFault) (s : State) : (takeFault c s).FR = s.FR := rfl
@[simp] theorem takeFault_AP (c : CmdFault) (s : State) : (takeFault c s).AP = s.AP := rfl
@[simp] theorem takeFault_JP (c : CmdFault) (s : State) : (takeFault c s).JP = s.JP := rfl
@[simp] theorem takeFault_FLAGS (c : CmdFault) (s : State) : (takeFault c s).FLAGS = s.FLAGS := rfl
@[simp] theorem takeFault_ERRCODE (c : CmdFault) (s : State) : (takeFault c s).ERRCODE = c.code := rfl
@[simp] theorem takeFault_ERRSTICKY (c : CmdFault) (s : State) : (takeFault c s).ERRSTICKY = s.ERRSTICKY ||| (1#9 <<< c.code.toNat) := rfl
@[simp] theorem takeFault_TBL (c : CmdFault) (s : State) : (takeFault c s).TBL = s.TBL := rfl
@[simp] theorem takeFault_pending (c : CmdFault) (s : State) : (takeFault c s).pending = s.pending := rfl
@[simp] theorem takeFault_replies (c : CmdFault) (s : State) : (takeFault c s).replies = s.replies := rfl

@[simp] theorem normalEnd_S (s : State) : (normalEnd s).S = s.S := rfl
@[simp] theorem normalEnd_BLK (s : State) : (normalEnd s).BLK = s.BLK := rfl
@[simp] theorem normalEnd_KPOS (s : State) : (normalEnd s).KPOS = s.KPOS := rfl
@[simp] theorem normalEnd_KRST (s : State) : (normalEnd s).KRST = s.KRST := rfl
@[simp] theorem normalEnd_KPHASE (s : State) : (normalEnd s).KPHASE = s.KPHASE := rfl
@[simp] theorem normalEnd_KDIN (s : State) : (normalEnd s).KDIN = s.KDIN := rfl
@[simp] theorem normalEnd_FR (s : State) : (normalEnd s).FR = s.FR := rfl
@[simp] theorem normalEnd_AP (s : State) : (normalEnd s).AP = s.AP := rfl
@[simp] theorem normalEnd_JP (s : State) : (normalEnd s).JP = s.JP := rfl
@[simp] theorem normalEnd_FLAGS (s : State) : (normalEnd s).FLAGS = s.FLAGS := rfl
@[simp] theorem normalEnd_ERRCODE (s : State) : (normalEnd s).ERRCODE = 0 := rfl
@[simp] theorem normalEnd_ERRSTICKY (s : State) : (normalEnd s).ERRSTICKY = s.ERRSTICKY := rfl
@[simp] theorem normalEnd_TBL (s : State) : (normalEnd s).TBL = s.TBL := rfl
@[simp] theorem normalEnd_pending (s : State) : (normalEnd s).pending = s.pending := rfl
@[simp] theorem normalEnd_replies (s : State) : (normalEnd s).replies = s.replies := rfl

@[simp] theorem absorbBlock_S (s : State) : (absorbBlock s).S = f1600 (xorBlock s.S s.BLK) := by simp only [absorbBlock]
@[simp] theorem absorbBlock_BLK (s : State) : (absorbBlock s).BLK = s.BLK := by simp only [absorbBlock]
@[simp] theorem absorbBlock_KPOS (s : State) : (absorbBlock s).KPOS = 0 := by simp only [absorbBlock]
@[simp] theorem absorbBlock_KRST (s : State) : (absorbBlock s).KRST = true := by simp only [absorbBlock]
@[simp] theorem absorbBlock_KPHASE (s : State) : (absorbBlock s).KPHASE = s.KPHASE := by simp only [absorbBlock]
@[simp] theorem absorbBlock_KDIN (s : State) : (absorbBlock s).KDIN = s.KDIN := by simp only [absorbBlock]
@[simp] theorem absorbBlock_FR (s : State) : (absorbBlock s).FR = s.FR := by simp only [absorbBlock]
@[simp] theorem absorbBlock_AP (s : State) : (absorbBlock s).AP = s.AP := by simp only [absorbBlock]
@[simp] theorem absorbBlock_JP (s : State) : (absorbBlock s).JP = s.JP := by simp only [absorbBlock]
@[simp] theorem absorbBlock_FLAGS (s : State) : (absorbBlock s).FLAGS = s.FLAGS := by simp only [absorbBlock]
@[simp] theorem absorbBlock_ERRCODE (s : State) : (absorbBlock s).ERRCODE = s.ERRCODE := by simp only [absorbBlock]
@[simp] theorem absorbBlock_ERRSTICKY (s : State) : (absorbBlock s).ERRSTICKY = s.ERRSTICKY := by simp only [absorbBlock]
@[simp] theorem absorbBlock_TBL (s : State) : (absorbBlock s).TBL = s.TBL := by simp only [absorbBlock]
@[simp] theorem absorbBlock_pending (s : State) : (absorbBlock s).pending = s.pending := by simp only [absorbBlock]
@[simp] theorem absorbBlock_replies (s : State) : (absorbBlock s).replies = s.replies := by simp only [absorbBlock]

@[simp] theorem startHash_S (s : State) : (startHash s).S = Vector.replicate 50 0 := rfl
@[simp] theorem startHash_BLK (s : State) : (startHash s).BLK = Vector.replicate 34 0 := rfl
@[simp] theorem startHash_KPOS (s : State) : (startHash s).KPOS = 0 := rfl
@[simp] theorem startHash_KRST (s : State) : (startHash s).KRST = true := rfl
@[simp] theorem startHash_KPHASE (s : State) : (startHash s).KPHASE = .absorb := rfl
@[simp] theorem startHash_KDIN (s : State) : (startHash s).KDIN = s.KDIN := rfl
@[simp] theorem startHash_FR (s : State) : (startHash s).FR = s.FR := rfl
@[simp] theorem startHash_AP (s : State) : (startHash s).AP = s.AP := rfl
@[simp] theorem startHash_JP (s : State) : (startHash s).JP = s.JP := rfl
@[simp] theorem startHash_FLAGS (s : State) : (startHash s).FLAGS = s.FLAGS := rfl
@[simp] theorem startHash_ERRCODE (s : State) : (startHash s).ERRCODE = s.ERRCODE := rfl
@[simp] theorem startHash_ERRSTICKY (s : State) : (startHash s).ERRSTICKY = s.ERRSTICKY := rfl
@[simp] theorem startHash_TBL (s : State) : (startHash s).TBL = s.TBL := rfl
@[simp] theorem startHash_pending (s : State) : (startHash s).pending = s.pending := rfl
@[simp] theorem startHash_replies (s : State) : (startHash s).replies = s.replies := rfl

@[simp] theorem wipe_S (s : State) : (wipe s).S = s.S := rfl
@[simp] theorem wipe_BLK (s : State) : (wipe s).BLK = s.BLK := rfl
@[simp] theorem wipe_KPOS (s : State) : (wipe s).KPOS = s.KPOS := rfl
@[simp] theorem wipe_KRST (s : State) : (wipe s).KRST = s.KRST := rfl
@[simp] theorem wipe_KPHASE (s : State) : (wipe s).KPHASE = s.KPHASE := rfl
@[simp] theorem wipe_KDIN (s : State) : (wipe s).KDIN = 0 := rfl
@[simp] theorem wipe_FR (s : State) : (wipe s).FR = Vector.replicate 16 0 := rfl
@[simp] theorem wipe_AP (s : State) : (wipe s).AP = Vector.replicate 4 Affine.zero := rfl
@[simp] theorem wipe_JP (s : State) : (wipe s).JP = Vector.replicate 4 Jacobian.zero := rfl
@[simp] theorem wipe_FLAGS (s : State) : (wipe s).FLAGS = Flags.clear := rfl
@[simp] theorem wipe_ERRCODE (s : State) : (wipe s).ERRCODE = s.ERRCODE := rfl
@[simp] theorem wipe_ERRSTICKY (s : State) : (wipe s).ERRSTICKY = s.ERRSTICKY := rfl
@[simp] theorem wipe_TBL (s : State) : (wipe s).TBL = s.TBL := rfl
@[simp] theorem wipe_pending (s : State) : (wipe s).pending = s.pending := rfl
@[simp] theorem wipe_replies (s : State) : (wipe s).replies = s.replies := rfl

@[simp] theorem badAccess_S (s : State) : (badAccess s).S = s.S := rfl
@[simp] theorem badAccess_BLK (s : State) : (badAccess s).BLK = s.BLK := rfl
@[simp] theorem badAccess_KPOS (s : State) : (badAccess s).KPOS = s.KPOS := rfl
@[simp] theorem badAccess_KRST (s : State) : (badAccess s).KRST = s.KRST := rfl
@[simp] theorem badAccess_KPHASE (s : State) : (badAccess s).KPHASE = s.KPHASE := rfl
@[simp] theorem badAccess_KDIN (s : State) : (badAccess s).KDIN = s.KDIN := rfl
@[simp] theorem badAccess_FR (s : State) : (badAccess s).FR = s.FR := rfl
@[simp] theorem badAccess_AP (s : State) : (badAccess s).AP = s.AP := rfl
@[simp] theorem badAccess_JP (s : State) : (badAccess s).JP = s.JP := rfl
@[simp] theorem badAccess_FLAGS (s : State) : (badAccess s).FLAGS = s.FLAGS := rfl
@[simp] theorem badAccess_ERRCODE (s : State) : (badAccess s).ERRCODE = s.ERRCODE := rfl
@[simp] theorem badAccess_ERRSTICKY (s : State) : (badAccess s).ERRSTICKY = s.ERRSTICKY ||| (1#9 <<< 8) := rfl
@[simp] theorem badAccess_TBL (s : State) : (badAccess s).TBL = s.TBL := rfl
@[simp] theorem badAccess_pending (s : State) : (badAccess s).pending = s.pending := rfl
@[simp] theorem badAccess_replies (s : State) : (badAccess s).replies = s.replies := rfl

@[simp] theorem reply_S (s : State) (v : Word) : (s.reply v).S = s.S := rfl
@[simp] theorem reply_BLK (s : State) (v : Word) : (s.reply v).BLK = s.BLK := rfl
@[simp] theorem reply_KPOS (s : State) (v : Word) : (s.reply v).KPOS = s.KPOS := rfl
@[simp] theorem reply_KRST (s : State) (v : Word) : (s.reply v).KRST = s.KRST := rfl
@[simp] theorem reply_KPHASE (s : State) (v : Word) : (s.reply v).KPHASE = s.KPHASE := rfl
@[simp] theorem reply_KDIN (s : State) (v : Word) : (s.reply v).KDIN = s.KDIN := rfl
@[simp] theorem reply_FR (s : State) (v : Word) : (s.reply v).FR = s.FR := rfl
@[simp] theorem reply_AP (s : State) (v : Word) : (s.reply v).AP = s.AP := rfl
@[simp] theorem reply_JP (s : State) (v : Word) : (s.reply v).JP = s.JP := rfl
@[simp] theorem reply_FLAGS (s : State) (v : Word) : (s.reply v).FLAGS = s.FLAGS := rfl
@[simp] theorem reply_ERRCODE (s : State) (v : Word) : (s.reply v).ERRCODE = s.ERRCODE := rfl
@[simp] theorem reply_ERRSTICKY (s : State) (v : Word) : (s.reply v).ERRSTICKY = s.ERRSTICKY := rfl
@[simp] theorem reply_TBL (s : State) (v : Word) : (s.reply v).TBL = s.TBL := rfl
@[simp] theorem reply_pending (s : State) (v : Word) : (s.reply v).pending = s.pending := rfl
@[simp] theorem reply_replies (s : State) (v : Word) : (s.reply v).replies = s.replies ++ [v] := rfl

/-! The registers read back through their accessors. -/

@[simp] theorem setFr_FR_same (s : State) (r : FrNum) (v : Int) : (s.setFr r v).FR[r] = toBig v := by
  simp [State.setFr]

theorem setFr_FR_other (s : State) (r q : FrNum) (v : Int) (h : q ≠ r) : (s.setFr r v).FR[q] = s.FR[q] := by
  have : r.val ≠ q.val := fun e => h (Fin.ext e.symm)
  simp [State.setFr, Vector.getElem_set_ne _ _ this]

@[simp] theorem setAp_ap_same (s : State) (r : PtNum) (a : Affine) : (s.setAp r a).ap r = a := by
  simp [State.setAp, State.ap]

theorem setAp_ap_other (s : State) (r q : PtNum) (a : Affine) (h : q ≠ r) : (s.setAp r a).ap q = s.ap q := by
  have : r.val ≠ q.val := fun e => h (Fin.ext e.symm)
  simp [State.setAp, State.ap, Vector.getElem_set_ne _ _ this]

@[simp] theorem setJp_jp_same (s : State) (r : PtNum) (p : Jacobian) : (s.setJp r p).jp r = p := by
  simp [State.setJp, State.jp]

theorem setJp_jp_other (s : State) (r q : PtNum) (p : Jacobian) (h : q ≠ r) : (s.setJp r p).jp q = s.jp q := by
  have : r.val ≠ q.val := fun e => h (Fin.ext e.symm)
  simp [State.setJp, State.jp, Vector.getElem_set_ne _ _ this]

end Sys2Proof.Machine
end

