-- ==== Sys2Proof/Laws/Bus.lean ====
section
/-! SUPPORT. What a step can do, said once, and the limbs of a big value. -/

namespace Sys2Proof.Machine

/-! ### Limbs -/

theorem getLsbD_setLimb (v : Big) (i : Fin 8) (w : Word) (k : Nat) (hk : k < 256) :
    (setLimb v i w).getLsbD k = if k / 32 = i.val then w.getLsbD (k % 32) else v.getLsbD k := by
  have hi := i.isLt
  have hm : ∀ j, (0xFFFFFFFF : Big).getLsbD j = decide (j < 32) := fun j => by
    by_cases h : j < 256
    · have key : ∀ j < 256, (0xFFFFFFFF : Big).getLsbD j = decide (j < 32) := by decide +kernel
      exact key j h
    · rw [BitVec.getLsbD_of_ge _ _ (by omega)]; simp; omega
  unfold setLimb
  simp only [BitVec.getLsbD_or, BitVec.getLsbD_and, BitVec.getLsbD_not, BitVec.getLsbD_shiftLeft, hm,
    BitVec.getLsbD_setWidth, hk, decide_true, Bool.true_and]
  by_cases h : k / 32 = i.val
  · have h1 : ¬ k < 32 * i.val := by omega
    have h2 : k - 32 * i.val < 32 := by omega
    have h3 : k % 32 = k - 32 * i.val := by omega
    have h4 : k - 32 * i.val < 256 := by omega
    simp [h, h1, h2, h3, h4]
  · by_cases h1 : k < 32 * i.val
    · simp [h, h1]
    · have h2 : ¬ k - 32 * i.val < 32 := by omega
      have h3 : w.getLsbD (k - 32 * i.val) = false := BitVec.getLsbD_of_ge _ _ (by omega)
      simp [h, h1, h2, h3]

theorem getLsbD_limb (v : Big) (i : Fin 8) (k : Nat) (hk : k < 32) : (limb v i).getLsbD k = v.getLsbD (32 * i.val + k) := by
  simp [limb, hk]

/-- A write to one limb replaces those 32 bits and leaves the other 224 unchanged (20_memory.md R56). -/
@[simp] theorem limb_setLimb (v : Big) (i j : Fin 8) (w : Word) :
    limb (setLimb v i w) j = if j = i then w else limb v j := by
  apply BitVec.eq_of_getLsbD_eq
  intro k hk
  rw [getLsbD_limb _ _ _ hk, getLsbD_setLimb _ _ _ _ (by omega)]
  have e : (32 * j.val + k) / 32 = j.val := by omega
  have e2 : (32 * j.val + k) % 32 = k := by omega
  rw [e, e2]
  by_cases h : j = i
  · simp [h]
  · rw [if_neg (fun hh => h (Fin.ext hh)), if_neg h, getLsbD_limb _ _ _ hk]

/-- Two big values with equal limbs are equal. -/
theorem limb_ext {a b : Big} (h : ∀ i, limb a i = limb b i) : a = b := by
  apply BitVec.eq_of_getLsbD_eq
  intro k hk
  have := congrArg (fun v => v.getLsbD (k % 32)) (h ⟨k / 32, by omega⟩)
  simpa [getLsbD_limb _ _ _ (Nat.mod_lt k (show 32 > 0 by omega)), show 32 * (k / 32) + k % 32 = k by omega] using this

/-! ### The step -/

/-- All a step can do: nothing, a reset, a read, a write that issues no command, or one whole command. -/
theorem step_cases {s t : State} (h : step s = .next t) :
    (s.pending = [] ∧ t = s) ∨
      (∃ rest, s.pending = .reset :: rest ∧ t = afterReset { s with pending := rest }) ∨
      (∃ addr bits rest, s.pending = .read addr bits :: rest ∧ t = afterRead { s with pending := rest } addr bits) ∨
      (∃ addr bits v rest, s.pending = .write addr bits v :: rest ∧ target addr bits ≠ some .cmd ∧
        t = afterWrite { s with pending := rest } addr bits v) ∨
      (∃ addr bits v rest, s.pending = .write addr bits v :: rest ∧ target addr bits = some .cmd ∧
        command v { s with pending := rest } = .next t) := by
  unfold step nextArrival at h
  rcases hp : s.pending with _ | ⟨e, rest⟩
  · simp only [hp] at h; left; simpa [eq_comm] using h
  · rcases e with ⟨addr, bits⟩ | ⟨addr, bits, v⟩ | _
    · simp only [hp, Host.Outcome.next.injEq] at h
      exact .inr (.inr (.inl ⟨addr, bits, rest, rfl, h.symm⟩))
    · simp only [hp] at h
      by_cases hc : target addr bits = some .cmd
      · simp only [hc, if_true] at h
        exact .inr (.inr (.inr (.inr ⟨addr, bits, v, rest, rfl, hc, h⟩)))
      · simp only [hc, if_false, Host.Outcome.next.injEq] at h
        exact .inr (.inr (.inr (.inl ⟨addr, bits, v, rest, rfl, hc, h.symm⟩)))
    · simp only [hp, Host.Outcome.next.injEq] at h
      exact .inr (.inl ⟨rest, rfl, h.symm⟩)

/-- All a command word can do: its command, or `E_ILLEGAL`. -/
theorem command_cases {w : Word} {s t : State} (h : command w s = .next t) :
    (∃ i, decode w = .ok i ∧ exec i s = .next t) ∨ (∃ e, decode w = .error e ∧ t = takeFault .illegal s) := by
  unfold command at h
  rcases hd : decode w with e | i
  · simp only [hd, illegalCommand, endCommand, Host.Outcome.next.injEq] at h
    exact .inr ⟨e, rfl, h.symm⟩
  · simp only [hd] at h
    exact .inl ⟨i, rfl, h⟩

/-- All a host read can do: a value goes back, or the access is bad and 0 goes back. -/
theorem afterRead_cases (s : State) (addr : BitVec 12) (bits : Nat) :
    (∃ v, hostRead s addr bits = some v ∧ afterRead s addr bits = s.reply v) ∨
      (hostRead s addr bits = none ∧ afterRead s addr bits = (badAccess s).reply 0) := by
  unfold afterRead
  cases h : hostRead s addr bits
  · exact .inr ⟨rfl, rfl⟩
  · exact .inl ⟨_, rfl, rfl⟩

/-- All a host write that issues no command can do: one register, or the access is bad. -/
theorem afterWrite_cases (s : State) (addr : BitVec 12) (bits : Nat) (v : Word) :
    (∃ r t, target addr bits = some r ∧ writeReg s r v = some t ∧ afterWrite s addr bits v = t) ∨
      (((target addr bits).bind fun r => writeReg s r v) = none ∧ afterWrite s addr bits v = badAccess s) := by
  unfold afterWrite
  cases h : target addr bits with
  | none => exact .inr ⟨rfl, rfl⟩
  | some r =>
    cases hw : writeReg s r v with
    | none => exact .inr ⟨by simp [hw], by simp [hw]⟩
    | some t => exact .inl ⟨r, t, rfl, hw, by simp [hw]⟩

/-- What a register write may touch: the words of `S`, `KDIN` and the operand registers, nothing else (R54). -/
theorem writeReg_frame {s t : State} {r : Reg} {v : Word} (h : writeReg s r v = some t) :
    ∃ S KDIN FR AP JP, t = { s with S := S, KDIN := KDIN, FR := FR, AP := AP, JP := JP } := by
  cases r <;> simp only [writeReg, Option.some.injEq, reduceCtorEq] at h <;> subst h <;> exact ⟨_, _, _, _, _, rfl⟩

end Sys2Proof.Machine
end

