-- ==== Sys2Proof/Laws/Encoding.lean ====
section
/-! SUPPORT. The fields of a packed command word, and the opcode map read in both directions. -/

namespace Sys2Proof

theorem lookupOpcode_code (o : Opcode) : lookupOpcode o.code.toNat = some o := by cases o <;> rfl

/-- Every assigned number is its row's. -/
theorem code_of_lookupOpcode {b : Byte} {o : Opcode} (h : lookupOpcode b.toNat = some o) : o.code = b := by
  have key : ∀ k < 256, ∀ o, lookupOpcode k = some o → o.code = BitVec.ofNat 8 k := by decide +kernel
  rw [key _ b.isLt o h, BitVec.ofNat_toNat, BitVec.setWidth_eq]

theorem toNat_append_add {v w : Nat} (a : BitVec v) (b : BitVec w) : (a ++ b).toNat = a.toNat * 2 ^ w + b.toNat := by
  rw [BitVec.toNat_append, ← Nat.shiftLeft_add_eq_or_of_lt b.isLt, Nat.shiftLeft_eq]

/-- The word of R90, as a number. -/
theorem packWord_toNat (o : Opcode) (rd ra rb : Nat) (m : Bool) (imm : Byte) :
    (packWord o rd ra rb m imm).toNat =
      o.code.toNat * 2 ^ 24 + rd % 16 * 2 ^ 20 + ra % 16 * 2 ^ 16 + rb % 16 * 2 ^ 12 + m.toNat * 2 ^ 8 + imm.toNat := by
  simp only [packWord, toNat_append_add, BitVec.toNat_ofNat, BitVec.toNat_ofBool]
  omega

theorem opField_toNat (w : Word) : (opField w).toNat = w.toNat / 2 ^ 24 % 256 := by
  simp [opField, Nat.shiftRight_eq_div_pow]

theorem frField_val (w : Word) (lo : Nat) : (frField w lo).val = w.toNat / 2 ^ lo % 16 := by
  simp [frField, Nat.shiftRight_eq_div_pow]

theorem ptField_val (w : Word) (lo : Nat) : (ptField w lo).val = w.toNat / 2 ^ lo % 4 := by
  simp [ptField, Nat.shiftRight_eq_div_pow]

theorem mField_toNat (w : Word) : (mField w).toNat = w.toNat / 2 ^ 8 % 2 := by
  unfold mField BitVec.getLsbD
  rw [Nat.testBit_eq_decide_div_mod_eq]
  rcases Nat.mod_two_eq_zero_or_one (w.toNat / 2 ^ 8) with h | h <;> rw [h] <;> rfl

theorem immField_toNat (w : Word) : (immField w).toNat = w.toNat % 256 := by
  simp [immField]

section

variable (o : Opcode) (rd ra rb : Nat) (m : Bool) (imm : Byte)

@[simp] theorem opField_packWord : opField (packWord o rd ra rb m imm) = o.code := by
  apply BitVec.eq_of_toNat_eq
  have := m.toNat_lt
  have := imm.isLt
  have := o.code.isLt
  rw [opField_toNat, packWord_toNat]
  omega

@[simp] theorem frField_packWord_rd : (frField (packWord o rd ra rb m imm) 20).val = rd % 16 := by
  have := m.toNat_lt
  have := imm.isLt
  rw [frField_val, packWord_toNat]
  omega

@[simp] theorem frField_packWord_ra : (frField (packWord o rd ra rb m imm) 16).val = ra % 16 := by
  have := m.toNat_lt
  have := imm.isLt
  rw [frField_val, packWord_toNat]
  omega

@[simp] theorem frField_packWord_rb : (frField (packWord o rd ra rb m imm) 12).val = rb % 16 := by
  have := m.toNat_lt
  have := imm.isLt
  rw [frField_val, packWord_toNat]
  omega

@[simp] theorem ptField_packWord_rd : (ptField (packWord o rd ra rb m imm) 20).val = rd % 4 := by
  have := m.toNat_lt
  have := imm.isLt
  rw [ptField_val, packWord_toNat]
  omega

@[simp] theorem ptField_packWord_ra : (ptField (packWord o rd ra rb m imm) 16).val = ra % 4 := by
  have := m.toNat_lt
  have := imm.isLt
  rw [ptField_val, packWord_toNat]
  omega

@[simp] theorem ptField_packWord_rb : (ptField (packWord o rd ra rb m imm) 12).val = rb % 4 := by
  have := m.toNat_lt
  have := imm.isLt
  rw [ptField_val, packWord_toNat]
  omega

@[simp] theorem mField_packWord : mField (packWord o rd ra rb m imm) = m := by
  have h : (mField (packWord o rd ra rb m imm)).toNat = m.toNat := by
    have := m.toNat_lt
    have := imm.isLt
    rw [mField_toNat, packWord_toNat]
    omega
  generalize mField (packWord o rd ra rb m imm) = b at h
  revert h
  cases b <;> cases m <;> decide

@[simp] theorem immField_packWord : immField (packWord o rd ra rb m imm) = imm := by
  apply BitVec.eq_of_toNat_eq
  have := imm.isLt
  rw [immField_toNat, packWord_toNat]
  omega

end

end Sys2Proof
end

