-- ==== Sys2Proof/Laws/Ops.lean ====
section
/-! SUPPORT. What each shared operation can do, said once: the end of a command, integers and registers, limbs. -/

namespace Sys2Proof.Machine

open Sys2Proof.Config

/-! ### The end of a command -/

/-- All that the end of a command can answer (R272, R273). -/
theorem endCommand_next {s t : State} {r : Except CmdFault State} :
    endCommand s r = .next t ↔ (∃ u, r = .ok u ∧ t = normalEnd u) ∨ (∃ c, r = .error c ∧ t = takeFault c s) := by
  cases r <;> simp [endCommand, eq_comm]

@[simp] theorem endCommand_ok (s u : State) : endCommand s (.ok u) = .next (normalEnd u) := rfl

@[simp] theorem endCommand_error (s : State) (c : CmdFault) : endCommand s (.error c) = .next (takeFault c s) := rfl

theorem endCommand_total (s : State) (r : Except CmdFault State) : ∃ t, endCommand s r = .next t := by
  cases r <;> simp

theorem CmdFault.code_ne_zero (c : CmdFault) : c.code ≠ 0 := by cases c <;> decide

theorem CmdFault.code_injective {c d : CmdFault} (h : c.code = d.code) : c = d := by
  cases c <;> cases d <;> first | rfl | exact absurd h (by decide)

/-- A command's outcome is a fault exactly when `ERRCODE` is not 0 after it. -/
theorem endCommand_errcode {s t : State} {r : Except CmdFault State} (h : endCommand s r = .next t) :
    (t.ERRCODE = 0 ∧ ∃ u, r = .ok u ∧ t = normalEnd u) ∨
      (∃ c, r = .error c ∧ t.ERRCODE = c.code ∧ t = takeFault c s) := by
  rcases endCommand_next.1 h with ⟨u, hr, ht⟩ | ⟨c, hr, ht⟩
  · exact .inl ⟨by simp [ht], u, hr, ht⟩
  · exact .inr ⟨c, hr, by simp [ht], ht⟩

/-! ### Integers -/

theorem P_pos : (0 : Int) < (P : Int) := by decide +kernel

theorem modulus_pos (m : Bool) : 0 < modulus m := by cases m <;> decide +kernel

theorem modulus_le (m : Bool) : modulus m < 2 ^ 256 := by cases m <;> decide +kernel

theorem mod_nonneg (a : Int) {m : Nat} (h : 0 < m) : 0 ≤ mod a m := Int.emod_nonneg _ (by omega)

theorem mod_lt (a : Int) {m : Nat} (h : 0 < m) : mod a m < m := Int.emod_lt_of_pos _ (by omega)

theorem mod_of_range {a : Int} {m : Nat} (h0 : 0 ≤ a) (h1 : a < m) : mod a m = a := Int.emod_eq_of_lt h0 h1

theorem mod_modEq (a : Int) (m : Nat) : mod a m ≡ a [ZMOD m] := Int.mod_modEq _ _

theorem mod_eq_mod_iff (a b : Int) (m : Nat) : mod a m = mod b m ↔ a ≡ b [ZMOD m] := Iff.rfl

theorem mod_eq_zero_iff (a : Int) (m : Nat) : mod a m = 0 ↔ (m : Int) ∣ a :=
  ⟨Int.dvd_of_emod_eq_zero, Int.emod_eq_zero_of_dvd⟩

/-- The residue in `ZMod m`: the bridge to algebra. -/
@[simp] theorem mod_cast_zmod (a : Int) (m : Nat) : ((mod a m : Int) : ZMod m) = (a : ZMod m) := by
  simp [mod]

theorem mod_eq_zero_iff_zmod (a : Int) (m : Nat) : mod a m = 0 ↔ (a : ZMod m) = 0 := by
  rw [mod_eq_zero_iff, ZMod.intCast_zmod_eq_zero_iff_dvd]

theorem mod_eq_mod_iff_zmod (a b : Int) (m : Nat) : mod a m = mod b m ↔ (a : ZMod m) = (b : ZMod m) := by
  rw [mod_eq_mod_iff, ZMod.intCast_eq_intCast_iff]

theorem modP_nonneg (a : Int) : 0 ≤ modP a := mod_nonneg a (by decide +kernel)

theorem modP_lt (a : Int) : modP a < P := mod_lt a (by decide +kernel)

@[simp] theorem modP_cast (a : Int) : ((modP a : Int) : ZMod P) = (a : ZMod P) := mod_cast_zmod a P

/-! ### Registers hold integers -/

theorem intOf_nonneg (v : Big) : 0 ≤ intOf v := by simp [intOf]

theorem intOf_lt (v : Big) : intOf v < 2 ^ 256 := by
  have := v.isLt
  unfold intOf
  exact_mod_cast this

theorem toBig_toNat {v : Int} (h0 : 0 ≤ v) (h1 : v < 2 ^ 256) : ((toBig v).toNat : Int) = v := by
  unfold toBig
  rw [BitVec.toNat_ofInt]
  omega

@[simp] theorem intOf_toBig {v : Int} (h0 : 0 ≤ v) (h1 : v < 2 ^ 256) : intOf (toBig v) = v := toBig_toNat h0 h1

@[simp] theorem toBig_intOf (v : Big) : toBig (intOf v) = v := by
  apply BitVec.eq_of_toNat_eq
  have := toBig_toNat (intOf_nonneg v) (intOf_lt v)
  unfold intOf at *
  exact_mod_cast this

theorem intOf_toBig_modP (a : Int) : intOf (toBig (modP a)) = modP a :=
  intOf_toBig (modP_nonneg a) (lt_trans (modP_lt a) (by decide +kernel))

theorem intOf_toBig_mod (a : Int) (m : Bool) : intOf (toBig (mod a (modulus m))) = mod a (modulus m) :=
  intOf_toBig (mod_nonneg a (modulus_pos m))
    (lt_trans (mod_lt a (modulus_pos m)) (by exact_mod_cast modulus_le m))

end Sys2Proof.Machine
end

