-- ==== Sys2Proof/Laws/Primality.lean ====
section
/-! SUPPORT. The moduli `P` and `n` are prime (41_field.md R143 says so from general knowledge; here it is proved, from
Pratt certificates). A certificate of `p` is a primitive root and the prime factors of `p − 1`. -/

namespace Sys2Proof.Laws

/-- The loop of `powMod`. -/
def powModLoop (m : Nat) : (fuel : Nat) → (r x e : Nat) → Nat
  | 0, r, _, _ => r
  | fuel + 1, r, x, e => if e = 0 then r else powModLoop m fuel (if e % 2 = 1 then r * x % m else r) (x * x % m) (e / 2)

/-- `b ^ e` modulo `m` by squaring, for exponents below `2^256`. -/
def powMod (m b e : Nat) : Nat := powModLoop m 256 1 b e

theorem powModLoop_cast (m : Nat) (fuel r x e : Nat) (he : e < 2 ^ fuel) :
    (powModLoop m fuel r x e : ZMod m) = r * (x : ZMod m) ^ e := by
  induction fuel generalizing r x e with
  | zero =>
    have : e = 0 := by simpa using he
    simp [powModLoop, this]
  | succ fuel ih =>
    unfold powModLoop
    by_cases h0 : e = 0
    · simp [h0]
    · rw [if_neg h0, ih _ _ _ (by omega)]
      have hx : (x : ZMod m) ^ e = (x : ZMod m) ^ (e % 2) * ((x : ZMod m) * x) ^ (e / 2) := by
        rw [← pow_two, ← pow_mul, ← pow_add, Nat.mod_add_div]
      rcases Nat.mod_two_eq_zero_or_one e with h | h <;> simp [h, hx, mul_assoc]

theorem powMod_cast (m b e : Nat) (he : e < 2 ^ 256) : (powMod m b e : ZMod m) = (b : ZMod m) ^ e := by
  simp [powMod, powModLoop_cast m 256 1 b e he]

/-- A Pratt certificate proves its number prime. -/
theorem prime_of_certificate (p a : Nat) (fs : List Nat) (hp : 1 < p ∧ p < 2 ^ 256) (hfs : ∀ q ∈ fs, q.Prime)
    (hprod : fs.prod = p - 1) (hone : powMod p a (p - 1) = 1)
    (hne : ∀ q ∈ fs, powMod p a ((p - 1) / q) % p ≠ 1) : p.Prime := by
  have h1 : Fact (1 < p) := ⟨hp.1⟩
  refine lucas_primality p (a : ZMod p) ?_ ?_
  · rw [← powMod_cast p a _ (by omega), hone, Nat.cast_one]
  · intro q hq hdvd hpow
    rw [← hprod] at hdvd
    obtain ⟨r, hr, hqr⟩ := (Nat.Prime.prime hq).dvd_prod_iff.1 hdvd
    have hqe : q = r := (Nat.prime_dvd_prime_iff_eq hq (hfs r hr)).1 hqr
    subst hqe
    refine hne q hr ?_
    have hlt : (p - 1) / q < 2 ^ 256 := lt_of_le_of_lt (Nat.div_le_self _ _) (by omega)
    rw [← powMod_cast p a _ hlt] at hpow
    have := (ZMod.natCast_eq_natCast_iff' _ 1 p).1 (by simpa using hpow)
    rw [this, Nat.mod_eq_of_lt hp.1]

theorem prime_4681609 : Nat.Prime 4681609 := by
  refine prime_of_certificate _ 23 [2, 2, 2, 3, 97, 2011] (by decide +kernel) ?_ (by decide +kernel) (by decide +kernel)
    (by decide +kernel)
  intro q hq
  simp only [List.mem_cons, List.not_mem_nil, or_false] at hq
  rcases hq with rfl | rfl | rfl | rfl | rfl | rfl <;>
    norm_num

theorem prime_7240687 : Nat.Prime 7240687 := by
  refine prime_of_certificate _ 3 [2, 3, 1206781] (by decide +kernel) ?_ (by decide +kernel) (by decide +kernel)
    (by decide +kernel)
  intro q hq
  simp only [List.mem_cons, List.not_mem_nil, or_false] at hq
  rcases hq with rfl | rfl | rfl <;>
    norm_num

theorem prime_13331831 : Nat.Prime 13331831 := by
  refine prime_of_certificate _ 13 [2, 5, 971, 1373] (by decide +kernel) ?_ (by decide +kernel) (by decide +kernel)
    (by decide +kernel)
  intro q hq
  simp only [List.mem_cons, List.not_mem_nil, or_false] at hq
  rcases hq with rfl | rfl | rfl | rfl <;>
    norm_num

theorem prime_44706919 : Nat.Prime 44706919 := by
  refine prime_of_certificate _ 6 [2, 3, 797, 9349] (by decide +kernel) ?_ (by decide +kernel) (by decide +kernel)
    (by decide +kernel)
  intro q hq
  simp only [List.mem_cons, List.not_mem_nil, or_false] at hq
  rcases hq with rfl | rfl | rfl | rfl <;>
    norm_num

theorem prime_107590001 : Nat.Prime 107590001 := by
  refine prime_of_certificate _ 3 [2, 2, 2, 2, 5, 5, 5, 5, 7, 29, 53] (by decide +kernel) ?_ (by decide +kernel) (by decide +kernel)
    (by decide +kernel)
  intro q hq
  simp only [List.mem_cons, List.not_mem_nil, or_false] at hq
  rcases hq with rfl | rfl | rfl | rfl | rfl | rfl | rfl | rfl | rfl | rfl | rfl <;>
    norm_num

theorem prime_545358713 : Nat.Prime 545358713 := by
  refine prime_of_certificate _ 5 [2, 2, 2, 41, 59, 28181] (by decide +kernel) ?_ (by decide +kernel) (by decide +kernel)
    (by decide +kernel)
  intro q hq
  simp only [List.mem_cons, List.not_mem_nil, or_false] at hq
  rcases hq with rfl | rfl | rfl | rfl | rfl | rfl <;>
    norm_num

theorem prime_297159362677 : Nat.Prime 297159362677 := by
  refine prime_of_certificate _ 2 [2, 2, 3, 3, 11, 461, 1627771] (by decide +kernel) ?_ (by decide +kernel) (by decide +kernel)
    (by decide +kernel)
  intro q hq
  simp only [List.mem_cons, List.not_mem_nil, or_false] at hq
  rcases hq with rfl | rfl | rfl | rfl | rfl | rfl | rfl <;>
    norm_num

theorem prime_107361793816595537 : Nat.Prime 107361793816595537 := by
  refine prime_of_certificate _ 3 [2, 2, 2, 2, 16699, 85831, 4681609] (by decide +kernel) ?_ (by decide +kernel) (by decide +kernel)
    (by decide +kernel)
  intro q hq
  simp only [List.mem_cons, List.not_mem_nil, or_false] at hq
  rcases hq with rfl | rfl | rfl | rfl | rfl | rfl | rfl <;>
    first | exact prime_4681609 | norm_num

theorem prime_173378833005251801 : Nat.Prime 173378833005251801 := by
  refine prime_of_certificate _ 6 [2, 2, 2, 5, 5, 2621, 24809, 13331831] (by decide +kernel) ?_ (by decide +kernel) (by decide +kernel)
    (by decide +kernel)
  intro q hq
  simp only [List.mem_cons, List.not_mem_nil, or_false] at hq
  rcases hq with rfl | rfl | rfl | rfl | rfl | rfl | rfl | rfl <;>
    first | exact prime_13331831 | norm_num

theorem prime_174723607534414371449 : Nat.Prime 174723607534414371449 := by
  refine prime_of_certificate _ 3 [2, 2, 2, 17, 59, 4051, 120233, 44706919] (by decide +kernel) ?_ (by decide +kernel) (by decide +kernel)
    (by decide +kernel)
  intro q hq
  simp only [List.mem_cons, List.not_mem_nil, or_false] at hq
  rcases hq with rfl | rfl | rfl | rfl | rfl | rfl | rfl | rfl <;>
    first | exact prime_44706919 | norm_num

theorem prime_22149492674086928081353 : Nat.Prime 22149492674086928081353 := by
  refine prime_of_certificate _ 5 [2, 2, 2, 3, 5323, 173378833005251801] (by decide +kernel) ?_ (by decide +kernel) (by decide +kernel)
    (by decide +kernel)
  intro q hq
  simp only [List.mem_cons, List.not_mem_nil, or_false] at hq
  rcases hq with rfl | rfl | rfl | rfl | rfl | rfl <;>
    first | exact prime_173378833005251801 | norm_num

theorem prime_132896956044521568488119 : Nat.Prime 132896956044521568488119 := by
  refine prime_of_certificate _ 6 [2, 3, 22149492674086928081353] (by decide +kernel) ?_ (by decide +kernel) (by decide +kernel)
    (by decide +kernel)
  intro q hq
  simp only [List.mem_cons, List.not_mem_nil, or_false] at hq
  rcases hq with rfl | rfl | rfl <;>
    first | exact prime_22149492674086928081353 | norm_num

theorem prime_29047611873442575647497758179 : Nat.Prime 29047611873442575647497758179 := by
  refine prime_of_certificate _ 2 [2, 293, 305873, 545358713, 297159362677] (by decide +kernel) ?_ (by decide +kernel) (by decide +kernel)
    (by decide +kernel)
  intro q hq
  simp only [List.mem_cons, List.not_mem_nil, or_false] at hq
  rcases hq with rfl | rfl | rfl | rfl | rfl <;>
    first | exact prime_545358713 | exact prime_297159362677 | norm_num

theorem prime_341948486974166000522343609283189 : Nat.Prime 341948486974166000522343609283189 := by
  refine prime_of_certificate _ 2 [2, 2, 3, 3, 3, 109, 29047611873442575647497758179] (by decide +kernel) ?_ (by decide +kernel) (by decide +kernel)
    (by decide +kernel)
  intro q hq
  simp only [List.mem_cons, List.not_mem_nil, or_false] at hq
  rcases hq with rfl | rfl | rfl | rfl | rfl | rfl | rfl <;>
    first | exact prime_29047611873442575647497758179 | norm_num

theorem prime_255515944373312847190720520512484175977 : Nat.Prime 255515944373312847190720520512484175977 := by
  refine prime_of_certificate _ 3 [2, 2, 2, 7, 7, 11, 1627, 2657, 4423, 41201, 96557, 7240687, 107590001] (by decide +kernel) ?_ (by decide +kernel) (by decide +kernel)
    (by decide +kernel)
  intro q hq
  simp only [List.mem_cons, List.not_mem_nil, or_false] at hq
  rcases hq with rfl | rfl | rfl | rfl | rfl | rfl | rfl | rfl | rfl | rfl | rfl | rfl | rfl <;>
    first | exact prime_7240687 | exact prime_107590001 | norm_num

theorem prime_205115282021455665897114700593932402728804164701536103180137503955397371 : Nat.Prime 205115282021455665897114700593932402728804164701536103180137503955397371 := by
  refine prime_of_certificate _ 10 [2, 3, 5, 29, 29, 31, 7723, 132896956044521568488119, 255515944373312847190720520512484175977] (by decide +kernel) ?_ (by decide +kernel) (by decide +kernel)
    (by decide +kernel)
  intro q hq
  simp only [List.mem_cons, List.not_mem_nil, or_false] at hq
  rcases hq with rfl | rfl | rfl | rfl | rfl | rfl | rfl | rfl | rfl <;>
    first | exact prime_132896956044521568488119 | exact prime_255515944373312847190720520512484175977 | norm_num

theorem prime_n : Nat.Prime Config.n := by
  refine prime_of_certificate _ 7 [2, 2, 2, 2, 2, 2, 3, 149, 631, 107361793816595537, 174723607534414371449, 341948486974166000522343609283189] (by decide +kernel) ?_ (by decide +kernel) (by decide +kernel)
    (by decide +kernel)
  intro q hq
  simp only [List.mem_cons, List.not_mem_nil, or_false] at hq
  rcases hq with rfl | rfl | rfl | rfl | rfl | rfl | rfl | rfl | rfl | rfl | rfl | rfl <;>
    first | exact prime_107361793816595537 | exact prime_174723607534414371449 | exact prime_341948486974166000522343609283189 | norm_num

theorem prime_P : Nat.Prime Config.P := by
  refine prime_of_certificate _ 3 [2, 3, 7, 13441, 205115282021455665897114700593932402728804164701536103180137503955397371] (by decide +kernel) ?_ (by decide +kernel) (by decide +kernel)
    (by decide +kernel)
  intro q hq
  simp only [List.mem_cons, List.not_mem_nil, or_false] at hq
  rcases hq with rfl | rfl | rfl | rfl | rfl <;>
    first | exact prime_205115282021455665897114700593932402728804164701536103180137503955397371 | norm_num

end Sys2Proof.Laws
end

