-- ==== Sys2Proof/Laws/Field.lean ====
section
/-! SUPPORT. What the functions of the FAU compute: `modpow` is the power, `modinv` answers the inverse exactly when there
is one, `batchinv` inverts element by element. -/

namespace Sys2Proof.Machine

open Sys2Proof.Config

/-! ### modpow -/

theorem modpowLoop_cast (m : Nat) (fuel : Nat) (r x : Int) (e : Nat) (he : e ≤ fuel) :
    ((modpowLoop m fuel r x e : Int) : ZMod m) = (r : ZMod m) * (x : ZMod m) ^ e := by
  induction fuel generalizing r x e with
  | zero => simp [modpowLoop, Nat.le_zero.1 he]
  | succ fuel ih =>
    unfold modpowLoop
    by_cases h0 : e = 0
    · simp [h0]
    · rw [if_neg h0, ih _ _ _ (by omega)]
      have hx : (x : ZMod m) ^ e = (x : ZMod m) ^ (e % 2) * ((x : ZMod m) * x) ^ (e / 2) := by
        rw [← pow_two, ← pow_mul, ← pow_add, Nat.mod_add_div]
      rcases Nat.mod_two_eq_zero_or_one e with h | h <;> simp [h, hx, mul_assoc]

theorem modpowLoop_range (m : Nat) (hm : 0 < m) (fuel : Nat) (r x : Int) (e : Nat) (h : 0 ≤ r ∧ r < m) :
    0 ≤ modpowLoop m fuel r x e ∧ modpowLoop m fuel r x e < m := by
  induction fuel generalizing r x e with
  | zero => exact h
  | succ fuel ih =>
    unfold modpowLoop
    split
    · exact h
    · apply ih
      split
      · exact ⟨mod_nonneg _ hm, mod_lt _ hm⟩
      · exact h

/-- `modpow` is the mathematical power (R142). -/
theorem modpow_eq (b : Int) (e m : Nat) (hm : 1 < m) : modpow b e m = mod (b ^ e) m := by
  have hr := modpowLoop_range m (by omega) e 1 (mod b m) e (by omega)
  have hc := modpowLoop_cast m e 1 (mod b m) e le_rfl
  have : mod (modpow b e m) m = mod (b ^ e) m := by
    rw [mod_eq_mod_iff_zmod]
    simpa [modpow] using hc
  rw [← this]
  exact (mod_of_range hr.1 hr.2).symm

/-! ### modinv -/

theorem euclid_gcd (a : Int) (m : Nat) (fuel : Nat) (r0 r1 t0 t1 : Int) (h0 : 0 ≤ r1) (h00 : 0 ≤ r0)
    (hf : r1 < fuel) (c0 : r0 ≡ t0 * a [ZMOD m]) (c1 : r1 ≡ t1 * a [ZMOD m]) :
    (euclid fuel r0 r1 t0 t1).1 = Int.gcd r0 r1 ∧
      (euclid fuel r0 r1 t0 t1).1 ≡ (euclid fuel r0 r1 t0 t1).2 * a [ZMOD m] := by
  induction fuel generalizing r0 r1 t0 t1 with
  | zero => omega
  | succ fuel ih =>
    unfold euclid
    by_cases hz : r1 = 0
    · simp only [hz, if_true]
      exact ⟨by simp [abs_of_nonneg h00], c0⟩
    · have hp : 0 < r1 := by omega
      rw [if_neg hz]
      have he : r0 - r0 / r1 * r1 = r0 % r1 := by rw [Int.emod_def, mul_comm]
      have hlt : r0 % r1 < r1 := Int.emod_lt_of_pos _ hp
      have hnn : 0 ≤ r0 % r1 := Int.emod_nonneg _ hz
      have := ih r1 (r0 - r0 / r1 * r1) t1 (t0 - r0 / r1 * t1) (by omega) (by omega) (by push_cast at hf; omega)
        c1 (by
          have := c0.sub (c1.mul_left (r0 / r1))
          calc r0 - r0 / r1 * r1 ≡ t0 * a - r0 / r1 * (t1 * a) [ZMOD m] := this
            _ = (t0 - r0 / r1 * t1) * a := by ring)
      refine ⟨?_, this.2⟩
      rw [this.1, he, Int.gcd_comm r1, Int.gcd_emod]

/-- The value of the Euclidean loop of `modinv`: a gcd, and a coefficient for it. -/
theorem euclid_modinv (a : Int) (m : Nat) (hm : 0 < m) :
    (euclid ((mod a m).toNat + 1) m (mod a m) 0 1).1 = Int.gcd a m ∧
      (euclid ((mod a m).toNat + 1) m (mod a m) 0 1).1 ≡
        (euclid ((mod a m).toNat + 1) m (mod a m) 0 1).2 * a [ZMOD m] := by
  have hn := mod_nonneg a hm
  have h := euclid_gcd a m ((mod a m).toNat + 1) m (mod a m) 0 1 hn (by omega) (by push_cast; omega)
    (by rw [zero_mul]; exact (Int.modEq_zero_iff_dvd.2 dvd_rfl)) (by rw [one_mul]; exact mod_modEq a m)
  refine ⟨?_, h.2⟩
  rw [h.1, Int.gcd_comm]
  simp [mod, Int.gcd_emod]

/-- All `modinv` can answer (R143): the inverse in `[0, m)` when `gcd(a, m) = 1`, the fault otherwise. -/
theorem modinv_cases (a : Int) (m : Nat) (hm : 1 < m) :
    (Int.gcd a m = 1 ∧ ∃ v, modinv a m = .ok v ∧ 0 ≤ v ∧ v < m ∧ mod (a * v) m = 1) ∨
      (Int.gcd a m ≠ 1 ∧ modinv a m = .error .notInvertible) := by
  have h := euclid_modinv a m (by omega)
  unfold modinv
  by_cases hg : Int.gcd a m = 1
  · left
    refine ⟨hg, ?_⟩
    have h1 : (euclid ((mod a m).toNat + 1) m (mod a m) 0 1).1 = 1 := by rw [h.1, hg]; rfl
    refine ⟨_, by simp only [h1, if_true]; rfl, mod_nonneg _ (by omega), mod_lt _ (by omega), ?_⟩
    have h2 := h.2
    rw [h1] at h2
    have : mod (a * mod (euclid ((mod a m).toNat + 1) m (mod a m) 0 1).2 m) m = mod 1 m := by
      rw [mod_eq_mod_iff]
      calc a * mod _ m ≡ a * (euclid ((mod a m).toNat + 1) m (mod a m) 0 1).2 [ZMOD m] :=
            (mod_modEq _ m).mul_left a
        _ ≡ 1 [ZMOD m] := by rw [mul_comm]; exact h2.symm
    rw [this]
    exact mod_of_range (by omega) (by exact_mod_cast hm)
  · right
    refine ⟨hg, ?_⟩
    have h1 : (euclid ((mod a m).toNat + 1) m (mod a m) 0 1).1 ≠ 1 := by
      rw [h.1]; exact_mod_cast hg
    simp only [h1, if_false]

/-- Under a prime modulus `modinv` faults exactly on the residue 0 (R143). -/
theorem modinv_prime (a : Int) (m : Nat) (hm : m.Prime) :
    (mod a m ≠ 0 ∧ ∃ v, modinv a m = .ok v ∧ 0 ≤ v ∧ v < m ∧ mod (a * v) m = 1) ∨
      (mod a m = 0 ∧ modinv a m = .error .notInvertible) := by
  have key : mod a m = 0 ↔ Int.gcd a m ≠ 1 := by
    rw [mod_eq_zero_iff, Ne, ← Int.isCoprime_iff_gcd_eq_one, isCoprime_comm,
      (Nat.prime_iff_prime_int.1 hm).coprime_iff_not_dvd, not_not]
  rcases modinv_cases a m hm.one_lt with ⟨hg, hv⟩ | ⟨hg, hv⟩
  · exact .inl ⟨fun h => key.1 h hg, hv⟩
  · exact .inr ⟨key.2 hg, hv⟩

theorem modulus_prime (m : Bool) : (modulus m).Prime := by cases m; exacts [Laws.prime_P, Laws.prime_n]

/-! ### batchinv -/

/-- All `batchinvFrom` can answer under a prime modulus, from a non-zero product `acc`. -/
theorem batchinvFrom_spec (m : Nat) (hm : m.Prime) (L : List Int) (hL : ∀ a ∈ L, a = 0 ∨ mod a m ≠ 0) (acc : Int)
    (hacc : mod acc m ≠ 0) :
    ∃ out u, batchinvFrom m acc L = .ok (out, u) ∧ (0 ≤ u ∧ u < m ∧ mod (acc * u) m = 1) ∧
      List.Forall₂ (fun (a v : Int) => (a = 0 ∧ v = 0) ∨ (a ≠ 0 ∧ 0 ≤ v ∧ v < m ∧ mod (a * v) m = 1)) L out := by
  have hpos := hm.pos
  have hone : mod 1 m = 1 := mod_of_range (by omega) (by exact_mod_cast hm.one_lt)
  have : Fact m.Prime := ⟨hm⟩
  induction L generalizing acc with
  | nil =>
    rcases modinv_prime acc m hm with ⟨-, v, hv, h0, h1, h2⟩ | ⟨h, -⟩
    · exact ⟨[], v, by simp [batchinvFrom, hv], ⟨h0, h1, h2⟩, .nil⟩
    · exact absurd h hacc
  | cons a L ih =>
    have hL' : ∀ b ∈ L, b = 0 ∨ mod b m ≠ 0 := fun b hb => hL b (List.mem_cons_of_mem _ hb)
    unfold batchinvFrom
    by_cases ha : a = 0
    · obtain ⟨out, u, h, hu, hf⟩ := ih hL' acc hacc
      exact ⟨0 :: out, u, by simp [ha, h], hu, .cons (.inl ⟨ha, rfl⟩) hf⟩
    · have ham : mod a m ≠ 0 := (hL a (by simp)).resolve_left ha
      have hz : mod (mod (acc * a) m) m ≠ 0 := by
        rw [Ne, mod_eq_zero_iff_zmod] at *
        simp only [mod_cast_zmod, Int.cast_mul]
        exact mul_ne_zero hacc ham
      obtain ⟨out, u, h, ⟨-, -, hu⟩, hf⟩ := ih hL' _ hz
      have hu' : (acc : ZMod m) * a * u = 1 := by
        rw [← hone, mod_eq_mod_iff_zmod] at hu
        simpa using hu
      refine ⟨mod (u * acc) m :: out, mod (u * a) m, by simp [ha, h], ⟨mod_nonneg _ hpos, mod_lt _ hpos, ?_⟩,
        .cons (.inr ⟨ha, mod_nonneg _ hpos, mod_lt _ hpos, ?_⟩) hf⟩
      · rw [← hone, mod_eq_mod_iff_zmod]
        push_cast [mod_cast_zmod]
        rw [← hu']; ring
      · rw [← hone, mod_eq_mod_iff_zmod]
        push_cast [mod_cast_zmod]
        rw [← hu']; ring

/-- `batchinv` inverts element by element and passes zeros through (R144); it never faults under a prime modulus. -/
theorem batchinv_spec (m : Nat) (hm : m.Prime) (L : List Int) (hL : ∀ a ∈ L, a = 0 ∨ mod a m ≠ 0) :
    ∃ out, batchinv L m = .ok out ∧
      List.Forall₂ (fun (a v : Int) => (a = 0 ∧ v = 0) ∨ (a ≠ 0 ∧ 0 ≤ v ∧ v < m ∧ mod (a * v) m = 1)) L out := by
  have hone : mod 1 m ≠ 0 := by
    rw [mod_of_range (by omega) (by exact_mod_cast hm.one_lt)]; omega
  obtain ⟨out, u, h, -, hf⟩ := batchinvFrom_spec m hm L hL 1 hone
  exact ⟨out, by simp [batchinv, h], hf⟩

/-- A reduced list meets the hypothesis of `batchinv_spec`. -/
theorem reduced_zero_or {m : Nat} (v : Int) : mod v m = 0 ∨ mod (mod v m) m ≠ 0 := by
  by_cases h : mod v m = 0
  · exact .inl h
  · right; unfold mod at *; rwa [Int.emod_emod]

end Sys2Proof.Machine
end

