-- ==== Sys2Proof/Laws/Point.lean ====
section
/-! SUPPORT. What the functions of the PAU can answer: identities, conversions, and when an affine function faults. -/

namespace Sys2Proof.Machine

open Sys2Proof.Config

theorem isIdentity_iff (p : Jacobian) : p.isIdentity = true ↔ modP (intOf p.Z) = 0 := by simp [Jacobian.isIdentity]

theorem isIdentity_false_iff (p : Jacobian) : p.isIdentity = false ↔ modP (intOf p.Z) ≠ 0 := by
  rw [← Bool.not_eq_true, isIdentity_iff]

theorem modP_modP (a : Int) : modP (modP a) = modP a := Int.emod_emod _ _

@[simp] theorem J0_isIdentity : J0.isIdentity = true := by decide +kernel

@[simp] theorem jfroma_isIdentity (a : Affine) : (jfroma a).isIdentity = a.inf := by
  unfold jfroma
  cases h : a.inf
  · rw [if_neg (by simp), isIdentity_false_iff]
    show modP (intOf 1) ≠ 0
    decide +kernel
  · simp

@[simp] theorem jneg_isIdentity (p : Jacobian) : (jneg p).isIdentity = p.isIdentity := by
  unfold jneg
  cases h : p.isIdentity
  · rw [isIdentity_false_iff] at *
    simp only [Bool.false_eq_true, if_false, intOf_toBig_modP]
    rwa [modP_modP]
  · simp

@[simp] theorem jendo_isIdentity (p : Jacobian) : (jendo p).isIdentity = p.isIdentity := by
  unfold jendo
  cases h : p.isIdentity
  · rw [isIdentity_false_iff] at *
    simp only [Bool.false_eq_true, if_false, intOf_toBig_modP]
    rwa [modP_modP]
  · simp

/-- A coordinate a point function writes is in `[0, P)` (10_state.md R38). -/
theorem toBig_modP_lt (a : Int) : (toBig (modP a)).toNat < P := by
  have h := intOf_toBig_modP a
  have := modP_lt a
  unfold intOf at h
  omega

/-- All `jtoa` can answer (R177): it never faults. -/
theorem jtoa_cases (p : Jacobian) :
    (p.isIdentity = true ∧ jtoa p = .ok A0) ∨
      (p.isIdentity = false ∧ ∃ x y iz : Int, jtoa p = .ok ⟨toBig (modP x), toBig (modP y), false⟩ ∧
        ((intOf p.Z : Int) : ZMod P) * iz = 1 ∧ (x : ZMod P) = intOf p.X * (iz * iz : ZMod P) ∧
        (y : ZMod P) = intOf p.Y * (iz * iz * iz : ZMod P)) := by
  cases h : p.isIdentity
  · right
    refine ⟨rfl, ?_⟩
    rw [isIdentity_false_iff] at h
    rcases modinv_prime (intOf p.Z) P Laws.prime_P with ⟨-, v, hv, -, -, h2⟩ | ⟨h', -⟩
    · refine ⟨_, _, v, by simp only [jtoa, (isIdentity_false_iff p).2 h, hv]; rfl, ?_, ?_, ?_⟩
      · have h1 : mod (intOf p.Z * v) P = mod 1 P := by rw [h2]; decide +kernel
        rw [mod_eq_mod_iff_zmod] at h1
        simpa using h1
      · simp
      · simp
    · exact absurd h' h
  · left; simp [jtoa, h]

/-- `jtoa` never faults (R177). -/
theorem jtoa_total (p : Jacobian) : ∃ a, jtoa p = .ok a ∧ a.inf = p.isIdentity := by
  rcases jtoa_cases p with ⟨h, e⟩ | ⟨h, x, y, iz, e, -⟩
  · exact ⟨_, e, by simp [A0, h]⟩
  · exact ⟨_, e, by simp [h]⟩

/-- All `adbl` can answer (R184). -/
theorem adbl_cases (a : Affine) :
    (a.inf = true ∧ adbl a = .ok A0) ∨
      (a.inf = false ∧ modP (intOf a.y) = 0 ∧ adbl a = .error .notInvertible) ∨
      (a.inf = false ∧ modP (intOf a.y) ≠ 0 ∧ ∃ sl : Int,
        adbl a = .ok (slopePoint sl (intOf a.x) (intOf a.y) (intOf a.x)) ∧
        (sl : ZMod P) * (2 * intOf a.y) = 3 * intOf a.x * intOf a.x) := by
  have : Fact P.Prime := ⟨Laws.prime_P⟩
  cases h : a.inf
  · right
    have key : mod (2 * intOf a.y) P = 0 ↔ modP (intOf a.y) = 0 := by
      unfold modP
      rw [mod_eq_zero_iff_zmod, mod_eq_zero_iff_zmod]
      push_cast
      rw [mul_eq_zero, or_iff_right]
      have h2 : ¬ mod 2 P = 0 := by decide +kernel
      rwa [mod_eq_zero_iff_zmod] at h2
    rcases modinv_prime (2 * intOf a.y) P Laws.prime_P with ⟨hn, v, hv, -, -, h2⟩ | ⟨h', hv⟩
    · right
      refine ⟨rfl, fun hh => hn (key.2 hh), _, by simp only [adbl, h, hv]; rfl, ?_⟩
      have h1 : mod (2 * intOf a.y * v) P = mod 1 P := by rw [h2]; decide +kernel
      rw [mod_eq_mod_iff_zmod] at h1
      push_cast at h1
      rw [modP_cast]
      push_cast
      linear_combination (3 * (intOf a.x : ZMod P) * intOf a.x) * h1
    · left
      exact ⟨rfl, key.1 h', by simp [adbl, h, hv]⟩
  · left; simp [adbl, h]

/-- All the chord case of `aadd` can answer (R185): it does not fault. -/
theorem aadd_chord {a b : Affine} (ha : a.inf = false) (hb : b.inf = false)
    (hx : modP (intOf a.x) ≠ modP (intOf b.x)) :
    ∃ sl : Int, aadd a b = .ok (slopePoint sl (intOf a.x) (intOf a.y) (intOf b.x)) ∧
      (sl : ZMod P) * (intOf b.x - intOf a.x) = intOf b.y - intOf a.y := by
  rcases modinv_prime (intOf b.x - intOf a.x) P Laws.prime_P with ⟨-, v, hv, -, -, h2⟩ | ⟨h', -⟩
  · refine ⟨_, by simp only [aadd, ha, hb, hx, hv, false_and, if_false]; rfl, ?_⟩
    have h1 : mod ((intOf b.x - intOf a.x) * v) P = mod 1 P := by rw [h2]; decide +kernel
    rw [mod_eq_mod_iff_zmod] at h1
    push_cast at h1
    rw [modP_cast]
    push_cast
    linear_combination ((intOf b.y : ZMod P) - intOf a.y) * h1
  · exfalso
    apply hx
    unfold modP
    rw [mod_eq_zero_iff_zmod] at h'
    rw [mod_eq_mod_iff_zmod]
    push_cast at h'
    exact (sub_eq_zero.1 h').symm

/-- All `aadd` can answer (R185). -/
theorem aadd_cases (a b : Affine) :
    (a.inf = true ∧ aadd a b = .ok (if b.inf then A0 else b)) ∨
      (a.inf = false ∧ b.inf = true ∧ aadd a b = .ok a) ∨
      (a.inf = false ∧ b.inf = false ∧ modP (intOf a.x) = modP (intOf b.x) ∧ modP (intOf a.y) = modP (intOf b.y) ∧
        aadd a b = adbl a) ∨
      (a.inf = false ∧ b.inf = false ∧ modP (intOf a.x) = modP (intOf b.x) ∧ modP (intOf a.y) ≠ modP (intOf b.y) ∧
        aadd a b = .error .invalidAddition) ∨
      (a.inf = false ∧ b.inf = false ∧ modP (intOf a.x) ≠ modP (intOf b.x) ∧ ∃ c, aadd a b = .ok c) := by
  cases ha : a.inf
  · cases hb : b.inf
    · by_cases hx : modP (intOf a.x) = modP (intOf b.x)
      · by_cases hy : modP (intOf a.y) = modP (intOf b.y)
        · simp [aadd, ha, hb, hx, hy]
        · simp [aadd, ha, hb, hx, hy]
      · obtain ⟨sl, h, -⟩ := aadd_chord ha hb hx
        simp [hx, h]
    · simp [aadd, ha, hb]
  · cases hb : b.inf <;> simp [aadd, ha, hb]

end Sys2Proof.Machine
end

