-- ==== Sys2Proof/Laws/Scalar.lean ====
section
/-! SUPPORT. What the functions of the SMU can answer: none of them faults on what its command gives it, and a table has
the size of its windows. -/

namespace Sys2Proof.Machine

open Sys2Proof.Config

/-! ### The windows -/

theorem validWidth_cases {w : Byte} (h : validWidth w = true) : w = 1 ∨ w = 2 ∨ w = 4 ∨ w = 8 := by
  simpa [validWidth, or_assoc] using h

/-- One window of the recoding (R235): the window's value is the digit plus `2^W` times the carry. -/
theorem digit_carry (W v : Nat) (hW : 1 ≤ W) :
    (v : Int) = digit W v + 2 ^ W * carryOn W v ∧ -(windowSize W : Int) < digit W v ∧ digit W v ≤ windowSize W := by
  have hp : (2 : Nat) ^ W = 2 * windowSize W := by
    unfold windowSize
    rw [← pow_succ']; congr 1; omega
  have hpos : 0 < windowSize W := by unfold windowSize; positivity
  have hd : (v : Int) = ((v % 2 ^ W : Nat) : Int) + 2 ^ W * ((v / 2 ^ W : Nat) : Int) := by
    exact_mod_cast (Nat.mod_add_div v (2 ^ W)).symm
  have hlt : v % 2 ^ W < 2 * windowSize W := by rw [← hp]; exact Nat.mod_lt _ (by positivity)
  have hpz : (2 : Int) ^ W = 2 * windowSize W := by exact_mod_cast hp
  unfold digit carryOn
  split
  · refine ⟨?_, ?_, ?_⟩
    · push_cast at hd ⊢; linarith
    · rw [hpz]; omega
    · rw [hpz]; omega
  · exact ⟨hd, by omega, by omega⟩

/-- With a carry in, the rest of a value below `2^(W·k)` stays at most `2^(W·(k−1))`. -/
theorem carryOn_le (W v k : Nat) (hW : 1 ≤ W) (hv : v ≤ 2 ^ (W * (k + 1))) : carryOn W v ≤ 2 ^ (W * k) := by
  obtain ⟨h, h1, -⟩ := digit_carry W v hW
  have hpos : 0 < windowSize W := by unfold windowSize; positivity
  have hp : (2 : Nat) ^ W = 2 * windowSize W := by
    unfold windowSize
    rw [← pow_succ']; congr 1; omega
  by_contra hc
  have hc' : 2 ^ (W * k) + 1 ≤ carryOn W v := by omega
  have e : 2 ^ (W * (k + 1)) = 2 ^ W * 2 ^ (W * k) := by rw [← pow_add]; congr 1; ring
  have hm : 2 ^ W * (2 ^ (W * k) + 1) ≤ 2 ^ W * carryOn W v := Nat.mul_le_mul_left _ hc'
  have hz : (v : Int) = digit W v + ((2 ^ W * carryOn W v : Nat) : Int) := by push_cast; exact h
  rw [Nat.mul_add, ← e] at hm
  have : (2 ^ (W * (k + 1)) : Nat) + 2 ^ W ≤ 2 ^ W * carryOn W v := by linarith
  omega

/-- All a value of at most `2^(W·left)` can do in `left + 1` windows: nothing is left over (R235). -/
theorem wnafFrom_total (T : List Affine) (W left w v : Nat) (acc : Jacobian) (hW : 1 ≤ W) (hv : v ≤ 2 ^ (W * left)) :
    ∃ p, wnafFrom T W (left + 1) w v acc = .ok p := by
  induction left generalizing w v acc with
  | zero =>
    have hp : (2 : Nat) ^ W = 2 * windowSize W := by
      unfold windowSize
      rw [← pow_succ']; congr 1; omega
    have hpos : 0 < windowSize W := by unfold windowSize; positivity
    have h1 : v ≤ 1 := by simpa using hv
    have hc : carryOn W v = 0 := by
      unfold carryOn
      have hm : v % 2 ^ W = v := Nat.mod_eq_of_lt (by omega)
      rw [if_neg (by omega)]
      exact Nat.div_eq_of_lt (by omega)
    simp [wnafFrom, hc]
  | succ left ih =>
    rw [wnafFrom]
    exact ih _ _ _ (carryOn_le W v left hW hv)

/-- `wnaf` does not fault on a value below `2^B` (R235). -/
theorem wnaf_total (T : List Affine) {v : Nat} {w : Byte} (glv : Bool) (hw : validWidth w = true)
    (hv : v < 2 ^ (if glv then 128 else 256)) : ∃ p, wnaf T v w.toNat glv = .ok p := by
  unfold wnaf nwin
  apply wnafFrom_total
  · rcases validWidth_cases hw with rfl | rfl | rfl | rfl <;> decide
  · refine hv.le.trans (Nat.pow_le_pow_right (by omega) ?_)
    rcases validWidth_cases hw with rfl | rfl | rfl | rfl <;> cases glv <;> decide

/-! ### The split -/

/-- The quotients of the split are the nearest integers, doubled to stay in the integers (R224). -/
theorem nearest (a : Int) : 2 * ((a + n / 2) / n) * n - 2 * a ≤ n ∧ -(n : Int) ≤ 2 * ((a + n / 2) / n) * n - 2 * a := by
  have hn : (0 : Int) < n := by decide +kernel
  have h1 := Int.emod_add_mul_ediv (a + n / 2) n
  have h2 := Int.emod_nonneg (a + (n : Int) / 2) hn.ne'
  have h3 := Int.emod_lt_of_pos (a + (n : Int) / 2) hn
  have h4 : (n : Int) / 2 * 2 + 1 = n := by decide +kernel
  constructor <;> linarith

/-- Both magnitudes are below `2^128` (R225). -/
theorem split_small (k : Int) : (split k).1 < 2 ^ 128 ∧ (split k).2.1 < 2 ^ 128 := by
  obtain ⟨u1, l1⟩ := nearest (b2 * k)
  obtain ⟨u2, l2⟩ := nearest (negB1 * k)
  have hn : (0 : Int) < n := by decide +kernel
  have hdet : (a1 : Int) * b2 + negB1 * a2 = n := by decide +kernel
  have ha : (a1 : Int) + a2 < 2 ^ 128 * 2 := by decide +kernel
  have hb : (negB1 : Int) + b2 < 2 ^ 128 * 2 := by decide +kernel
  have pa1 : (0 : Int) < a1 := by decide +kernel
  have pa2 : (0 : Int) < a2 := by decide +kernel
  have pb1 : (0 : Int) < negB1 := by decide +kernel
  have pb2 : (0 : Int) < b2 := by decide +kernel
  have e1 : 2 * splitK1 k * n =
      -((2 * splitC1 k * n - 2 * (b2 * k)) * a1 + (2 * splitC2 k * n - 2 * (negB1 * k)) * a2) := by
    unfold splitK1; linear_combination (-2 * k) * hdet
  have hab : (a1 : Int) = b2 := by decide +kernel
  have e2 : 2 * splitK2 k * n =
      (2 * splitC1 k * n - 2 * (b2 * k)) * negB1 - (2 * splitC2 k * n - 2 * (negB1 * k)) * b2 := by
    unfold splitK2; ring
  change 2 * splitC1 k * n - 2 * (b2 * k) ≤ n at u1
  change -(n : Int) ≤ 2 * splitC1 k * n - 2 * (b2 * k) at l1
  change 2 * splitC2 k * n - 2 * (negB1 * k) ≤ n at u2
  change -(n : Int) ≤ 2 * splitC2 k * n - 2 * (negB1 * k) at l2
  generalize 2 * splitC1 k * (n : Int) - 2 * (b2 * k) = d1 at *
  generalize 2 * splitC2 k * (n : Int) - 2 * (negB1 * k) = d2 at *
  have q1 : |2 * splitK1 k| ≤ a1 + a2 := by
    have m1 := mul_le_mul_of_nonneg_right u1 pa1.le
    have m2 := mul_le_mul_of_nonneg_right l1 pa1.le
    have m3 := mul_le_mul_of_nonneg_right u2 pa2.le
    have m4 := mul_le_mul_of_nonneg_right l2 pa2.le
    rw [abs_le]
    constructor <;> refine le_of_mul_le_mul_right ?_ hn <;> linarith
  have q2 : |2 * splitK2 k| ≤ negB1 + b2 := by
    have m1 := mul_le_mul_of_nonneg_right u1 pb1.le
    have m2 := mul_le_mul_of_nonneg_right l1 pb1.le
    have m3 := mul_le_mul_of_nonneg_right u2 pb2.le
    have m4 := mul_le_mul_of_nonneg_right l2 pb2.le
    rw [abs_le]
    constructor <;> refine le_of_mul_le_mul_right ?_ hn <;> linarith
  rw [abs_le] at q1 q2
  simp only [split]
  constructor <;> omega

/-! ### The table -/

theorem multiples_length (p : Jacobian) (more : Nat) (b : Jacobian) : (multiples p more b).1.length = more + 1 := by
  induction more generalizing b with
  | zero => rfl
  | succ more ih => simp [multiples, ih]

theorem tableRows_length (h windows : Nat) (p : Jacobian) (hh : 0 < h) :
    (tableRows h windows p).length = windows * h := by
  induction windows generalizing p with
  | zero => simp [tableRows]
  | succ windows ih =>
    simp only [tableRows, List.length_append, multiples_length, ih]
    rw [Nat.add_mul]; omega

/-- All `table` can answer (R230): a list of the size of R232; its inversion never faults. -/
theorem table_total (Q : Affine) (W : Nat) (glv : Bool) :
    ∃ T, table Q W glv = .ok T ∧ T.length = nwin W glv * windowSize W := by
  obtain ⟨zi, h, hf⟩ := batchinv_spec P Laws.prime_P ((tableJacobian Q W glv).map fun p => modP (intOf p.Z)) (by
    intro a ha
    obtain ⟨p, -, rfl⟩ := List.mem_map.1 ha
    exact reduced_zero_or _)
  refine ⟨_, by simp only [table, h]; rfl, ?_⟩
  have hl : (tableJacobian Q W glv).length = nwin W glv * windowSize W :=
    tableRows_length _ _ _ (by unfold windowSize; positivity)
  have := hf.length_eq
  rw [List.length_map] at this
  rw [List.length_zipWith, ← this, min_self, hl]

/-! ### The multiplications -/

/-- `mulwWith` does not fault on a legal scalar and width. -/
theorem mulwWith_total (T : List Affine) {k : Int} {w : Byte} (glv : Bool) (hk : validScalar k = true)
    (hw : validWidth w = true) : ∃ a, mulwWith T k w.toNat glv = .ok a := by
  have hk' : 0 < k ∧ k < n := by simpa [validScalar] using hk
  have : ∃ p, mulwJacobian T k w.toNat glv = .ok p := by
    unfold mulwJacobian
    cases glv
    · have hn : n < 2 ^ 256 := by decide +kernel
      obtain ⟨p, hp⟩ := wnaf_total T (v := k.toNat) (w := w) false hw (by
        simp only [Bool.false_eq_true, if_false]
        generalize (2 : Nat) ^ 256 = B at *
        omega)
      exact ⟨p, by simpa using hp⟩
    · obtain ⟨p1, h1⟩ := wnaf_total T (w := w) true hw (by simpa using (split_small k).1)
      obtain ⟨p2, h2⟩ := wnaf_total T (w := w) true hw (by simpa using (split_small k).2)
      simp [h1, h2]
  obtain ⟨p, hp⟩ := this
  obtain ⟨a, ha, -⟩ := jtoa_total p
  exact ⟨a, by simp [mulwWith, hp, ha]⟩

/-- `mulw` does not fault on a legal scalar and width. -/
theorem mulw_total (Q : Affine) {k : Int} {w : Byte} (glv : Bool) (hk : validScalar k = true)
    (hw : validWidth w = true) : ∃ a, mulw Q k w.toNat glv = .ok a := by
  obtain ⟨T, hT, -⟩ := table_total Q w.toNat glv
  obtain ⟨a, ha⟩ := mulwWith_total T glv hk hw
  exact ⟨a, by simp [mulw, hT, ha]⟩

/-- `mulu` never faults. -/
theorem mulu_total (Q : Affine) (k : Int) : ∃ a, mulu Q k = .ok a := by
  obtain ⟨a, ha, -⟩ := jtoa_total (muluLoop k.toNat J0 (jfroma Q) k.toNat)
  exact ⟨a, ha⟩

/-! ### The cache -/

theorem hit_iff (t : Table) (Q : Affine) (w : Byte) (glv : Bool) :
    t.hit Q w glv = true ↔ t.valid = true ∧ t.x = Q.x ∧ t.y = Q.y ∧ t.W = w ∧ t.glv = glv := by
  simp [Table.hit, and_assoc]

/-- All a lookup can answer: the cache on a hit, a table of the new tag on a miss; it never faults. -/
theorem fill_cases (t : Table) (Q : Affine) (w : Byte) (glv : Bool) :
    (t.hit Q w glv = true ∧ t.fill Q w glv = .ok t) ∨
      (t.hit Q w glv = false ∧ ∃ T, table Q w.toNat glv = .ok T ∧
        t.fill Q w glv = .ok ⟨true, Q.x, Q.y, w, glv, T⟩) := by
  cases h : t.hit Q w glv
  · obtain ⟨T, hT, -⟩ := table_total Q w.toNat glv
    exact .inr ⟨rfl, T, hT, by simp [Table.fill, h, hT]⟩
  · exact .inl ⟨rfl, by simp [Table.fill, h]⟩

end Sys2Proof.Machine
end

