-- ==== Sys2Proof/Laws/Sponge.lean ====
section
/-! SUPPORT. What the sponge operations do, in bytes of the block. -/

namespace Sys2Proof.Machine

/-- Byte `j` of a buffer. -/
def bufferByte (blk : Vector Word 34) (j : Fin 136) : Byte := wordByte blk[j.val / 4] (j.val % 4)

theorem blkByte_eq (s : State) (j : Fin 136) : s.blkByte j = bufferByte s.BLK j := rfl

theorem wordByte_or_shift (w : Word) (b : Byte) (i j : Nat) (hi : i < 4) (hj : j < 4) :
    wordByte (w ||| (b.setWidth 32 <<< (8 * i))) j = if j = i then wordByte w j ||| b else wordByte w j := by
  apply BitVec.eq_of_getLsbD_eq
  intro k hk
  have h32 : 8 * j + k < 32 := by omega
  rcases lt_trichotomy j i with h | h | h
  · have hlt : 8 * j + k < 8 * i := by omega
    simp [wordByte, hk, h.ne, hlt]
  · subst h
    simp [wordByte, hk, h32]
  · have hb : b.getLsbD (8 * j + k - 8 * i) = false := BitVec.getLsbD_of_ge _ _ (by omega)
    simp [wordByte, hk, h.ne', hb]

/-- Putting a byte into the buffer changes that byte and no other (R110). -/
theorem bufferByte_orByte (blk : Vector Word 34) (pos j : Fin 136) (b : Byte) :
    bufferByte (orByte blk pos b) j = if j = pos then bufferByte blk j ||| b else bufferByte blk j := by
  unfold bufferByte orByte
  have hp := Nat.mod_lt pos.val (show 4 > 0 by omega)
  have hj := Nat.mod_lt j.val (show 4 > 0 by omega)
  simp only [Fin.getElem_fin]
  rw [Vector.getElem_set]
  by_cases hw : pos.val / 4 = j.val / 4
  · rw [if_pos hw, wordByte_or_shift _ _ _ _ hp hj]
    simp only [hw]
    by_cases hm : j.val % 4 = pos.val % 4
    · rw [if_pos hm, if_pos (Fin.ext (by omega))]
    · rw [if_neg hm, if_neg (fun h => hm (by rw [h]))]
  · rw [if_neg hw, if_neg (fun h => hw (by rw [h]))]

/-- Two buffers with equal bytes are equal. -/
theorem buffer_ext {a b : Vector Word 34} (h : ∀ j, bufferByte a j = bufferByte b j) : a = b := by
  apply Vector.ext
  intro i hi
  apply BitVec.eq_of_getLsbD_eq
  intro k hk
  have h0 := h ⟨4 * i, by omega⟩
  have h1 := h ⟨4 * i + 1, by omega⟩
  have h2 := h ⟨4 * i + 2, by omega⟩
  have h3 := h ⟨4 * i + 3, by omega⟩
  simp only [bufferByte, wordByte, show (4 * i) / 4 = i by omega, show (4 * i + 1) / 4 = i by omega,
    show (4 * i + 2) / 4 = i by omega, show (4 * i + 3) / 4 = i by omega, show (4 * i) % 4 = 0 by omega,
    show (4 * i + 1) % 4 = 1 by omega, show (4 * i + 2) % 4 = 2 by omega, show (4 * i + 3) % 4 = 3 by omega] at h0 h1 h2 h3
  have q : k < 8 ∨ (8 ≤ k ∧ k < 16) ∨ (16 ≤ k ∧ k < 24) ∨ (24 ≤ k ∧ k < 32) := by omega
  rcases q with q | q | q | q
  · simpa [q] using congrArg (fun v => v.getLsbD k) h0
  · simpa [show k - 8 < 8 by omega, show 8 + (k - 8) = k by omega] using congrArg (fun v => v.getLsbD (k - 8)) h1
  · simpa [show k - 16 < 8 by omega, show 16 + (k - 16) = k by omega] using congrArg (fun v => v.getLsbD (k - 16)) h2
  · simpa [show k - 24 < 8 by omega, show 24 + (k - 24) = k by omega] using congrArg (fun v => v.getLsbD (k - 24)) h3

@[simp] theorem bufferByte_zero (j : Fin 136) : bufferByte (Vector.replicate 34 0#32) j = 0#8 := by
  simp [bufferByte, wordByte]

/-! ### kclear -/

@[simp] theorem kclear_blkByte (s : State) (j : Fin 136) : (kclear s).blkByte j = s.liveByte j := by
  unfold kclear State.liveByte
  split <;> simp [blkByte_eq]

/-- All `kclear` can do (R109): the live bytes become the buffer, which is live from then on. -/
theorem kclear_eq (s : State) : kclear s = { s with BLK := (kclear s).BLK, KRST := false } := by
  unfold kclear
  split
  · rfl
  · rename_i h
    have h : s.KRST = false := by simpa using h
    cases s
    cases h
    rfl

/-! ### The absorb steps -/

theorem xorBlock_low (S : Vector Word 50) (blk : Vector Word 34) (i : Nat) (h : i < 34) :
    (xorBlock S blk)[i] = S[i] ^^^ blk[i] := by
  simp [xorBlock, h]

theorem xorBlock_high (S : Vector Word 50) (blk : Vector Word 34) (i : Nat) (h : 34 ≤ i) (h' : i < 50) :
    (xorBlock S blk)[i] = S[i] := by
  simp [xorBlock, show ¬ i < 34 by omega]

theorem nextCursor_some {pos : Fin 136} (h : pos.val < 135) : nextCursor pos = some ⟨pos.val + 1, by omega⟩ := by
  simp [nextCursor]; omega

theorem nextCursor_none {pos : Fin 136} (h : pos.val = 135) : nextCursor pos = none := by
  simp [nextCursor, h]

/-- A byte that does not fill the block (R110). -/
theorem absorbByte_some (b : Byte) (s : State) (h : s.KPOS.val < 135) :
    ∃ blk, absorbByte b s = { s with BLK := blk, KPOS := ⟨s.KPOS.val + 1, by omega⟩, KRST := false } ∧
      ∀ j, bufferByte blk j = if j = s.KPOS then s.liveByte j ||| b else s.liveByte j := by
  refine ⟨orByte (kclear s).BLK s.KPOS b, ?_, fun j => ?_⟩
  · have hk : (kclear s).KPOS = s.KPOS := by rw [kclear_eq]
    unfold absorbByte
    simp only [hk, nextCursor_some h]
    rw [kclear_eq s]
  · rw [bufferByte_orByte, ← blkByte_eq, kclear_blkByte]

/-- The byte that fills the block (R110). -/
theorem absorbByte_none (b : Byte) (s : State) (h : s.KPOS.val = 135) :
    ∃ blk, absorbByte b s = { s with S := f1600 (xorBlock s.S blk), BLK := blk, KPOS := 0, KRST := true } ∧
      ∀ j, bufferByte blk j = if j = s.KPOS then s.liveByte j ||| b else s.liveByte j := by
  refine ⟨orByte (kclear s).BLK s.KPOS b, ?_, fun j => ?_⟩
  · have hk : (kclear s).KPOS = s.KPOS := by rw [kclear_eq]
    unfold absorbByte
    simp only [hk, nextCursor_none h, absorbBlock]
    rw [kclear_eq s]
  · rw [bufferByte_orByte, ← blkByte_eq, kclear_blkByte]

/-- A byte changes the sponge and nothing else. -/
theorem absorbByte_frame (b : Byte) (s : State) :
    ∃ S blk k r, absorbByte b s = { s with S := S, BLK := blk, KPOS := k, KRST := r } := by
  by_cases h : s.KPOS.val < 135
  · obtain ⟨blk, e, -⟩ := absorbByte_some b s h
    exact ⟨_, _, _, _, e⟩
  · obtain ⟨blk, e, -⟩ := absorbByte_none b s (by omega)
    exact ⟨_, _, _, _, e⟩

/-- Four bytes change the sponge and nothing else. -/
theorem absorbWord_frame (w : Word) (s : State) :
    ∃ S blk k r, absorbWord w s = { s with S := S, BLK := blk, KPOS := k, KRST := r } := by
  unfold absorbWord
  obtain ⟨S0, b0, k0, r0, e0⟩ := absorbByte_frame (wordByte w 0) s
  rw [e0]
  obtain ⟨S1, b1, k1, r1, e1⟩ := absorbByte_frame (wordByte w 1) { s with S := S0, BLK := b0, KPOS := k0, KRST := r0 }
  rw [e1]
  obtain ⟨S2, b2, k2, r2, e2⟩ := absorbByte_frame (wordByte w 2) { s with S := S1, BLK := b1, KPOS := k1, KRST := r1 }
  rw [e2]
  obtain ⟨S3, b3, k3, r3, e3⟩ := absorbByte_frame (wordByte w 3) { s with S := S2, BLK := b2, KPOS := k2, KRST := r2 }
  exact ⟨S3, b3, k3, r3, e3⟩

/-- All the padding does (R112): the bytes `0x01` at the cursor and `0x80` at position 135, then the last block. -/
theorem padAndFinish_eq (s : State) :
    ∃ blk, padAndFinish s =
        { s with S := f1600 (xorBlock s.S blk), BLK := blk, KPOS := 0, KRST := true, KPHASE := .done } ∧
      ∀ j, bufferByte blk j =
        (if j = s.KPOS then s.liveByte j ||| 0x01 else s.liveByte j) ||| (if j = 135 then 0x80 else 0) := by
  refine ⟨orByte (orByte (kclear s).BLK s.KPOS 0x01) 135 0x80, ?_, fun j => ?_⟩
  · unfold padAndFinish absorbBlock kclear
    split <;> rfl
  · rw [bufferByte_orByte, bufferByte_orByte, ← blkByte_eq, kclear_blkByte]
    split <;> simp

/-- All the phase check can answer (R115). -/
theorem inAbsorb_cases (s : State) (f : State → State) :
    (s.KPHASE = .absorb ∧ inAbsorb s f = .ok (f s)) ∨ (s.KPHASE ≠ .absorb ∧ inAbsorb s f = .error .sequence) := by
  by_cases h : s.KPHASE = .absorb <;> simp [inAbsorb, h]

end Sys2Proof.Machine
end

