-- ==== Sys2Proof/Laws/Exec.lean ====
section
/-! SUPPORT. Every command ends in one of two ways: its writes and the normal end, or one fault. The writes of each
command are named, so that a proof over all commands splits on them once. -/

namespace Sys2Proof.Machine

open Sys2Proof.Config

/-- The writes of a command started in `s`, or the fault it raises. -/
def effect (i : Instr) (s : State) : Except CmdFault State :=
  match i with
  | .cNop => .ok s
  | .cClrerr => .ok { s with ERRSTICKY := 0 }
  | .cWipe => .ok (wipe s)
  | .cTblinv => .ok { s with TBL := { s.TBL with valid := false } }
  | .kInit => .ok (startHash s)
  | .kAbsorb imm => inAbsorb s (absorbByte imm)
  | .kAbsorbw => inAbsorb s (absorbWord s.KDIN)
  | .kFinal => inAbsorb s padAndFinish
  | .kPerm => .ok { s with S := f1600 s.S }
  | .fRed rd ra m => .ok (s.setFr rd (mod (s.fr ra) (modulus m)))
  | .fAdd rd ra rb m => .ok (s.setFr rd (mod (s.fr ra + s.fr rb) (modulus m)))
  | .fSub rd ra rb m => .ok (s.setFr rd (mod (s.fr ra - s.fr rb) (modulus m)))
  | .fMul rd ra rb m => .ok (s.setFr rd (mod (s.fr ra * s.fr rb) (modulus m)))
  | .fPow rd ra rb m => .ok (s.setFr rd (modpow (s.fr ra) (s.fr rb).toNat (modulus m)))
  | .fInv rd ra m => inverseInto rd ra m s
  | .fBinv ra m count => batchInverseAt ra m count s
  | .jDbl rd ra => .ok (s.putJp rd (jdbl (s.jp ra)))
  | .jAdd rd ra rb => .ok (s.putJp rd (jadd (s.jp ra) (s.jp rb)))
  | .jNeg rd ra => .ok (s.putJp rd (jneg (s.jp ra)))
  | .jEq ra rb => .ok (s.setEq (jeq (s.jp ra) (s.jp rb)))
  | .jFroma rd ra => .ok ((s.setJp rd (jfroma (s.ap ra))).setInf (s.ap ra).inf)
  | .jToa rd ra => affineInto rd s (jtoa (s.jp ra))
  | .jEndo rd ra => .ok (s.putJp rd (jendo (s.jp ra)))
  | .aAdd rd ra rb => affineInto rd s (aadd (s.ap ra) (s.ap rb))
  | .aDbl rd ra => affineInto rd s (adbl (s.ap ra))
  | .aNeg rd ra => .ok (s.putAp rd (aneg (s.ap ra)))
  | .aEq ra rb => .ok (s.setEq (aeq (s.ap ra) (s.ap rb)))
  | .aValid ra => .ok (s.setCurveTests (dualvalid (s.ap ra)) (oncurve (s.ap ra)))
  | .aDecomp rd ra m => decompInto rd ra m s
  | .aLdg rd => .ok ((s.setAp rd basePoint).setInf false)
  | .sSplit rd ra => splitInto rd ra s
  | .sPrecomp ra m w => precompute ra m w s
  | .sMul rd ra rb m w => multiplyInto rd ra rb m w s
  | .sMulu rd ra rb => plainMultiplyInto rd ra rb s

/-- A command is its writes and the end of a command. -/
theorem exec_eq (i : Instr) (s : State) : exec i s = endCommand s (effect i s) := by cases i <;> rfl

/-- All a command can answer (60_exceptions.md R272, R273). -/
theorem exec_cases {i : Instr} {s t : State} (h : exec i s = .next t) :
    (∃ u, effect i s = .ok u ∧ t = normalEnd u) ∨ (∃ c, effect i s = .error c ∧ t = takeFault c s) := by
  rw [exec_eq] at h
  exact endCommand_next.1 h

theorem exec_total (i : Instr) (s : State) : ∃ t, exec i s = .next t := by
  rw [exec_eq]; exact endCommand_total _ _

/-! ### The writes of the commands that may fault -/

/-- All `F_INV` can do (41_field.md R150). -/
theorem inverseInto_cases (rd ra : FrNum) (m : Bool) (s : State) :
    (mod (s.fr ra) (modulus m) ≠ 0 ∧ ∃ v, inverseInto rd ra m s = .ok (s.setFr rd v) ∧ 0 ≤ v ∧ v < modulus m ∧
        mod (s.fr ra * v) (modulus m) = 1) ∨
      (mod (s.fr ra) (modulus m) = 0 ∧ inverseInto rd ra m s = .error .notInvertible) := by
  unfold inverseInto
  rcases modinv_prime (s.fr ra) (modulus m) (modulus_prime m) with ⟨h, v, e, r⟩ | ⟨h, e⟩
  · exact .inl ⟨h, v, by rw [e], r⟩
  · exact .inr ⟨h, by rw [e]⟩

/-- All `F_BINV` can do (R151): with a good count it never faults. -/
theorem batchInverseAt_cases (ra : FrNum) (m : Bool) (count : Byte) (s : State) :
    (validBatch ra count = true ∧ ∃ out, batchInverseAt ra m count s = .ok { s with FR := setRun s.FR ra.val out } ∧
        List.Forall₂ (fun (a v : Int) => (a = 0 ∧ v = 0) ∨ (a ≠ 0 ∧ 0 ≤ v ∧ v < modulus m ∧ mod (a * v) (modulus m) = 1))
          ((s.frRun ra count.toNat).map fun v => mod v (modulus m)) out) ∨
      (validBatch ra count = false ∧ batchInverseAt ra m count s = .error .illegal) := by
  unfold batchInverseAt
  cases h : validBatch ra count
  · exact .inr ⟨rfl, rfl⟩
  · obtain ⟨out, e, f⟩ := batchinv_spec (modulus m) (modulus_prime m)
      ((s.frRun ra count.toNat).map fun v => mod v (modulus m)) (by
        intro a ha
        obtain ⟨v, -, rfl⟩ := List.mem_map.1 ha
        exact reduced_zero_or _)
    exact .inl ⟨rfl, out, by simp [e], f⟩

/-- All a command with an affine result can do. -/
theorem affineInto_cases (rd : PtNum) (s : State) (r : Except CmdFault Affine) :
    (∃ a, r = .ok a ∧ affineInto rd s r = .ok (s.putAp rd a)) ∨ (∃ c, r = .error c ∧ affineInto rd s r = .error c) := by
  cases r <;> simp [affineInto]

/-- All `A_DECOMP` can do (42_point.md R196). -/
theorem decompInto_cases (rd : PtNum) (ra : FrNum) (m : Bool) (s : State) :
    (∃ a, decomp (s.fr ra) m = .ok a ∧ decompInto rd ra m s = .ok ((s.setAp rd a).setInf false)) ∨
      (decomp (s.fr ra) m = .error .pointNotOnCurve ∧ decompInto rd ra m s = .error .pointNotOnCurve) := by
  unfold decompInto
  have h : (∃ a, decomp (s.fr ra) m = .ok a) ∨ decomp (s.fr ra) m = .error .pointNotOnCurve := by
    unfold decomp
    dsimp only
    split_ifs <;> simp
  rcases h with ⟨a, h⟩ | h
  · exact .inl ⟨a, h, by rw [h]⟩
  · exact .inr ⟨h, by rw [h]⟩

/-- All `S_SPLIT` can do (43_scalar.md R226). -/
theorem splitInto_cases (rd ra : FrNum) (s : State) :
    (∃ h : rd.val + 1 < 16, validScalar (s.fr ra) = true ∧ splitInto rd ra s =
        .ok (((s.setFr rd (split (s.fr ra)).1).setFr ⟨rd.val + 1, h⟩ (split (s.fr ra)).2.1).setHalfSigns
          (split (s.fr ra)).2.2.1 (split (s.fr ra)).2.2.2)) ∨
      (rd.val + 1 < 16 ∧ validScalar (s.fr ra) = false ∧ splitInto rd ra s = .error .invalidScalar) ∨
      (¬ rd.val + 1 < 16 ∧ splitInto rd ra s = .error .illegal) := by
  unfold splitInto
  by_cases h : rd.val + 1 < 16
  · cases hk : validScalar (s.fr ra)
    · exact .inr (.inl ⟨h, rfl, by simp [h]⟩)
    · exact .inl ⟨h, rfl, by simp [h]⟩
  · exact .inr (.inr ⟨h, by simp [h]⟩)

/-- All `S_PRECOMP` can do (43_scalar.md R233). -/
theorem precompute_cases (ra : PtNum) (m : Bool) (w : Byte) (s : State) :
    (validWidth w = true ∧ oncurve (s.ap ra) = true ∧ ∃ t, s.TBL.fill (s.ap ra) w m = .ok t ∧
        precompute ra m w s = .ok { s with TBL := t }) ∨
      (validWidth w = true ∧ oncurve (s.ap ra) = false ∧ precompute ra m w s = .error .pointNotOnCurve) ∨
      (validWidth w = false ∧ precompute ra m w s = .error .illegal) := by
  unfold precompute
  cases hw : validWidth w
  · simp
  · cases ho : oncurve (s.ap ra)
    · simp
    · rcases fill_cases s.TBL (s.ap ra) w m with ⟨-, e⟩ | ⟨-, T, -, e⟩ <;> simp [e]

/-- All `S_MUL` can do (43_scalar.md R237). -/
theorem multiplyInto_cases (rd ra : PtNum) (rb : FrNum) (m : Bool) (w : Byte) (s : State) :
    (validWidth w = true ∧ validScalar (s.fr rb) = true ∧ oncurve (s.ap ra) = true ∧
        ∃ a t, s.TBL.fill (s.ap ra) w m = .ok t ∧ mulwWith t.T (s.fr rb) w.toNat m = .ok a ∧
          multiplyInto rd ra rb m w s =
            .ok ((({ s with TBL := t }.setAp rd a).setInf false).setTblHit (s.TBL.hit (s.ap ra) w m))) ∨
      (validWidth w = true ∧ validScalar (s.fr rb) = true ∧ oncurve (s.ap ra) = false ∧
        multiplyInto rd ra rb m w s = .error .pointNotOnCurve) ∨
      (validWidth w = true ∧ validScalar (s.fr rb) = false ∧ multiplyInto rd ra rb m w s = .error .invalidScalar) ∨
      (validWidth w = false ∧ multiplyInto rd ra rb m w s = .error .illegal) := by
  unfold multiplyInto
  cases hw : validWidth w
  · simp
  · cases hk : validScalar (s.fr rb)
    · simp
    · cases ho : oncurve (s.ap ra)
      · simp
      · have key : ∀ t, s.TBL.fill (s.ap ra) w m = .ok t → ∃ a, mulwWith t.T (s.fr rb) w.toNat m = .ok a ∧
            cachedMul s.TBL (s.ap ra) (s.fr rb) m w = .ok (a, t) := by
          intro t ht
          obtain ⟨a, ha⟩ := mulwWith_total t.T m hk hw
          exact ⟨a, ha, by simp [cachedMul, ht, ha]⟩
        have hf : ∃ t, s.TBL.fill (s.ap ra) w m = .ok t := by
          rcases fill_cases s.TBL (s.ap ra) w m with ⟨-, e⟩ | ⟨-, T, -, e⟩ <;> exact ⟨_, e⟩
        obtain ⟨t, ht⟩ := hf
        obtain ⟨a, ha, hc⟩ := key t ht
        exact .inl ⟨rfl, rfl, rfl, a, t, ht, ha, by simp [hc]⟩

/-- All `S_MULU` can do (43_scalar.md R239). -/
theorem plainMultiplyInto_cases (rd ra : PtNum) (rb : FrNum) (s : State) :
    (validScalar (s.fr rb) = true ∧ oncurve (s.ap ra) = true ∧ ∃ a, mulu (s.ap ra) (s.fr rb) = .ok a ∧
        plainMultiplyInto rd ra rb s = .ok ((s.setAp rd a).setInf false)) ∨
      (validScalar (s.fr rb) = true ∧ oncurve (s.ap ra) = false ∧
        plainMultiplyInto rd ra rb s = .error .pointNotOnCurve) ∨
      (validScalar (s.fr rb) = false ∧ plainMultiplyInto rd ra rb s = .error .invalidScalar) := by
  unfold plainMultiplyInto
  cases hk : validScalar (s.fr rb)
  · simp
  · cases ho : oncurve (s.ap ra)
    · simp
    · obtain ⟨a, ha⟩ := mulu_total (s.ap ra) (s.fr rb)
      exact .inl ⟨rfl, rfl, a, ha, by simp [ha]⟩

end Sys2Proof.Machine
end

