-- ==== Sys2Proof/Laws/PerInstr.lean ====
section
/-! SUPPORT. The family OpcodeByte: the top byte of a command's word is the opcode of its row (30_encoding.md R81, R84).
One lemma for each constructor. -/

namespace Sys2Proof.Laws.OpcodeByte

/-- What is said of each command. -/
def Statement (i : Instr) : Prop := opField (encode i) = i.opcode.code

theorem cNop : Statement (.cNop) := opField_packWord ..

theorem cClrerr : Statement (.cClrerr) := opField_packWord ..

theorem cWipe : Statement (.cWipe) := opField_packWord ..

theorem cTblinv : Statement (.cTblinv) := opField_packWord ..

theorem kInit : Statement (.kInit) := opField_packWord ..

theorem kAbsorb (imm : Byte) : Statement (.kAbsorb imm) := opField_packWord ..

theorem kAbsorbw : Statement (.kAbsorbw) := opField_packWord ..

theorem kFinal : Statement (.kFinal) := opField_packWord ..

theorem kPerm : Statement (.kPerm) := opField_packWord ..

theorem fRed (rd ra : FrNum) (m : Bool) : Statement (.fRed rd ra m) := opField_packWord ..

theorem fAdd (rd ra rb : FrNum) (m : Bool) : Statement (.fAdd rd ra rb m) := opField_packWord ..

theorem fSub (rd ra rb : FrNum) (m : Bool) : Statement (.fSub rd ra rb m) := opField_packWord ..

theorem fMul (rd ra rb : FrNum) (m : Bool) : Statement (.fMul rd ra rb m) := opField_packWord ..

theorem fPow (rd ra rb : FrNum) (m : Bool) : Statement (.fPow rd ra rb m) := opField_packWord ..

theorem fInv (rd ra : FrNum) (m : Bool) : Statement (.fInv rd ra m) := opField_packWord ..

theorem fBinv (ra : FrNum) (m : Bool) (count : Byte) : Statement (.fBinv ra m count) := opField_packWord ..

theorem jDbl (rd ra : PtNum) : Statement (.jDbl rd ra) := opField_packWord ..

theorem jAdd (rd ra rb : PtNum) : Statement (.jAdd rd ra rb) := opField_packWord ..

theorem jNeg (rd ra : PtNum) : Statement (.jNeg rd ra) := opField_packWord ..

theorem jEq (ra rb : PtNum) : Statement (.jEq ra rb) := opField_packWord ..

theorem jFroma (rd ra : PtNum) : Statement (.jFroma rd ra) := opField_packWord ..

theorem jToa (rd ra : PtNum) : Statement (.jToa rd ra) := opField_packWord ..

theorem jEndo (rd ra : PtNum) : Statement (.jEndo rd ra) := opField_packWord ..

theorem aAdd (rd ra rb : PtNum) : Statement (.aAdd rd ra rb) := opField_packWord ..

theorem aDbl (rd ra : PtNum) : Statement (.aDbl rd ra) := opField_packWord ..

theorem aNeg (rd ra : PtNum) : Statement (.aNeg rd ra) := opField_packWord ..

theorem aEq (ra rb : PtNum) : Statement (.aEq ra rb) := opField_packWord ..

theorem aValid (ra : PtNum) : Statement (.aValid ra) := opField_packWord ..

theorem aDecomp (rd : PtNum) (ra : FrNum) (m : Bool) : Statement (.aDecomp rd ra m) := opField_packWord ..

theorem aLdg (rd : PtNum) : Statement (.aLdg rd) := opField_packWord ..

theorem sSplit (rd ra : FrNum) : Statement (.sSplit rd ra) := opField_packWord ..

theorem sPrecomp (ra : PtNum) (m : Bool) (w : Byte) : Statement (.sPrecomp ra m w) := opField_packWord ..

theorem sMul (rd ra : PtNum) (rb : FrNum) (m : Bool) (w : Byte) : Statement (.sMul rd ra rb m w) := opField_packWord ..

theorem sMulu (rd ra : PtNum) (rb : FrNum) : Statement (.sMulu rd ra rb) := opField_packWord ..

end Sys2Proof.Laws.OpcodeByte
end

