-- ==== Sys2Proof/Tests/Slice0.lean ====
section
/-! SUPPORT. Tests. Expected results are the spec's: the examples that stand with the rules, the encoding examples of R90,
the relations of R7, and the generating definitions of R103 and R104. The witness of each statement that has hypotheses is
a named theorem `witness_<its name>`. -/

namespace Sys2Proof.Tests

set_option Elab.async false -- the evaluations of this file one after another: each holds a thread while it waits

open Sys2Proof.Config
open Sys2Proof.Machine

/-- The next state, if there is one. -/
def next? (o : Host.Outcome State Fault Refusal) : Option State :=
  match o with
  | .next t => some t
  | .fault _ => none
  | .refused _ => none

/-- One step on the state with the command word `w` written to `CMD`, and a check of the state after it. -/
def after (s : State) (w : Nat) (p : State → Bool) : Bool :=
  match next? (step (s.withFetchWord 32 w)) with
  | some t => p t
  | none => false

/-- One step with one host access pending, and a check of the state after it. -/
def access (s : State) (e : HostEvent) (p : State → Bool) : Bool :=
  match next? (step { s with pending := [e] }) with
  | some t => p t
  | none => false

/-- The reset state with `FR[0]`, `FR[1]` and `FR[2]` loaded. -/
def withFr (a b c : Nat) : State :=
  { State.reset with FR := ((State.reset.FR.set 0 (BitVec.ofNat 256 a)).set 1 (BitVec.ofNat 256 b)).set 2 (BitVec.ofNat 256 c) }

/-- The reset state with `AP[0]` and `AP[1]` loaded, both finite, and a scalar in `FR[0]`. -/
def withAp (x0 y0 x1 y1 k : Nat) : State :=
  ((withFr k 0 0).setAp 0 ⟨BitVec.ofNat 256 x0, BitVec.ofNat 256 y0, false⟩).setAp 1
    ⟨BitVec.ofNat 256 x1, BitVec.ofNat 256 y1, false⟩

/-- The reset state with `JP[0]` and `JP[1]` loaded. -/
def withJp (x0 y0 z0 x1 y1 z1 : Nat) : State :=
  (State.reset.setJp 0 ⟨BitVec.ofNat 256 x0, BitVec.ofNat 256 y0, BitVec.ofNat 256 z0⟩).setJp 1
    ⟨BitVec.ofNat 256 x1, BitVec.ofNat 256 y1, BitVec.ofNat 256 z1⟩

/-- The numbers of an `FR` register. -/
def frIs (r : FrNum) (v : Nat) (t : State) : Bool := t.FR[r].toNat == v && t.ERRCODE == 0

/-- The coordinates of a finite `AP` register. -/
def apIs (r : PtNum) (x y : Nat) (t : State) : Bool :=
  t.AP[r].x.toNat == x && t.AP[r].y.toNat == y && !t.AP[r].inf && t.ERRCODE == 0

/-- The coordinates of a `JP` register, and the flag `INF`. -/
def jpIs (r : PtNum) (x y z : Nat) (inf : Bool) (t : State) : Bool :=
  t.JP[r].X.toNat == x && t.JP[r].Y.toNat == y && t.JP[r].Z.toNat == z && t.FLAGS.INF == inf && t.ERRCODE == 0

/-- A command that faulted with this code and sticky mask. -/
def faulted (c : Nat) (m : Nat) (t : State) : Bool := t.ERRCODE.toNat == c && t.ERRSTICKY.toNat == m

/-! ### Well-formedness: each check refuses an ill-formed term (R85) -/

theorem test_wf_batch_count_zero : (Instr.fBinv 4 false 0).wellFormed = false := by decide
theorem test_wf_batch_past_the_end : (Instr.fBinv 15 false 2).wellFormed = false := by decide
theorem test_wf_batch_to_the_end : (Instr.fBinv 15 false 1).wellFormed = true := by decide
theorem test_wf_split_pair : (Instr.sSplit 15 0).wellFormed = false := by decide
theorem test_wf_split_last_pair : (Instr.sSplit 14 0).wellFormed = true := by decide
theorem test_wf_precomp_width : (Instr.sPrecomp 0 true 3).wellFormed = false := by decide
theorem test_wf_mul_width : (Instr.sMul 1 0 0 true 16).wellFormed = false := by decide
theorem test_wf_all_widths : ∀ w ∈ [1, 2, 4, 8], (Instr.sMul 1 0 0 true w).wellFormed = true := by decide

/-! ### Decoding: words written out from R81, R82, R84; the examples beside each rule -/

theorem test_decode_system_nop : decode 0x00000000 = .ok (.cNop) := by decide
theorem test_decode_system_clrerr : decode 0x01000000 = .ok (.cClrerr) := by decide
theorem test_decode_system_wipe : decode 0x02000000 = .ok (.cWipe) := by decide
theorem test_decode_system_tblinv : decode 0x03000000 = .ok (.cTblinv) := by decide
theorem test_decode_kse_init : decode 0x10000000 = .ok (.kInit) := by decide
theorem test_decode_kse_absorb : decode 0x110000FF = .ok (.kAbsorb 0xFF) := by decide
theorem test_decode_kse_absorbw : decode 0x12000000 = .ok (.kAbsorbw) := by decide
theorem test_decode_kse_final : decode 0x13000000 = .ok (.kFinal) := by decide
theorem test_decode_kse_perm : decode 0x14000000 = .ok (.kPerm) := by decide
theorem test_decode_fau_red_n : decode 0x20100100 = .ok (.fRed 1 0 true) := by decide
theorem test_decode_fau_add : decode 0x21201000 = .ok (.fAdd 2 0 1 false) := by decide
theorem test_decode_fau_sub : decode 0x22210000 = .ok (.fSub 2 1 0 false) := by decide
theorem test_decode_fau_mul_n : decode 0x23201100 = .ok (.fMul 2 0 1 true) := by decide
theorem test_decode_fau_pow_last_registers : decode 0x24FED100 = .ok (.fPow 15 14 13 true) := by decide
theorem test_decode_fau_inv : decode 0x25100000 = .ok (.fInv 1 0 false) := by decide
theorem test_decode_fau_binv : decode 0x26040003 = .ok (.fBinv 4 false 3) := by decide
theorem test_decode_pau_jdbl : decode 0x30100000 = .ok (.jDbl 1 0) := by decide
theorem test_decode_pau_jadd : decode 0x31210000 = .ok (.jAdd 2 1 0) := by decide
theorem test_decode_pau_jneg : decode 0x32100000 = .ok (.jNeg 1 0) := by decide
theorem test_decode_pau_jeq : decode 0x33001000 = .ok (.jEq 0 1) := by decide
theorem test_decode_pau_jfroma : decode 0x34320000 = .ok (.jFroma 3 2) := by decide
theorem test_decode_pau_jtoa : decode 0x35120000 = .ok (.jToa 1 2) := by decide
theorem test_decode_pau_jendo : decode 0x36100000 = .ok (.jEndo 1 0) := by decide
theorem test_decode_pau_aadd : decode 0x38201000 = .ok (.aAdd 2 0 1) := by decide
theorem test_decode_pau_adbl : decode 0x39100000 = .ok (.aDbl 1 0) := by decide
theorem test_decode_pau_aneg : decode 0x3A100000 = .ok (.aNeg 1 0) := by decide
theorem test_decode_pau_aeq : decode 0x3B012000 = .ok (.aEq 1 2) := by decide
theorem test_decode_pau_avalid : decode 0x3C030000 = .ok (.aValid 3) := by decide
theorem test_decode_pau_adecomp_odd : decode 0x3D100100 = .ok (.aDecomp 1 0 true) := by decide
theorem test_decode_pau_adecomp_f15 : decode 0x3D3F0000 = .ok (.aDecomp 3 15 false) := by decide
theorem test_decode_pau_aldg : decode 0x3E300000 = .ok (.aLdg 3) := by decide
theorem test_decode_smu_split : decode 0x40200000 = .ok (.sSplit 2 0) := by decide
theorem test_decode_smu_precomp : decode 0x41000108 = .ok (.sPrecomp 0 true 8) := by decide
theorem test_decode_smu_mul : decode 0x42100108 = .ok (.sMul 1 0 0 true 8) := by decide
theorem test_decode_smu_mul_f15 : decode 0x4232F004 = .ok (.sMul 3 2 15 false 4) := by decide
theorem test_decode_smu_mulu : decode 0x43200000 = .ok (.sMulu 2 0 0) := by decide
theorem test_illegal_unassigned_04 : decode 0x04000000 = .error .unassignedOpcode := by decide
theorem test_illegal_unassigned_27 : decode 0x27000000 = .error .unassignedOpcode := by decide
theorem test_illegal_unassigned_37 : decode 0x37000000 = .error .unassignedOpcode := by decide
theorem test_illegal_unassigned_3F : decode 0x3F000000 = .error .unassignedOpcode := by decide
theorem test_illegal_unassigned_44 : decode 0x44000000 = .error .unassignedOpcode := by decide
theorem test_illegal_unassigned_FF : decode 0xFFFFFFFF = .error .unassignedOpcode := by decide
theorem test_illegal_point_number_4 : decode 0x30400000 = .error .nonZeroFixedBits := by decide
theorem test_illegal_unused_imm : decode 0x10000001 = .error .nonZeroFixedBits := by decide
theorem test_illegal_reserved_bit_9 : decode 0x23201300 = .error .nonZeroFixedBits := by decide
theorem test_illegal_unused_m : decode 0x43200100 = .error .nonZeroFixedBits := by decide
theorem test_illegal_width_3 : decode 0x42100103 = .error .badValue := by decide
theorem test_illegal_batch_past_the_end : decode 0x260F0002 = .error .badValue := by decide
theorem test_illegal_batch_count_zero : decode 0x26040000 = .error .badValue := by decide
theorem test_illegal_split_f15 : decode 0x40F00000 = .error .badValue := by decide

theorem test_encode_mul : encode (.fMul 2 0 1 true) = 0x23201100 := by decide
theorem test_encode_smul : encode (.sMul 1 0 0 true 8) = 0x42100108 := by decide
theorem test_table_word : decodeTableWord 32 0x25100000 = some (.fInv 1 0 false) := by decide

/-! ### The constants: the relations of R7, the shift register of R103, the recurrence of R104, the map of R105 -/

theorem test_P_three_mod_four : P = 2 ^ 256 - 2 ^ 32 - 977 ∧ P % 4 = 3 ∧ 4 * sqrtExp = P + 1 := by decide +kernel
theorem test_base_point_on_curve : Gy ^ 2 % P = (Gx ^ 3 + curveB) % P := by decide +kernel
theorem test_beta_cube_root : beta ^ 3 % P = 1 ∧ beta ≠ 1 := by decide +kernel
theorem test_lambda_cube_root : lambda ^ 3 % n = 1 ∧ lambda ≠ 1 := by decide +kernel
theorem test_lattice : ((a1 : Int) - negB1 * lambda) % n = 0 ∧ ((a2 : Int) + b2 * lambda) % n = 0 ∧
    a1 * b2 + negB1 * a2 = n := by decide +kernel

/-- The shift register of R103: the state after `k` steps from 1. -/
def shiftRegister : Nat → Nat
  | 0 => 1
  | k + 1 => if (2 * shiftRegister k) / 256 % 2 = 1 then (2 * shiftRegister k) ^^^ 0x171 else 2 * shiftRegister k

theorem test_round_constants : ∀ i < 24, ∀ j < 7,
    (roundConstants.getD i 0).getLsbD (2 ^ j - 1) = (shiftRegister (7 * i + j) % 2 == 1) := by decide +kernel
theorem test_round_constants_other_bits : ∀ i < 24, ∀ b < 64, b + 1 ∉ [1, 2, 4, 8, 16, 32, 64] →
    (roundConstants.getD i 0).getLsbD b = false := by decide +kernel

/-- The walk of R104: the coordinates after `t` steps from `(1, 0)`. -/
def rhoWalk : Nat → Nat × Nat
  | 0 => (1, 0)
  | t + 1 => ((rhoWalk t).2, (2 * (rhoWalk t).1 + 3 * (rhoWalk t).2) % 5)

theorem test_rotation_offsets : rotationOffsets[0] = 0 ∧ ∀ t < 24,
    rotationOffsets.toList.getD ((rhoWalk t).1 + 5 * (rhoWalk t).2) 99 = (t + 1) * (t + 2) / 2 % 64 := by decide +kernel
theorem test_rho_pi_map : ∀ x < 5, ∀ y < 5, (rhoPiSource y (2 * x + 3 * y)).val = x + 5 * y := by decide

/-! ### Steps: the examples beside each rule -/

theorem test_reset_status : readReg State.reset .status = some 0x00000010 := by decide
theorem test_nop : after { State.reset with ERRCODE := 4, ERRSTICKY := 0x010 } 0x00000000 (faulted 0 0x010) = true := by
  decide +kernel
theorem test_clrerr : after { State.reset with ERRCODE := 4, ERRSTICKY := 0x112 } 0x01000000 (faulted 0 0) = true := by
  decide +kernel
theorem test_illegal_word : after State.reset 0x10000001 (fun t => faulted 1 0x002 t && t.KPHASE == .idle) = true := by
  decide +kernel
theorem test_wipe : after { withFr 5 6 7 with KDIN := 1, S := State.reset.S.set 3 9, FLAGS := ⟨true, true, true, true, true, true, true⟩ }
    0x02000000 (fun t => t.FR[0] == 0 && t.KDIN == 0 && t.S[3] == 9 && t.FLAGS == Flags.clear) = true := by decide +kernel
theorem test_tblinv : after { State.reset with TBL := ⟨true, 5, 6, 8, true, []⟩ } 0x03000000
    (fun t => readReg t .tblinfo == some 0 && readReg t (.tblTagX 0) == some 0 && readReg t .status == some 0x10) = true := by
  decide +kernel
theorem test_init : after State.reset 0x10000000 (fun t => readReg t .status == some 0x00000014) = true := by decide +kernel

/-- The state after `K_INIT` and the bytes "ab". -/
def absorbedAb : State :=
  { State.reset with KPHASE := .absorb, KRST := false, KPOS := 2, BLK := State.reset.BLK.set 0 0x6261 }

/-- The state after `K_INIT` and the bytes "abc". -/
def absorbedAbc : State := { absorbedAb with KPOS := 3, BLK := State.reset.BLK.set 0 0x636261 }

theorem test_absorb : after absorbedAb 0x11000063
    (fun t => t.BLK == absorbedAbc.BLK && t.KPOS == 3 && t.KRST == false && t.S == State.reset.S) = true := by decide +kernel
theorem test_absorb_phase : after { absorbedAb with KPHASE := .done } 0x11000063
    (fun t => faulted 2 0x004 t && t.BLK == absorbedAb.BLK && t.KPOS == 2) = true := by decide +kernel
theorem test_absorbw : after { State.reset with KPHASE := .absorb, KDIN := 0x64636261 } 0x12000000
    (fun t => t.BLK[0] == 0x64636261 && t.KPOS == 4 && t.KDIN == 0x64636261) = true := by decide +kernel
/-- The digest of "abc" (R112, R124), the one test that runs the whole permutation in the kernel. -/
theorem test_final_abc : after absorbedAbc 0x13000000
    (fun t => (t.S.toList.take 8 == [0x7A65034E, 0x4FA945EA, 0xA87BD4C7, 0x67D6C826, 0xE3E6D1C0, 0x36A0643A, 0x8FF544EC,
      0x456C2DA1]) && t.BLK[0] == 0x01636261 && t.BLK[33] == 0x80000000 && readReg t .status == some 0x18) = true := by
  decide +kernel
theorem test_final_phase : after State.reset 0x13000000 (fun t => faulted 2 0x004 t && t.KPHASE == .idle) = true := by
  decide +kernel
theorem test_perm_frame : after absorbedAb 0x14000000
    (fun t => t.KPHASE == .absorb && t.KPOS == 2 && t.KRST == false && t.BLK == absorbedAb.BLK) = true := by decide +kernel

theorem test_red_p : after (withFr 0xffffffffffffffffffffffffffffffffffffffffffffffffffffffffffffffff 0 0) 0x20100000 (frIs 1 0x1000003D0) = true := by decide +kernel
theorem test_red_n : after (withFr 0xffffffffffffffffffffffffffffffffffffffffffffffffffffffffffffffff 0 0) 0x20100100 (frIs 1 0x14551231950B75FC4402DA1732FC9BEBE) = true := by decide +kernel
theorem test_add : after (withFr 0x79BE667EF9DCBBAC55A06295CE870B07029BFCDB2DCE28D959F2815B16F81798 0x483ADA7726A3C4655DA4FBFC0E1108A8FD17B448A68554199C47D08FFB10D4B8 0) 0x21201000 (frIs 2 0xC1F940F620808011B3455E91DC9813AFFFB3B123D4537CF2F63A51EB1208EC50) = true := by decide +kernel
theorem test_add_wrap : after (withFr 0xfffffffffffffffffffffffffffffffffffffffffffffffffffffffefffffc2e 1 0) 0x21201000 (frIs 2 0) = true := by decide +kernel
theorem test_sub : after (withFr 0x483ADA7726A3C4655DA4FBFC0E1108A8FD17B448A68554199C47D08FFB10D4B8 0x79BE667EF9DCBBAC55A06295CE870B07029BFCDB2DCE28D959F2815B16F81798 0) 0x22201000 (frIs 2 0xCE7C73F82CC708B9080499663F89FDA1FA7BB76D78B72B4042554F33E418B94F) = true := by decide +kernel
theorem test_sub_negative : after (withFr 0 1 0) 0x22201000 (frIs 2 0xfffffffffffffffffffffffffffffffffffffffffffffffffffffffefffffc2e) = true := by decide +kernel
theorem test_mul_p : after (withFr 0x79BE667EF9DCBBAC55A06295CE870B07029BFCDB2DCE28D959F2815B16F81798 0x483ADA7726A3C4655DA4FBFC0E1108A8FD17B448A68554199C47D08FFB10D4B8 0) 0x23201000 (frIs 2 0xFD3DC529C6EB60FB9D166034CF3C1A5A72324AA9DFD3428A56D7E1CE0179FD9B) = true := by decide +kernel
theorem test_mul_n : after (withFr 0x79BE667EF9DCBBAC55A06295CE870B07029BFCDB2DCE28D959F2815B16F81798 0x483ADA7726A3C4655DA4FBFC0E1108A8FD17B448A68554199C47D08FFB10D4B8 0) 0x23201100 (frIs 2 0x805714A252D0C0B58910907E85B5B801FFF610A36BDF46847A4BF5D9AE2D10ED) = true := by decide +kernel
theorem test_pow_fermat : after (withFr 3 0xFFFFFFFFFFFFFFFFFFFFFFFFFFFFFFFEBAAEDCE6AF48A03BBFD25E8CD036413F 0) 0x24201100 (frIs 2 0xAAAAAAAAAAAAAAAAAAAAAAAAAAAAAAA9D1C9E899CA306AD27FE1945DE0242B81) = true := by decide +kernel
theorem test_pow_zero_zero : after (withFr 0 0 7) 0x24201000 (frIs 2 1) = true := by decide +kernel
theorem test_inv : after (withFr 2 0 0) 0x25100100 (frIs 1 0x7FFFFFFFFFFFFFFFFFFFFFFFFFFFFFFF5D576E7357A4501DDFE92F46681B20A1) = true := by decide +kernel
theorem test_inv_zero : after (withFr 0 9 0) 0x25100000 (fun t => faulted 4 0x010 t && t.FR[1] == 9) = true := by decide +kernel
theorem test_binv : after (withFr 2 0 3) 0x26000003 (fun t => frIs 0 0x7FFFFFFFFFFFFFFFFFFFFFFFFFFFFFFFFFFFFFFFFFFFFFFFFFFFFFFF7FFFFE18 t && frIs 1 0 t &&
    frIs 2 0xAAAAAAAAAAAAAAAAAAAAAAAAAAAAAAAAAAAAAAAAAAAAAAAAAAAAAAA9FFFFFD75 t) = true := by decide +kernel
theorem test_binv_past_the_end : after (withFr 2 0 3) 0x260F0002 (faulted 1 0x002) = true := by decide +kernel

theorem test_jdbl : after (withJp 0x79BE667EF9DCBBAC55A06295CE870B07029BFCDB2DCE28D959F2815B16F81798 0x483ADA7726A3C4655DA4FBFC0E1108A8FD17B448A68554199C47D08FFB10D4B8 1 0 0 0) 0x30100000
    (jpIs 1 0x7D152C041EA8E1DC2191843D1FA9DB55B68F88FEF695E2C791D40444B365AFC2 0x56915849F52CC8F76F5FD7E4BF60DB4A43BF633E1B1383F85FE89164BFADCBDB
      0x9075B4EE4D4788CABB49F7F81C221151FA2F68914D0AA833388FA11FF621A970 false) = true := by decide +kernel
theorem test_jdbl_order_two : after (withJp 1 0 1 5 9 0) 0x30100000 (jpIs 1 0 1 0 true) = true := by decide +kernel
theorem test_jadd : after (withJp 0x79BE667EF9DCBBAC55A06295CE870B07029BFCDB2DCE28D959F2815B16F81798 0x483ADA7726A3C4655DA4FBFC0E1108A8FD17B448A68554199C47D08FFB10D4B8 1
    0x7D152C041EA8E1DC2191843D1FA9DB55B68F88FEF695E2C791D40444B365AFC2 0x56915849F52CC8F76F5FD7E4BF60DB4A43BF633E1B1383F85FE89164BFADCBDB
    0x9075B4EE4D4788CABB49F7F81C221151FA2F68914D0AA833388FA11FF621A970) 0x31210000
    (jpIs 2 0x0CA90EF9B06D7EB51D650E9145E3083CBD8DF8759168862036F97A358F089848 0xBCA50189FE8472AA2FB007567229F4D458149078094D7E7D35BB6C27E9A22B08
      0x6DBD0563F460DC5C401595F1492430343B7AC0165DA116B7EFA23994D564A085 false) = true := by decide +kernel
theorem test_jadd_opposite : after (withJp 0x79BE667EF9DCBBAC55A06295CE870B07029BFCDB2DCE28D959F2815B16F81798 0x483ADA7726A3C4655DA4FBFC0E1108A8FD17B448A68554199C47D08FFB10D4B8 1 0x79BE667EF9DCBBAC55A06295CE870B07029BFCDB2DCE28D959F2815B16F81798
    0xB7C52588D95C3B9AA25B0403F1EEF75702E84BB7597AABE663B82F6F04EF2777 1) 0x31201000 (jpIs 2 0 1 0 true) = true := by decide +kernel
theorem test_jneg : after (withJp 0x79BE667EF9DCBBAC55A06295CE870B07029BFCDB2DCE28D959F2815B16F81798 0x483ADA7726A3C4655DA4FBFC0E1108A8FD17B448A68554199C47D08FFB10D4B8 1 0 0 0) 0x32100000
    (jpIs 1 0x79BE667EF9DCBBAC55A06295CE870B07029BFCDB2DCE28D959F2815B16F81798 0xB7C52588D95C3B9AA25B0403F1EEF75702E84BB7597AABE663B82F6F04EF2777 1 false) = true := by decide +kernel
theorem test_jeq : after (withJp 0x79BE667EF9DCBBAC55A06295CE870B07029BFCDB2DCE28D959F2815B16F81798 0x483ADA7726A3C4655DA4FBFC0E1108A8FD17B448A68554199C47D08FFB10D4B8 1
    0xE6F999FBE772EEB156818A573A1C2C1C0A6FF36CB738A36567CA056D5BE06231 0x41D6D3B9351E232AED27DFE070884547E8BDA245342AA0CCE23E8481D886AD62 2)
    0x33001000 (fun t => t.FLAGS.EQ) = true := by decide +kernel
theorem test_jfroma : after (withAp 0x79BE667EF9DCBBAC55A06295CE870B07029BFCDB2DCE28D959F2815B16F81798 0x483ADA7726A3C4655DA4FBFC0E1108A8FD17B448A68554199C47D08FFB10D4B8 0 0 0) 0x34000000
    (jpIs 0 0x79BE667EF9DCBBAC55A06295CE870B07029BFCDB2DCE28D959F2815B16F81798 0x483ADA7726A3C4655DA4FBFC0E1108A8FD17B448A68554199C47D08FFB10D4B8 1 false) = true := by decide +kernel
theorem test_jtoa : after (withJp 0 0 0 0x7D152C041EA8E1DC2191843D1FA9DB55B68F88FEF695E2C791D40444B365AFC2
    0x56915849F52CC8F76F5FD7E4BF60DB4A43BF633E1B1383F85FE89164BFADCBDB 0x9075B4EE4D4788CABB49F7F81C221151FA2F68914D0AA833388FA11FF621A970) 0x35110000
    (apIs 1 0xC6047F9441ED7D6D3045406E95C07CD85C778E4B8CEF3CA7ABAC09B95C709EE5 0x1AE168FEA63DC339A3C58419466CEAEEF7F632653266D0E1236431A950CFE52A) = true := by decide +kernel
theorem test_jtoa_identity : after (withJp 5 9 0xFFFFFFFFFFFFFFFFFFFFFFFFFFFFFFFFFFFFFFFFFFFFFFFFFFFFFFFEFFFFFC2F 0 0 0) 0x35100000
    (fun t => t.AP[1] == ⟨0, 0, true⟩ && t.FLAGS.INF) = true := by decide +kernel
theorem test_jendo : after (withJp 0x79BE667EF9DCBBAC55A06295CE870B07029BFCDB2DCE28D959F2815B16F81798 0x483ADA7726A3C4655DA4FBFC0E1108A8FD17B448A68554199C47D08FFB10D4B8 1 0 0 0) 0x36100000
    (jpIs 1 0xBCACE2E99DA01887AB0102B696902325872844067F15E98DA7BBA04400B88FCB 0x483ADA7726A3C4655DA4FBFC0E1108A8FD17B448A68554199C47D08FFB10D4B8 1 false) = true := by
  decide +kernel
theorem test_aadd : after (withAp 0x79BE667EF9DCBBAC55A06295CE870B07029BFCDB2DCE28D959F2815B16F81798 0x483ADA7726A3C4655DA4FBFC0E1108A8FD17B448A68554199C47D08FFB10D4B8 0xC6047F9441ED7D6D3045406E95C07CD85C778E4B8CEF3CA7ABAC09B95C709EE5
    0x1AE168FEA63DC339A3C58419466CEAEEF7F632653266D0E1236431A950CFE52A 0) 0x38201000
    (apIs 2 0xF9308A019258C31049344F85F89D5229B531C845836F99B08601F113BCE036F9 0x388F7B0F632DE8140FE337E62A37F3566500A99934C2231B6CB9FD7584B8E672) = true := by decide +kernel
theorem test_aadd_opposite : after (withAp 0x79BE667EF9DCBBAC55A06295CE870B07029BFCDB2DCE28D959F2815B16F81798 0x483ADA7726A3C4655DA4FBFC0E1108A8FD17B448A68554199C47D08FFB10D4B8 0x79BE667EF9DCBBAC55A06295CE870B07029BFCDB2DCE28D959F2815B16F81798
    0xB7C52588D95C3B9AA25B0403F1EEF75702E84BB7597AABE663B82F6F04EF2777 0) 0x38201000 (faulted 6 0x040) = true := by decide +kernel
theorem test_adbl : after (withAp 0x79BE667EF9DCBBAC55A06295CE870B07029BFCDB2DCE28D959F2815B16F81798 0x483ADA7726A3C4655DA4FBFC0E1108A8FD17B448A68554199C47D08FFB10D4B8 0 0 0) 0x39100000
    (apIs 1 0xC6047F9441ED7D6D3045406E95C07CD85C778E4B8CEF3CA7ABAC09B95C709EE5 0x1AE168FEA63DC339A3C58419466CEAEEF7F632653266D0E1236431A950CFE52A) = true := by decide +kernel
theorem test_adbl_order_two : after (withAp 1 0 7 8 0) 0x39100000 (fun t => faulted 4 0x010 t && t.AP[1].x == 7) = true := by
  decide +kernel
theorem test_aneg : after (withAp 0x79BE667EF9DCBBAC55A06295CE870B07029BFCDB2DCE28D959F2815B16F81798 0x483ADA7726A3C4655DA4FBFC0E1108A8FD17B448A68554199C47D08FFB10D4B8 0 0 0) 0x3A100000
    (apIs 1 0x79BE667EF9DCBBAC55A06295CE870B07029BFCDB2DCE28D959F2815B16F81798 0xB7C52588D95C3B9AA25B0403F1EEF75702E84BB7597AABE663B82F6F04EF2777) = true := by decide +kernel
theorem test_aeq_residues : after (withAp 1 2 0xfffffffffffffffffffffffffffffffffffffffffffffffffffffffefffffc30 2 0) 0x3B001000 (fun t => t.FLAGS.EQ) = true := by
  decide +kernel
theorem test_avalid_curve : after (withAp 0x79BE667EF9DCBBAC55A06295CE870B07029BFCDB2DCE28D959F2815B16F81798 0x483ADA7726A3C4655DA4FBFC0E1108A8FD17B448A68554199C47D08FFB10D4B8 0 0 0) 0x3C000000
    (fun t => readReg t .flags == some 0x06) = true := by decide +kernel
theorem test_avalid_twist : after (withAp 5 0x350AE3B48047ADACDEEA49FB8A0B289A94F726801078408ABA79631FA7A1B6BA 0 0 0) 0x3C000000
    (fun t => readReg t .flags == some 0x02) = true := by decide +kernel
theorem test_adecomp_odd : after (withFr 1 0 0) 0x3D100100
    (apIs 1 1 0xBDE70DF51939B94C9C24979FA7DD04EBD9B3572DA7802290438AF2A681895441) = true := by decide +kernel
theorem test_adecomp_no_point : after (withFr 5 0 0) 0x3D100000 (faulted 5 0x020) = true := by decide +kernel
theorem test_aldg : after State.reset 0x3E000000
    (fun t => readReg t (.apX 0 0) == some 0x16F81798 && readReg t (.apY 0 7) == some 0x483ADA77) = true := by decide +kernel

theorem test_split_lambda : after (withFr 0x5363AD4CC05C30E0A5261C028812645A122E22EA20816678DF02967C1B23BD72 0 0) 0x40200000
    (fun t => frIs 2 0 t && frIs 3 1 t && !t.FLAGS.K1NEG && !t.FLAGS.K2NEG) = true := by decide +kernel
theorem test_split_signs : after (withFr 0x100000000000000000000000000000000 0 0) 0x40200000 (fun t => frIs 2 0x14CA50F7A8E2F3F657C1108D9D44CFD8 t &&
    frIs 3 0x3086D221A7D46BCDE86C90E49284EB15 t && t.FLAGS.K1NEG && t.FLAGS.K2NEG) = true := by decide +kernel
theorem test_precomp : after (withAp 0x79BE667EF9DCBBAC55A06295CE870B07029BFCDB2DCE28D959F2815B16F81798 0x483ADA7726A3C4655DA4FBFC0E1108A8FD17B448A68554199C47D08FFB10D4B8 0 0 0) 0x41000101
    (fun t => readReg t .tblinfo == some 0x80000101 && readReg t (.tblTagX 0) == some 0x16F81798 &&
      readReg t .status == some 0x30) = true := by decide +kernel
theorem test_precomp_no_point : after (withAp 0 0 0 0 0) 0x41000108 (faulted 5 0x020) = true := by decide +kernel
theorem test_mul_6G : after (withAp 0xC6047F9441ED7D6D3045406E95C07CD85C778E4B8CEF3CA7ABAC09B95C709EE5 0x1AE168FEA63DC339A3C58419466CEAEEF7F632653266D0E1236431A950CFE52A 0 0 3) 0x42100104
    (fun t => apIs 1 0xFFF97BD5755EEEA420453A14355235D382F6472F8568A18B2F057A1460297556
      0xAE12777AACFBB620F3BE96017F45C560DE80F0F6518FE4A03C870C36B075F297 t && !t.FLAGS.TBLHIT) = true := by
  decide +kernel
theorem test_mul_priority : after (withAp 1 1 0 0 0) 0x42100108 (faulted 3 0x008) = true := by decide +kernel
theorem test_mulu_3G : after (withAp 0x79BE667EF9DCBBAC55A06295CE870B07029BFCDB2DCE28D959F2815B16F81798 0x483ADA7726A3C4655DA4FBFC0E1108A8FD17B448A68554199C47D08FFB10D4B8 0 0 3) 0x43200000
    (apIs 2 0xF9308A019258C31049344F85F89D5229B531C845836F99B08601F113BCE036F9 0x388F7B0F632DE8140FE337E62A37F3566500A99934C2231B6CB9FD7584B8E672) = true := by decide +kernel
theorem test_mulu_scalar_n : after (withAp 0x79BE667EF9DCBBAC55A06295CE870B07029BFCDB2DCE28D959F2815B16F81798 0x483ADA7726A3C4655DA4FBFC0E1108A8FD17B448A68554199C47D08FFB10D4B8 0 0
    0xFFFFFFFFFFFFFFFFFFFFFFFFFFFFFFFEBAAEDCE6AF48A03BBFD25E8CD0364141) 0x43200000 (faulted 3 0x008) = true := by decide +kernel

/-! ### Host accesses -/

theorem test_read_const : access State.reset (.read 0x800 32) (fun t => t.replies == [0xFFFFFC2F]) = true := by decide +kernel
theorem test_write_inf_ignores_high_bits : access State.reset (.write 0x440 32 0xFFFFFFFF)
    (fun t => t.AP[0].inf && readReg t (.apInf 0) == some 1) = true := by decide +kernel
theorem test_write_limb : access (withFr 0xAAAAAAAABBBBBBBBCCCCCCCC 0 0) (.write 0x204 32 0x11111111)
    (frIs 0 0xAAAAAAAA11111111CCCCCCCC) = true := by decide +kernel
theorem test_bad_read : access State.reset (.read 0x000 32) (fun t => t.replies == [0] && faulted 0 0x100 t) = true := by
  decide +kernel
theorem test_bad_write_narrow : access State.reset (.write 0x000 8 0x10)
    (fun t => faulted 0 0x100 t && t.KPHASE == .idle) = true := by decide +kernel
theorem test_bad_write_hole : access State.reset (.write 0x444 32 1) (faulted 0 0x100) = true := by decide +kernel
theorem test_last_rows : locate 0x1C4 = some (.S 49) ∧ locate 0x3FC = some (.FR 15 7) ∧ locate 0x5C0 = some (.apInf 3) ∧
    locate 0x7DC = some (.jpZ 3 7) ∧ locate 0x93C = some (.const 9 7) := by decide
theorem test_holes : locate 0x060 = none ∧ locate 0x1C8 = none ∧ locate 0x444 = none ∧ locate 0x660 = none ∧
    locate 0x940 = none ∧ locate 0xFFC = none ∧ locate 0x002 = none := by decide
theorem test_reset_event : access { withFr 5 6 7 with ERRSTICKY := 0x1FE } .reset
    (fun t => t.FR[0] == 0 && t.ERRSTICKY == 0 && t.KRST) = true := by decide +kernel

/-! ### Witnesses: the hypotheses of the statements can be met, clause by clause -/

/-- A check of the next state, as an existence. -/
theorem exists_next {o : Host.Outcome State Fault Refusal} {p : State → Bool} (h : (next? o).any p = true) :
    ∃ t, o = .next t ∧ p t = true := by
  cases o with
  | next t => exact ⟨t, rfl, by simpa [next?] using h⟩
  | fault r => cases r
  | refused r => simp [next?] at h

/-- A state with a dead buffer, no fault recorded and no table meets the invariant. -/
theorem quiet_inv (s : State) (h1 : s.KRST = true) (h2 : s.KPOS = 0) (h3 : s.ERRSTICKY = 0) (h4 : s.ERRCODE = 0)
    (h5 : s.TBL.valid = false) : s.Inv where
  cleanBuffer h := by simp [h1] at h
  deadAtZero _ := h2
  deadOutside _ := h1
  stickyZero := by simp [h3]
  codeIsSticky h := absurd h4 h
  tableOfTag h := by simp [h5] at h

/-- The base point in `AP[0]`, the scalar `k` in `FR[0]`, no table. -/
def baseAp (k : Nat) : State := withAp Gx Gy 0 0 k

theorem baseAp_inv (k : Nat) : (baseAp k).Inv := quiet_inv _ rfl rfl rfl rfl rfl

theorem baseAp_oncurve (k : Nat) : oncurve (baseAp k).AP[(0 : PtNum)] = true := by
  have h : oncurve basePoint = true := by decide +kernel
  exact h

/-- The table of the base point of width 1. -/
def baseTable : Table := ⟨true, toBig Gx, toBig Gy, 1, true, (table basePoint 1 true).toOption.getD []⟩

/-- The same with that table in the cache. -/
def cachedAp (k : Nat) : State := { baseAp k with TBL := baseTable }

theorem cachedAp_inv (k : Nat) : (cachedAp k).Inv where
  cleanBuffer h := by simp [cachedAp, baseAp, withAp, withFr, State.reset] at h
  deadAtZero _ := rfl
  deadOutside _ := rfl
  stickyZero := by
    have h : (cachedAp k).ERRSTICKY = 0 := rfl
    rw [h]; decide
  codeIsSticky h := absurd rfl h
  tableOfTag _ := by
    have hc : (cachedAp k).TBL = baseTable := rfl
    have hq : (⟨baseTable.x, baseTable.y, false⟩ : Affine) = basePoint := rfl
    have hw : baseTable.W.toNat = 1 := by decide
    have hg : baseTable.glv = true := rfl
    have hT : baseTable.T = (table basePoint 1 true).toOption.getD [] := by rw [baseTable]
    obtain ⟨T, e, -⟩ := table_total basePoint 1 true
    rw [hc, hq, hw, hg, hT, e]
    exact ⟨by decide, by decide +kernel, rfl⟩

theorem witness_EveryStepKeepsTheInvariant : ∃ s t : State, s.Inv ∧ step s = .next t ∧ t.KPHASE = .absorb :=
  ⟨{ State.reset with pending := [.write 0x000 32 0x10000000] }, _, quiet_inv _ rfl rfl rfl rfl rfl, rfl, rfl⟩

theorem witness_AStepRunsTheDecodedCommand :
    (∃ (s : State) (w : Word) (rest : List HostEvent) (i : Instr), s.pending = .write 0x000 32 w :: rest ∧ decode w = .ok i) ∧
    (∃ (s : State) (w : Word) (rest : List HostEvent) (e : Illegal), s.pending = .write 0x000 32 w :: rest ∧
      decode w = .error e) :=
  ⟨⟨{ State.reset with pending := [.write 0x000 32 0x10000000] }, _, _, .kInit, rfl, rfl⟩,
    ⟨{ State.reset with pending := [.write 0x000 32 0x04000000] }, _, _, .unassignedOpcode, rfl, rfl⟩⟩

theorem witness_EveryStepHasANextState : State.reset.pending = [] ∧
    (∃ (s : State) (rest : List HostEvent), s.pending = .reset :: rest ∧ s.FR[(0 : FrNum)] = 5) ∧
    ∃ (s : State) (e : HostEvent) (rest : List HostEvent), s.pending = e :: rest :=
  ⟨rfl, ⟨{ withFr 5 0 0 with pending := [.reset] }, [], rfl, by decide⟩,
    { State.reset with pending := [.read 0xFFF 32] }, _, _, rfl⟩

theorem witness_DecodeOfEncode : (Instr.fBinv 15 true 1).wellFormed = true ∧ (Instr.sSplit 14 15).wellFormed = true ∧
    (Instr.sMul 3 3 15 true 8).wellFormed = true := by decide

theorem witness_EncodeOfDecode : ∃ (w : Word) (i : Instr), decode w = .ok i := ⟨0x110000FF, .kAbsorb 0xFF, rfl⟩

theorem witness_IllegalWordsRaiseIllegal :
    (∀ op ∈ [0x04, 0x0F, 0x15, 0x1F, 0x27, 0x2F, 0x37, 0x3F, 0x44, 0xFF], ∃ w : Word, op = w.toNat / 2 ^ 24) ∧
    (∃ w : Word, ∀ i : Instr, i.wellFormed = true → encode i ≠ w) ∧
    (Instr.fBinv 15 true 2).wellFormed = false ∧ (Instr.sSplit 15 0).wellFormed = false := by
  refine ⟨?_, ⟨0x04000000, fun i _ h => ?_⟩, by decide, by decide⟩
  · intro op hop
    refine ⟨BitVec.ofNat 32 (op * 2 ^ 24), ?_⟩
    revert op
    decide +kernel
  · have h' := congrArg opField h
    cases i <;> simp only [encode, opField_packWord, Instr.opcode] at h' <;> revert h' <;> decide

theorem witness_RegisterMap : Reg.offset (.const 9 7) < 4096 ∧ locate 0x93C = some (.const 9 7) ∧ locate 4095 = none := by
  decide

theorem hole_060 (r : Reg) : r.offset ≠ 0x060 := by cases r <;> simp only [Reg.offset] <;> omega

theorem hole_FFC (r : Reg) : r.offset ≠ 0xFFC := by cases r <;> simp only [Reg.offset] <;> omega

theorem witness_BadAccessOnlySetsAccess :
    (badRead 0x100 8 ∧ badRead 0x102 32 ∧ badRead 0x060 32 ∧ badRead 0xFFC 32 ∧ badRead 0x000 32) ∧
    (badWrite 0x000 16 ∧ badWrite 0x001 32 ∧ badWrite 0x060 32 ∧ badWrite 0x004 32 ∧ badWrite 0x93C 32) ∧
    (∃ (s : State) (rest : List HostEvent), s.pending = .read 0x000 32 :: rest) ∧
    (∃ (s : State) (v : Word) (rest : List HostEvent), s.pending = .write 0x004 32 v :: rest) :=
  ⟨⟨.inl (.inl (by decide)), .inl (.inr (.inl (by decide))), .inl (.inr (.inr hole_060)), .inl (.inr (.inr hole_FFC)),
      .inr rfl⟩,
    ⟨.inl (.inl (by decide)), .inl (.inr (.inl (by decide))), .inl (.inr (.inr hole_060)), .inr ⟨.status, rfl, rfl⟩,
      .inr ⟨.const 9 7, rfl, rfl⟩⟩,
    ⟨{ State.reset with pending := [.read 0x000 32] }, _, rfl⟩,
    ⟨{ State.reset with pending := [.write 0x004 32 1] }, _, _, rfl⟩⟩

theorem witness_ReadsHaveNoSideEffect : ∃ (s : State) (rest : List HostEvent), s.pending = .read 0x93C 32 :: rest ∧
    Reg.offset (.const 9 7) = (0x93C : BitVec 12).toNat ∧ Reg.const 9 7 ≠ .cmd :=
  ⟨{ State.reset with pending := [.read 0x93C 32] }, _, rfl, by decide, by decide⟩

theorem witness_AWriteReplacesOneRow : ∃ (s : State) (v : Word) (rest : List HostEvent),
    s.pending = .write 0x7DC 32 v :: rest ∧ Reg.offset (.jpZ 3 7) = (0x7DC : BitVec 12).toNat ∧
    Reg.readOnly (.jpZ 3 7) = false ∧ Reg.jpZ 3 7 ≠ .cmd ∧
    Reg.offset (.apInf 3) = (0x5C0 : BitVec 12).toNat ∧ Reg.readOnly (.apInf 3) = false :=
  ⟨{ State.reset with pending := [.write 0x7DC 32 9] }, _, _, rfl, by decide, by decide, by decide, by decide, by decide⟩

theorem witness_EightWritesLoadARegister : ∃ (s : State) (r : FrNum) (v : Big) (rest : List HostEvent),
    s.pending = (List.ofFn fun i : Fin 8 =>
      HostEvent.write (BitVec.ofNat 12 (0x200 + 32 * r.val + 4 * i.val)) 32 (v.extractLsb' (32 * i.val) 32)) ++ rest :=
  ⟨{ State.reset with pending := (List.ofFn fun i : Fin 8 =>
      HostEvent.write (BitVec.ofNat 12 (0x200 + 32 * 15 + 4 * i.val)) 32 ((toBig Gx).extractLsb' (32 * i.val) 32)) ++ [] },
    15, toBig Gx, [], rfl⟩

theorem witness_ReadOnlyViews : (cachedAp 1).TBL.valid = true ∧ State.reset.TBL.valid = false := ⟨rfl, rfl⟩

theorem witness_ACommandEndsInOneOfTwoWays : (0x00000000 : Word) ≠ 0x01000000 ∧
    (∃ t, command 0x00000000 State.reset = .next t ∧ t.ERRCODE = 0) ∧
    (∃ t, command 0xFFFFFFFF State.reset = .next t ∧ t.ERRCODE ≠ 0) :=
  ⟨by decide, ⟨_, rfl, rfl⟩, ⟨_, rfl, by decide⟩⟩

theorem witness_CommandsRaiseOnlyTheirFaults : ∃ t, (Instr.kFinal).wellFormed = true ∧
    exec .kFinal State.reset = .next t ∧ t.ERRCODE ≠ 0 := ⟨_, rfl, rfl, by decide⟩

theorem witness_CommandFrame : ∃ t, exec (.fAdd 2 0 1 false) (withFr 1 2 3) = .next t ∧
    Instr.mayChange (.fAdd 2 0 1 false) (.FR 3 0) = false ∧ Instr.mayChange (.fAdd 2 0 1 false) .tblinfo = false ∧
    Instr.isKse (.fAdd 2 0 1 false) = false := ⟨_, rfl, by decide, by decide, by decide⟩

theorem witness_FlagsFrame : (∃ t, exec .kFinal State.reset = .next t ∧ t.ERRCODE ≠ 0) ∧
    (∃ t, exec .cWipe State.reset = .next t) ∧ (∃ t, exec (.aLdg 0) State.reset = .next t ∧ t.ERRCODE = 0) :=
  ⟨⟨_, rfl, by decide⟩, ⟨_, rfl⟩, ⟨_, rfl, rfl⟩⟩

theorem witness_NoCommandReadsAFlag : (∃ t, exec (.jEq 0 1) State.reset = .next t ∧ t.ERRCODE = 0) ∧
    (∃ t, exec .kFinal State.reset = .next t ∧ t.ERRCODE ≠ 0) := ⟨⟨_, rfl, rfl⟩, ⟨_, rfl, by decide⟩⟩

theorem witness_TheTableIsIndependentOfScalars : ∃ (s t t' : State) (fr : Vector Big 16),
    exec (.sMul 1 0 0 true 1) s = .next t ∧ exec (.sMul 1 0 0 true 1) { s with FR := fr } = .next t' ∧
    t.ERRCODE = 0 ∧ t'.ERRCODE = 0 ∧ t.TBL.valid = true := by
  obtain ⟨t, h, e⟩ := exists_next (o := exec (.sMul 1 0 0 true 1) (baseAp 1))
    (p := fun t => t.ERRCODE == 0 && t.TBL.valid) (by decide +kernel)
  obtain ⟨t', h', e'⟩ := exists_next (o := exec (.sMul 1 0 0 true 1) { baseAp 1 with FR := (baseAp 2).FR })
    (p := fun t => t.ERRCODE == 0) (by decide +kernel)
  exact ⟨baseAp 1, t, t', (baseAp 2).FR, h, h', by simp_all, by simp_all, by simp_all⟩

theorem witness_TheTableIsNoCorrectnessHazard : (cachedAp 1).Inv ∧ State.Inv { cachedAp 1 with TBL := Table.empty } ∧
    ∃ t, exec (.sMul 1 0 0 true 1) (cachedAp 1) = .next t :=
  ⟨cachedAp_inv 1, quiet_inv _ rfl rfl rfl rfl rfl, by
    obtain ⟨t, h⟩ := exec_total (.sMul 1 0 0 true 1) (cachedAp 1)
    exact ⟨t, h⟩⟩

theorem witness_ResultsAreCanonical :
    (∃ t, exec (.jToa 0 0) State.reset = .next t ∧ t.AP[(0 : PtNum)].inf = true) ∧
    (∃ t, exec (.jDbl 1 0) State.reset = .next t ∧ t.JP[(1 : PtNum)].Z.toNat % P = 0) := by
  constructor
  · obtain ⟨t, h, e⟩ := exists_next (o := exec (.jToa 0 0) State.reset) (p := fun t => t.AP[(0 : PtNum)].inf)
      (by decide +kernel)
    exact ⟨t, h, e⟩
  · obtain ⟨t, h, e⟩ := exists_next (o := exec (.jDbl 1 0) State.reset)
      (p := fun t => t.JP[(1 : PtNum)].Z.toNat % P == 0) (by decide +kernel)
    exact ⟨t, h, by simpa using e⟩

/-- A hash in progress with the cursor at `k` and an all-zero buffer. -/
def atCursor (k : Fin 136) : State := { State.reset with KPHASE := .absorb, KRST := false, KPOS := k }

theorem witness_KAbsorbTakesAByte : State.reset.KPHASE ≠ .absorb ∧
    ((atCursor 0).KPHASE = .absorb ∧ (atCursor 0).KPOS.val + 1 < 136) ∧
    ((atCursor 134).KPHASE = .absorb ∧ (atCursor 134).KPOS.val + 1 < 136) ∧
    ((atCursor 135).KPHASE = .absorb ∧ (atCursor 135).KPOS.val + 1 = 136) := by decide +kernel

theorem witness_KAbsorbwIsFourBytes : State.reset.KPHASE ≠ .absorb ∧ (atCursor 134).KPHASE = .absorb := by
  decide +kernel

theorem witness_KFinalPadsAndFinishes : State.reset.KPHASE ≠ .absorb ∧ (atCursor 0).KPHASE = .absorb ∧
    (atCursor 135).KPHASE = .absorb := by decide +kernel

theorem witness_PhaseTable : State.reset.KPHASE = .idle ∧ (atCursor 0).KPHASE = .absorb ∧
    { State.reset with KPHASE := .done }.KPHASE = .done ∧
    (∃ t, exec .kPerm State.reset = .next t) ∧
    (∃ (s t : State) (rest : List HostEvent), s.pending = .reset :: rest ∧ step s = .next t) ∧
    (∃ (s t : State) (rest : List HostEvent), s.pending = .write 0x100 32 1 :: rest ∧ step s = .next t ∧
      HostEvent.write 0x100 32 1 ≠ .reset ∧ ∀ w, HostEvent.write 0x100 32 1 ≠ .write 0x000 32 w) :=
  ⟨rfl, rfl, rfl, ⟨_, rfl⟩, ⟨{ State.reset with pending := [.reset] }, _, _, rfl, rfl⟩,
    ⟨{ State.reset with pending := [.write 0x100 32 1] }, _, _, rfl, rfl, by decide, by simp⟩⟩

theorem witness_OnlyKseCommandsTouchTheSponge : ∃ t, Instr.isKse (.aLdg 0) = false ∧
    exec (.aLdg 0) (atCursor 3) = .next t := ⟨_, rfl, rfl⟩

theorem witness_InverseOrNotInvertible :
    (withFr 1 0 0).FR[(0 : FrNum)].toNat % modulus false ≠ 0 ∧ (withFr 0 0 0).FR[(0 : FrNum)].toNat % modulus true = 0 ∧
    (withFr P 0 0).FR[(0 : FrNum)].toNat % modulus false = 0 ∧ (withFr P 0 0).FR[(0 : FrNum)].toNat % modulus true ≠ 0 ∧
    (withFr n 0 0).FR[(0 : FrNum)].toNat % modulus true = 0 := by decide +kernel

theorem witness_BatchInverseIsElementwise :
    (1 ≤ (1 : Byte).toNat ∧ (15 : FrNum).val + (1 : Byte).toNat ≤ 16) ∧
    (1 ≤ (16 : Byte).toNat ∧ (0 : FrNum).val + (16 : Byte).toNat ≤ 16) ∧
    ¬ (1 ≤ (0 : Byte).toNat ∧ (4 : FrNum).val + (0 : Byte).toNat ≤ 16) ∧
    ¬ (1 ≤ (2 : Byte).toNat ∧ (15 : FrNum).val + (2 : Byte).toNat ≤ 16) ∧
    (withFr 2 0 P).FR[(0 : FrNum)].toNat % modulus false ≠ 0 ∧ (withFr 2 0 P).FR[(1 : FrNum)].toNat % modulus false = 0 ∧
    (withFr 2 0 P).FR[(2 : FrNum)].toNat % modulus false = 0 := by decide +kernel

/-- The coordinates of `JP[r]` as integers. -/
def jpInt (s : State) (r : PtNum) : Int × Int × Int :=
  ((s.JP[r].X.toNat : Int), (s.JP[r].Y.toNat : Int), (s.JP[r].Z.toNat : Int))

theorem witness_JacobianDouble :
    (jpInt (withJp 5 9 P 0 0 0) 0).2.2 % P = 0 ∧ (jpInt (withJp 1 P 1 0 0 0) 0).2.1 % P = 0 ∧
    ((jpInt (withJp Gx Gy 1 0 0 0) 0).2.2 % P ≠ 0 ∧ (jpInt (withJp Gx Gy 1 0 0 0) 0).2.1 % P ≠ 0) := by decide +kernel

/-- The six cases of `J_ADD`, each with operands that meet it: `H` and `r` of the first two registers. -/
def jaddHr (s : State) : Int × Int :=
  let a := jpInt s 0
  let b := jpInt s 1
  (b.1 * a.2.2 ^ 2 - a.1 * b.2.2 ^ 2, b.2.1 * a.2.2 ^ 3 - a.2.1 * b.2.2 ^ 3)

theorem witness_JacobianAdd :
    ((jpInt (withJp 1 2 0 3 4 P) 0).2.2 % P = 0 ∧ (jpInt (withJp 1 2 0 3 4 P) 1).2.2 % P = 0) ∧
    ((jpInt (withJp Gx Gy 1 3 4 0) 0).2.2 % P ≠ 0 ∧ (jpInt (withJp Gx Gy 1 3 4 0) 1).2.2 % P = 0) ∧
    ((jpInt (withJp 3 4 0 Gx Gy 1) 0).2.2 % P = 0 ∧ (jpInt (withJp 3 4 0 Gx Gy 1) 1).2.2 % P ≠ 0) ∧
    ((jpInt (withJp Gx Gy 1 (4 * Gx) (8 * Gy % P) 2) 1).2.2 % P ≠ 0 ∧
      (jaddHr (withJp Gx Gy 1 (4 * Gx % P) (8 * Gy % P) 2)).1 % P = 0 ∧
      (jaddHr (withJp Gx Gy 1 (4 * Gx % P) (8 * Gy % P) 2)).2 % P = 0) ∧
    ((jaddHr (withJp Gx Gy 1 Gx (P - Gy) 1)).1 % P = 0 ∧ (jaddHr (withJp Gx Gy 1 Gx (P - Gy) 1)).2 % P ≠ 0) ∧
    (jaddHr (withJp Gx Gy 1 1 2 1)).1 % P ≠ 0 := by decide +kernel

theorem witness_JacobianNegateAndEndomorphism : (withJp 5 9 P 0 0 0).JP[(0 : PtNum)].Z.toNat % P = 0 ∧
    (withJp Gx Gy 1 0 0 0).JP[(0 : PtNum)].Z.toNat % P ≠ 0 := by decide +kernel

theorem witness_Conversions : (withJp 5 9 P 0 0 0).JP[(0 : PtNum)].Z.toNat % P = 0 ∧
    (withJp Gx Gy 1 0 0 0).JP[(0 : PtNum)].Z.toNat % P ≠ 0 := by decide +kernel

/-- The two affine operands of a state: the flags, and whether the coordinates agree modulo `P`. -/
def apCase (s : State) : Bool × Bool × Bool × Bool :=
  (s.AP[(0 : PtNum)].inf, s.AP[(1 : PtNum)].inf, s.AP[(0 : PtNum)].x.toNat % P == s.AP[(1 : PtNum)].x.toNat % P,
    s.AP[(0 : PtNum)].y.toNat % P == s.AP[(1 : PtNum)].y.toNat % P)

theorem witness_AffineAddAndDouble :
    (apCase ((State.reset.setAp 0 A0).setAp 1 A0)).1 = true ∧ (apCase ((State.reset.setAp 0 A0).setAp 1 A0)).2.1 = true ∧
    (apCase (State.reset.setAp 0 A0)).1 = true ∧ (apCase (State.reset.setAp 0 A0)).2.1 = false ∧
    (apCase (State.reset.setAp 1 A0)).1 = false ∧ (apCase (State.reset.setAp 1 A0)).2.1 = true ∧
    apCase (withAp 1 2 (P + 1) (P + 2) 0) = (false, false, true, true) ∧
    apCase (withAp Gx Gy Gx (P - Gy) 0) = (false, false, true, false) ∧
    apCase (withAp Gx Gy 1 2 0) = (false, false, false, false) ∧
    (withAp 1 P 0 0 0).AP[(0 : PtNum)].y.toNat % P = 0 ∧ (withAp Gx Gy 0 0 0).AP[(0 : PtNum)].y.toNat % P ≠ 0 := by
  decide +kernel

theorem witness_DecompressionFindsTheRoot :
    (0 < Gx ∧ Gx < P ∧ ∃ z : Nat, z ^ 2 % P = (Gx ^ 3 + 7) % P) ∧
    ¬ (0 < 0 ∧ 0 < P ∧ ∃ z : Nat, z ^ 2 % P = (0 ^ 3 + 7) % P) ∧
    ¬ (0 < P ∧ P < P ∧ ∃ z : Nat, z ^ 2 % P = (P ^ 3 + 7) % P) :=
  ⟨⟨by decide +kernel, by decide +kernel, Gy, by decide +kernel⟩, fun h => absurd h.1 (by decide),
    fun h => absurd h.2.1 (lt_irrefl P)⟩

theorem witness_CurveOrTwist : 0 < (1 : Big).toNat ∧ (1 : Big).toNat < P ∧
    0 < (BitVec.ofNat 256 (P - 1)).toNat ∧ (BitVec.ofNat 256 (P - 1)).toNat < P := by decide +kernel

theorem base_equation : secp256k1.Nonsingular (Gx : ZMod P) (Gy : ZMod P) := by
  have : Fact (Nat.Prime P) := ⟨Laws.prime_P⟩
  rw [WeierstrassCurve.Affine.nonsingular_iff]
  refine ⟨?_, .inr ?_⟩
  · rw [WeierstrassCurve.Affine.equation_iff]
    have h : ((Gy ^ 2 : Nat) : ZMod P) = ((Gx ^ 3 + 7 : Nat) : ZMod P) := by
      rw [ZMod.natCast_eq_natCast_iff']; decide +kernel
    push_cast at h
    simpa [secp256k1] using h
  · have h : ((2 * Gy : Nat) : ZMod P) ≠ 0 := by
      rw [Ne, ZMod.natCast_eq_zero_iff]; decide +kernel
    intro hh
    apply h
    push_cast
    have : (Gy : ZMod P) = -Gy := by simpa [secp256k1] using hh
    linear_combination this

/-- The base point stands for an element of the group, and so does its negative for its inverse. -/
theorem base_stands [Fact (Nat.Prime P)] : ∃ A : secp256k1.Point, A ≠ 0 ∧ basePoint.stands A ∧ (aneg basePoint).stands (-A) := by
  have hx : ((intOf (toBig Gx) : Int) : ZMod P) = (Gx : ZMod P) := by
    rw [show intOf (toBig Gx) = ((Gx : Nat) : Int) by decide +kernel]; simp
  have hy : ((intOf (toBig Gy) : Int) : ZMod P) = (Gy : ZMod P) := by
    rw [show intOf (toBig Gy) = ((Gy : Nat) : Int) by decide +kernel]; simp
  refine ⟨.some _ _ base_equation, WeierstrassCurve.Affine.Point.some_ne_zero _, ⟨rfl, hx, hy⟩, ?_⟩
  rw [WeierstrassCurve.Affine.Point.neg_some]
  refine ⟨rfl, ?_, ?_⟩
  · have h : (aneg basePoint).x = toBig Gx := by decide +kernel
    rw [h, hx]
  · have h : (aneg basePoint).y = toBig (modP (-intOf basePoint.y)) := by decide +kernel
    rw [h, intOf_toBig_modP, modP_cast]
    push_cast
    rw [show intOf basePoint.y = intOf (toBig Gy) from rfl, hy]
    simp [WeierstrassCurve.Affine.negY, secp256k1]

theorem base_jacobian_stands [Fact (Nat.Prime P)] : ∃ A : secp256k1.Point, A ≠ 0 ∧ (jfroma basePoint).stands A := by
  obtain ⟨A, h, s, -⟩ := base_stands
  exact ⟨A, h, basePoint, by decide +kernel, s⟩

theorem witness_JacobianGroupLaw : Nat.Prime P ∧ ∀ [Fact (Nat.Prime P)], ∃ A : secp256k1.Point,
    (jfroma basePoint).stands A ∧ basePoint.stands A ∧ A ≠ 0 ∧ J0.stands (0 : secp256k1.Point) := by
  refine ⟨Laws.prime_P, ?_⟩
  intro _
  obtain ⟨A, h, s, -⟩ := base_stands
  exact ⟨A, ⟨basePoint, by decide +kernel, s⟩, s, h, A0, by decide +kernel, rfl⟩

theorem witness_AffineGroupLaw : ∀ [Fact (Nat.Prime P)], ∃ A : secp256k1.Point, basePoint.stands A ∧
    (aneg basePoint).stands (-A) ∧ A ≠ 0 ∧ -A ≠ 0 ∧ A + -A = 0 ∧ A0.stands (0 : secp256k1.Point) := by
  intro _
  obtain ⟨A, h, s, s'⟩ := base_stands
  exact ⟨A, s, s', h, neg_ne_zero.2 h, add_neg_cancel A, rfl⟩

theorem witness_PlainMultiplierIsTheGroupMultiple : ∀ [Fact (Nat.Prime P)], ∃ A : secp256k1.Point, basePoint.stands A := by
  intro _
  obtain ⟨A, -, s, -⟩ := base_stands
  exact ⟨A, s⟩

theorem witness_SplitWritesBothHalves : 15 ≤ (15 : FrNum).val ∧ (14 : FrNum).val + 1 < 16 ∧
    (0 < (withFr 1 0 0).FR[(0 : FrNum)].toNat ∧ (withFr 1 0 0).FR[(0 : FrNum)].toNat < n) ∧
    (0 < (withFr (n - 1) 0 0).FR[(0 : FrNum)].toNat ∧ (withFr (n - 1) 0 0).FR[(0 : FrNum)].toNat < n) ∧
    ¬ 0 < (withFr 0 0 0).FR[(0 : FrNum)].toNat ∧ ¬ (withFr n 0 0).FR[(0 : FrNum)].toNat < n := by decide +kernel

theorem witness_SplitIsShortAndCongruent : (0 : Int) < 1 ∧ (1 : Int) < n ∧ Machine.split 1 = (1, 0, false, false) ∧
    (0 : Int) < n - 1 ∧ (n : Int) - 1 < n ∧ Machine.split (n - 1) = (1, 0, true, false) := by decide +kernel

theorem witness_PrecomputeBuildsOrKeepsTheTable :
    (3 : Byte) ∉ [1, 2, 4, 8] ∧ (1 : Byte) ∈ [1, 2, 4, 8] ∧ (8 : Byte) ∈ [1, 2, 4, 8] ∧
    oncurve State.reset.AP[(0 : PtNum)] = false ∧ oncurve (cachedAp 1).AP[(0 : PtNum)] = true ∧
    ((cachedAp 1).TBL.valid = true ∧ (cachedAp 1).TBL.x = (cachedAp 1).AP[(0 : PtNum)].x ∧
      (cachedAp 1).TBL.y = (cachedAp 1).AP[(0 : PtNum)].y ∧ (cachedAp 1).TBL.W = 1 ∧ (cachedAp 1).TBL.glv = true) ∧
    oncurve (baseAp 1).AP[(0 : PtNum)] = true ∧ ¬ (baseAp 1).TBL.valid = true :=
  ⟨by decide, by decide, by decide, by decide +kernel, baseAp_oncurve 1, ⟨rfl, by decide +kernel, by decide +kernel, rfl, rfl⟩,
    baseAp_oncurve 1, by decide⟩

theorem witness_WindowedMultiply :
    (16 : Byte) ∉ [1, 2, 4, 8] ∧ (1 : Byte) ∈ [1, 2, 4, 8] ∧
    ¬ 0 < (baseAp 0).FR[(0 : FrNum)].toNat ∧ ¬ (baseAp n).FR[(0 : FrNum)].toNat < n ∧
    oncurve (withFr 1 0 0).AP[(0 : PtNum)] = false ∧
    (0 < (cachedAp (n - 1)).FR[(0 : FrNum)].toNat ∧ (cachedAp (n - 1)).FR[(0 : FrNum)].toNat < n ∧
      oncurve (cachedAp (n - 1)).AP[(0 : PtNum)] = true ∧ (cachedAp (n - 1)).Inv) ∧
    (0 < (baseAp 1).FR[(0 : FrNum)].toNat ∧ (baseAp 1).FR[(0 : FrNum)].toNat < n ∧
      oncurve (baseAp 1).AP[(0 : PtNum)] = true ∧ (baseAp 1).Inv) :=
  ⟨by decide, by decide, by decide +kernel, by decide +kernel, by decide +kernel,
    ⟨by decide +kernel, by decide +kernel, baseAp_oncurve (n - 1), cachedAp_inv (n - 1)⟩,
    ⟨by decide +kernel, by decide +kernel, baseAp_oncurve 1, baseAp_inv 1⟩⟩

theorem witness_PlainMultiply :
    ¬ 0 < (baseAp 0).FR[(0 : FrNum)].toNat ∧ ¬ (baseAp n).FR[(0 : FrNum)].toNat < n ∧
    (0 < (withFr 1 0 0).FR[(0 : FrNum)].toNat ∧ oncurve (withFr 1 0 0).AP[(0 : PtNum)] = false) ∧
    (0 < (baseAp (n - 1)).FR[(0 : FrNum)].toNat ∧ (baseAp (n - 1)).FR[(0 : FrNum)].toNat < n ∧
      oncurve (baseAp (n - 1)).AP[(0 : PtNum)] = true) :=
  ⟨by decide +kernel, by decide +kernel, by decide +kernel, by decide +kernel, by decide +kernel, baseAp_oncurve (n - 1)⟩

theorem witness_WnafDigitsAreARecoding : (1 ∈ [1, 2, 4, 8] ∧ 2 ^ 256 - 1 < 2 ^ (if false then 128 else 256)) ∧
    (8 ∈ [1, 2, 4, 8] ∧ 2 ^ 128 - 1 < 2 ^ (if true then 128 else 256)) ∧ 0 < 2 ^ (if true then 128 else 256) := by
  decide +kernel

/-- The digits of the examples of R235. -/
theorem test_digits : wnafDigits 4 4 505 = [-7, 0, 2, 0] ∧ wnafDigits 8 2 0x80 = [128, 0] ∧
    wnafDigits 8 3 0x81 = [-127, 1, 0] ∧ wnafDigits 2 4 14 = [2, -1, 1, 0] ∧ wnafDigits 1 4 5 = [1, 0, 1, 0] ∧
    wnafDigits 8 17 (2 ^ 128 - 1) = [-1, 0, 0, 0, 0, 0, 0, 0, 0, 0, 0, 0, 0, 0, 0, 0, 1] := by decide +kernel

theorem witness_TheTableHoldsTheMultiples : oncurve basePoint = true ∧ 8 ∈ [1, 2, 4, 8] ∧ 16 < nwin 8 true ∧
    1 ≤ 1 ∧ 128 ≤ 2 ^ (8 - 1) ∧ 256 < nwin 1 false ∧ 1 ≤ 2 ^ (1 - 1) := by decide +kernel

theorem witness_TheEndomorphismIsMultiplicationByLambda : oncurve basePoint = true := by decide +kernel

theorem witness_TheMultipliersAgree : oncurve basePoint = true ∧ (0 : Int) < 1 ∧ (1 : Int) < n ∧ (0 : Int) < n - 1 ∧
    (n : Int) - 1 < n ∧ 1 ∈ [1, 2, 4, 8] ∧ 8 ∈ [1, 2, 4, 8] := by decide +kernel

end Sys2Proof.Tests
end

section
/-! SUPPORT. What a command that ends normally leaves, said once for all commands, and the frames that follow: the
flags, the table, the sponge, the sticky mask. -/

namespace Sys2Proof.Machine

open Sys2Proof.Config

/-- What the normal end of each command may leave: the destinations its rule names, and what is known of the values
written there. -/
inductive Writes (s : State) : Instr → State → Prop where
  | cNop : Writes s .cNop s
  | cClrerr : Writes s .cClrerr { s with ERRSTICKY := 0 }
  | cWipe : Writes s .cWipe (wipe s)
  | cTblinv : Writes s .cTblinv { s with TBL := { s.TBL with valid := false } }
  | kInit : Writes s .kInit (startHash s)
  | kAbsorb {b S blk k r} (phase : s.KPHASE = .absorb)
      (result : absorbByte b s = { s with S := S, BLK := blk, KPOS := k, KRST := r }) :
      Writes s (.kAbsorb b) { s with S := S, BLK := blk, KPOS := k, KRST := r }
  | kAbsorbw {S blk k r} (phase : s.KPHASE = .absorb)
      (result : absorbWord s.KDIN s = { s with S := S, BLK := blk, KPOS := k, KRST := r }) :
      Writes s .kAbsorbw { s with S := S, BLK := blk, KPOS := k, KRST := r }
  | kFinal {S blk} : Writes s .kFinal { s with S := S, BLK := blk, KPOS := 0, KRST := true, KPHASE := .done }
  | kPerm : Writes s .kPerm { s with S := f1600 s.S }
  | fRed {rd ra m} {v : Int} (range : 0 ≤ v ∧ v < modulus m) : Writes s (.fRed rd ra m) (s.setFr rd v)
  | fAdd {rd ra rb m} {v : Int} (range : 0 ≤ v ∧ v < modulus m) : Writes s (.fAdd rd ra rb m) (s.setFr rd v)
  | fSub {rd ra rb m} {v : Int} (range : 0 ≤ v ∧ v < modulus m) : Writes s (.fSub rd ra rb m) (s.setFr rd v)
  | fMul {rd ra rb m} {v : Int} (range : 0 ≤ v ∧ v < modulus m) : Writes s (.fMul rd ra rb m) (s.setFr rd v)
  | fPow {rd ra rb m} {v : Int} (range : 0 ≤ v ∧ v < modulus m) : Writes s (.fPow rd ra rb m) (s.setFr rd v)
  | fInv {rd ra m} {v : Int} (range : 0 ≤ v ∧ v < modulus m) : Writes s (.fInv rd ra m) (s.setFr rd v)
  | fBinv {ra m count} {out : List Int} (range : ∀ v ∈ out, 0 ≤ v ∧ v < modulus m) :
      Writes s (.fBinv ra m count) { s with FR := setRun s.FR ra.val out }
  | jDbl {rd ra} : Writes s (.jDbl rd ra) (s.putJp rd (jdbl (s.jp ra)))
  | jAdd {rd ra rb} : Writes s (.jAdd rd ra rb) (s.putJp rd (jadd (s.jp ra) (s.jp rb)))
  | jNeg {rd ra} : Writes s (.jNeg rd ra) (s.putJp rd (jneg (s.jp ra)))
  | jEq {ra rb} : Writes s (.jEq ra rb) (s.setEq (jeq (s.jp ra) (s.jp rb)))
  | jFroma {rd ra} : Writes s (.jFroma rd ra) ((s.setJp rd (jfroma (s.ap ra))).setInf (s.ap ra).inf)
  | jToa {rd ra a} (result : jtoa (s.jp ra) = .ok a) : Writes s (.jToa rd ra) (s.putAp rd a)
  | jEndo {rd ra} : Writes s (.jEndo rd ra) (s.putJp rd (jendo (s.jp ra)))
  | aAdd {rd ra rb a} (result : aadd (s.ap ra) (s.ap rb) = .ok a) : Writes s (.aAdd rd ra rb) (s.putAp rd a)
  | aDbl {rd ra a} (result : adbl (s.ap ra) = .ok a) : Writes s (.aDbl rd ra) (s.putAp rd a)
  | aNeg {rd ra} : Writes s (.aNeg rd ra) (s.putAp rd (aneg (s.ap ra)))
  | aEq {ra rb} : Writes s (.aEq ra rb) (s.setEq (aeq (s.ap ra) (s.ap rb)))
  | aValid {ra} : Writes s (.aValid ra) (s.setCurveTests (dualvalid (s.ap ra)) (oncurve (s.ap ra)))
  | aDecomp {rd ra m a} (result : decomp (s.fr ra) m = .ok a) :
      Writes s (.aDecomp rd ra m) ((s.setAp rd a).setInf false)
  | aLdg {rd} : Writes s (.aLdg rd) ((s.setAp rd basePoint).setInf false)
  | sSplit {rd ra rd' : FrNum} {m1 m2 : Nat} {s1 s2} (first : m1 < 2 ^ 128) (second : m2 < 2 ^ 128) :
      Writes s (.sSplit rd ra) (((s.setFr rd m1).setFr rd' m2).setHalfSigns s1 s2)
  | sPrecomp {ra m w t} (width : validWidth w = true) (point : oncurve (s.ap ra) = true)
      (lookup : s.TBL.fill (s.ap ra) w m = .ok t) : Writes s (.sPrecomp ra m w) { s with TBL := t }
  | sMul {rd ra rb m w t k b a} (width : validWidth w = true) (point : oncurve (s.ap ra) = true)
      (lookup : s.TBL.fill (s.ap ra) w m = .ok t) (result : mulwWith t.T k w.toNat m = .ok a) :
      Writes s (.sMul rd ra rb m w) ((({ s with TBL := t }.setAp rd a).setInf false).setTblHit b)
  | sMulu {rd ra rb a} (result : mulu (s.ap ra) (s.fr rb) = .ok a) :
      Writes s (.sMulu rd ra rb) ((s.setAp rd a).setInf false)

theorem mod_modulus_range (a : Int) (m : Bool) : 0 ≤ mod a (modulus m) ∧ mod a (modulus m) < modulus m :=
  ⟨mod_nonneg a (modulus_pos m), mod_lt a (modulus_pos m)⟩

theorem modpow_modulus_range (b : Int) (e : Nat) (m : Bool) :
    0 ≤ modpow b e (modulus m) ∧ modpow b e (modulus m) < modulus m := by
  rw [modpow_eq b e _ (modulus_prime m).one_lt]
  exact mod_modulus_range _ m

/-- The results of `F_BINV` are reduced (41_field.md R141). -/
theorem batchInverse_range {m : Bool} {L out : List Int}
    (h : List.Forall₂ (fun (a v : Int) => (a = 0 ∧ v = 0) ∨ (a ≠ 0 ∧ 0 ≤ v ∧ v < modulus m ∧ mod (a * v) (modulus m) = 1))
      L out) : ∀ v ∈ out, 0 ≤ v ∧ v < modulus m := by
  have hpos : (0 : Int) < modulus m := by exact_mod_cast modulus_pos m
  induction h with
  | nil => simp
  | cons hav _ ih =>
    refine List.forall_mem_cons.2 ⟨?_, ih⟩
    rcases hav with ⟨-, rfl⟩ | ⟨-, h0, h1, -⟩
    · exact ⟨le_rfl, hpos⟩
    · exact ⟨h0, h1⟩

/-- A command that ends normally has left what `Writes` says. -/
theorem writes_of_effect {i : Instr} {s u : State} (h : effect i s = .ok u) : Writes s i u := by
  cases i
  case kAbsorb b =>
    rcases inAbsorb_cases s (absorbByte b) with ⟨hp, e⟩ | ⟨-, e⟩ <;> cases e.symm.trans h
    obtain ⟨S, blk, k, r, he⟩ := absorbByte_frame b s
    exact he ▸ .kAbsorb hp he
  case kAbsorbw =>
    rcases inAbsorb_cases s (absorbWord s.KDIN) with ⟨hp, e⟩ | ⟨-, e⟩ <;> cases e.symm.trans h
    obtain ⟨S, blk, k, r, he⟩ := absorbWord_frame s.KDIN s
    exact he ▸ .kAbsorbw hp he
  case kFinal =>
    rcases inAbsorb_cases s padAndFinish with ⟨-, e⟩ | ⟨-, e⟩ <;> cases e.symm.trans h
    obtain ⟨blk, he, -⟩ := padAndFinish_eq s
    exact he ▸ .kFinal
  case fInv rd ra m =>
    rcases inverseInto_cases rd ra m s with ⟨-, v, e, h0, h1, -⟩ | ⟨-, e⟩ <;> cases e.symm.trans h
    exact .fInv ⟨h0, h1⟩
  case fBinv ra m count =>
    rcases batchInverseAt_cases ra m count s with ⟨-, out, e, hf⟩ | ⟨-, e⟩ <;> cases e.symm.trans h
    exact .fBinv (batchInverse_range hf)
  case jToa rd ra =>
    rcases affineInto_cases rd s (jtoa (s.jp ra)) with ⟨a, ha, e⟩ | ⟨c, -, e⟩ <;> cases e.symm.trans h
    exact .jToa ha
  case aAdd rd ra rb =>
    rcases affineInto_cases rd s (aadd (s.ap ra) (s.ap rb)) with ⟨a, ha, e⟩ | ⟨c, -, e⟩ <;> cases e.symm.trans h
    exact .aAdd ha
  case aDbl rd ra =>
    rcases affineInto_cases rd s (adbl (s.ap ra)) with ⟨a, ha, e⟩ | ⟨c, -, e⟩ <;> cases e.symm.trans h
    exact .aDbl ha
  case aDecomp rd ra m =>
    rcases decompInto_cases rd ra m s with ⟨a, ha, e⟩ | ⟨-, e⟩ <;> cases e.symm.trans h
    exact .aDecomp ha
  case sSplit rd ra =>
    rcases splitInto_cases rd ra s with ⟨_, -, e⟩ | ⟨-, -, e⟩ | ⟨-, e⟩ <;> cases e.symm.trans h
    exact .sSplit (split_small _).1 (split_small _).2
  case sPrecomp ra m w =>
    rcases precompute_cases ra m w s with ⟨hw, ho, t, ht, e⟩ | ⟨-, -, e⟩ | ⟨-, e⟩ <;> cases e.symm.trans h
    exact .sPrecomp hw ho ht
  case sMul rd ra rb m w =>
    rcases multiplyInto_cases rd ra rb m w s with ⟨hw, -, ho, a, t, ht, ha, e⟩ | ⟨-, -, -, e⟩ | ⟨-, -, e⟩ | ⟨-, e⟩ <;>
      cases e.symm.trans h
    exact .sMul hw ho ht ha
  case sMulu rd ra rb =>
    rcases plainMultiplyInto_cases rd ra rb s with ⟨-, -, a, ha, e⟩ | ⟨-, -, e⟩ | ⟨-, e⟩ <;> cases e.symm.trans h
    exact .sMulu ha
  case fPow rd ra rb m =>
    obtain rfl := Except.ok.inj h
    exact .fPow (modpow_modulus_range ..)
  case fRed | fAdd | fSub | fMul =>
    obtain rfl := Except.ok.inj h
    constructor
    exact mod_modulus_range ..
  all_goals
    obtain rfl := Except.ok.inj h
    constructor

/-- All that a command can leave: its writes with the normal end, or one fault (60_exceptions.md R272, R273). -/
theorem exec_writes {i : Instr} {s t : State} (h : exec i s = .next t) :
    (∃ u, Writes s i u ∧ t = normalEnd u) ∨ ∃ c, t = takeFault c s := by
  rcases exec_cases h with ⟨u, hu, rfl⟩ | ⟨c, -, rfl⟩
  · exact .inl ⟨u, writes_of_effect hu, rfl⟩
  · exact .inr ⟨c, rfl⟩

/-! ### Frames -/

namespace Writes
variable {i : Instr} {s u : State}

/-- A flag is written only by the commands listed for it (10_state.md R30). -/
theorem flags (h : Writes s i u) : u.FLAGS = i.flagsFrom s.FLAGS u.FLAGS := by cases h <;> rfl

/-- Only the commands whose rows include the table write it. -/
theorem tbl (h : Writes s i u) (hi : i.mayChange .tblinfo = false) : u.TBL = s.TBL := by
  cases h
  case cTblinv | sPrecomp | sMul => cases hi
  all_goals rfl

/-- Only the commands of the KSE write the buffer, the cursor and the phase (40_keccak.md R116). -/
theorem frame_of_not_kse (h : Writes s i u) (hi : i.isKse = false) :
    u = { s with
      KDIN := u.KDIN, FR := u.FR, AP := u.AP, JP := u.JP, FLAGS := u.FLAGS, ERRSTICKY := u.ERRSTICKY,
      TBL := u.TBL } := by
  cases h
  case kInit | kAbsorb | kAbsorbw | kFinal | kPerm => cases hi
  all_goals rfl

/-- Only `C_CLRERR` writes the sticky mask at a normal end, and clears it (44_system.md R261). -/
theorem errsticky (h : Writes s i u) : u.ERRSTICKY = s.ERRSTICKY ∨ u.ERRSTICKY = 0 := by
  cases h
  case cClrerr => exact .inr rfl
  all_goals exact .inl rfl

end Writes
end Sys2Proof.Machine
end

section
/-! SUPPORT. The invariant in three parts: the sponge's buffer, the error registers, the table cache. Each part is kept
by every command and by every host access. -/

namespace Sys2Proof.Machine

open Sys2Proof.Config

/-- The part of the invariant that speaks of the sponge (10_state.md R24). -/
structure State.BufferInv (s : State) : Prop where
  clean : s.KRST = false → ∀ j : Fin 136, s.KPOS ≤ j → s.blkByte j = 0
  deadAtZero : s.KRST = true → s.KPOS = 0
  deadOutside : s.KPHASE ≠ .absorb → s.KRST = true

/-- The part of the invariant that speaks of the error registers (10_state.md R32). -/
def ErrorInv (code : BitVec 3) (sticky : BitVec 9) : Prop :=
  sticky.getLsbD 0 = false ∧ (code ≠ 0 → sticky.getLsbD code.toNat = true)

/-- The part of the invariant that speaks of the table cache (10_state.md R33, R34). -/
def Table.OfTag (t : Table) : Prop :=
  t.valid = true → validWidth t.W = true ∧ oncurve ⟨t.x, t.y, false⟩ = true ∧
    table ⟨t.x, t.y, false⟩ t.W.toNat t.glv = .ok t.T

theorem State.inv_iff (s : State) : s.Inv ↔ s.BufferInv ∧ ErrorInv s.ERRCODE s.ERRSTICKY ∧ s.TBL.OfTag :=
  ⟨fun h => ⟨⟨h.cleanBuffer, h.deadAtZero, h.deadOutside⟩, ⟨h.stickyZero, h.codeIsSticky⟩, h.tableOfTag⟩,
    fun ⟨hb, he, ht⟩ => ⟨hb.clean, hb.deadAtZero, hb.deadOutside, he.1, he.2, ht⟩⟩

/-! ### The buffer -/

/-- A dead buffer with its cursor at 0 meets its part of the invariant in every phase. -/
theorem bufferInv_of_dead {s : State} (hr : s.KRST = true) (hk : s.KPOS = 0) : s.BufferInv :=
  ⟨fun h => Bool.noConfusion (h.symm.trans hr), fun _ => hk, fun _ => hr⟩

/-- The bytes of the block being accumulated are zero from the cursor on, whether the buffer is live or dead. -/
theorem State.BufferInv.liveByte_eq_zero {s : State} (h : s.BufferInv) {j : Fin 136} (hj : s.KPOS ≤ j) :
    s.liveByte j = 0 := by
  unfold State.liveByte
  cases hr : s.KRST
  · exact h.clean hr j hj
  · rfl

/-- A byte keeps the buffer clean beyond the cursor it leaves (40_keccak.md R110). -/
theorem absorbByte_bufferInv {s : State} (h : s.BufferInv) (hp : s.KPHASE = .absorb) (b : Byte) :
    (absorbByte b s).BufferInv ∧ (absorbByte b s).KPHASE = .absorb := by
  by_cases hk : s.KPOS.val < 135
  · obtain ⟨blk, e, hblk⟩ := absorbByte_some b s hk
    rw [e]
    refine ⟨⟨fun _ j hj => ?_, fun hr => Bool.noConfusion hr, fun hq => absurd hp hq⟩, hp⟩
    have hlt : s.KPOS < j := lt_of_lt_of_le (Fin.lt_def.2 (Nat.lt_succ_self _)) hj
    show bufferByte blk j = 0
    rw [hblk, if_neg hlt.ne', h.liveByte_eq_zero hlt.le]
  · obtain ⟨blk, e, -⟩ := absorbByte_none b s (by omega)
    rw [e]
    exact ⟨bufferInv_of_dead rfl rfl, hp⟩

/-- The four bytes of a word, one after the other (40_keccak.md R111). -/
theorem absorbWord_bufferInv {s : State} (h : s.BufferInv) (hp : s.KPHASE = .absorb) (w : Word) :
    (absorbWord w s).BufferInv := by
  obtain ⟨h0, p0⟩ := absorbByte_bufferInv h hp (wordByte w 0)
  obtain ⟨h1, p1⟩ := absorbByte_bufferInv h0 p0 (wordByte w 1)
  obtain ⟨h2, p2⟩ := absorbByte_bufferInv h1 p1 (wordByte w 2)
  exact (absorbByte_bufferInv h2 p2 (wordByte w 3)).1

theorem Writes.bufferInv {i : Instr} {s u : State} (h : Writes s i u) (hs : s.BufferInv) : u.BufferInv := by
  cases hi : i.isKse with
  | false =>
    rw [h.frame_of_not_kse hi]
    exact ⟨hs.clean, hs.deadAtZero, hs.deadOutside⟩
  | true =>
    cases h
    case kInit => exact bufferInv_of_dead rfl rfl
    case kAbsorb b _ _ _ _ phase result => exact result ▸ (absorbByte_bufferInv hs phase b).1
    case kAbsorbw phase result => exact result ▸ absorbWord_bufferInv hs phase _
    case kFinal => exact bufferInv_of_dead rfl rfl
    case kPerm => exact ⟨hs.clean, hs.deadAtZero, hs.deadOutside⟩
    all_goals cases hi

/-! ### The error registers -/

/-- A fault puts its code into the mask, and no code is 0 (60_exceptions.md R271, R272). -/
theorem ErrorInv.of_fault {code : BitVec 3} {sticky : BitVec 9} (h : ErrorInv code sticky) (c : CmdFault) :
    ErrorInv c.code (sticky ||| (1#9 <<< c.code.toNat)) := by
  have hbits : (1#9 <<< c.code.toNat).getLsbD 0 = false ∧ (1#9 <<< c.code.toNat).getLsbD c.code.toNat = true := by
    cases c <;> decide
  refine ⟨?_, fun _ => ?_⟩
  · rw [BitVec.getLsbD_or, h.1, hbits.1]; rfl
  · rw [BitVec.getLsbD_or, hbits.2, Bool.or_true]

theorem ErrorInv.of_badAccess {code : BitVec 3} {sticky : BitVec 9} (h : ErrorInv code sticky) :
    ErrorInv code (sticky ||| (1#9 <<< 8)) := by
  refine ⟨?_, fun hc => ?_⟩
  · rw [BitVec.getLsbD_or, h.1]; decide
  · rw [BitVec.getLsbD_or, h.2 hc, Bool.true_or]

/-- After a normal end `ERRCODE` is 0, and the mask is the old one or empty (R273). -/
theorem Writes.errorInv {i : Instr} {s u : State} (h : Writes s i u) (hs : ErrorInv s.ERRCODE s.ERRSTICKY) :
    ErrorInv 0 u.ERRSTICKY := by
  refine ⟨?_, fun hc => absurd rfl hc⟩
  rcases h.errsticky with e | e
  · rw [e]; exact hs.1
  · rw [e]; rfl

/-! ### The table -/

/-- A canonical curve point is finite, so its tag determines it (42_point.md R192). -/
theorem eq_of_oncurve {Q : Affine} (h : oncurve Q = true) : Q = ⟨Q.x, Q.y, false⟩ := by
  have hi : Q.inf = false := by
    simp only [oncurve, Bool.and_eq_true, Bool.not_eq_true'] at h
    exact h.1.1.1
  rw [← hi]

/-- A lookup for a curve point leaves the table of that point in the cache, hit or miss (10_state.md R34). -/
theorem fill_ofTag {t t' : Table} {Q : Affine} {w : Byte} {glv : Bool} (ht : t.OfTag) (hw : validWidth w = true)
    (hQ : oncurve Q = true) (h : t.fill Q w glv = .ok t') : t'.OfTag ∧ table Q w.toNat glv = .ok t'.T := by
  have hq := eq_of_oncurve hQ
  rcases fill_cases t Q w glv with ⟨hit, e⟩ | ⟨-, T, hT, e⟩ <;> cases e.symm.trans h
  · obtain ⟨valid, hx, hy, rfl, rfl⟩ := (hit_iff t Q w glv).1 hit
    obtain ⟨-, -, htable⟩ := ht valid
    rw [hx, hy, ← hq] at htable
    exact ⟨ht, htable⟩
  · refine ⟨fun _ => ⟨hw, ?_, ?_⟩, hT⟩
    · rw [← hq]; exact hQ
    · rw [← hq]; exact hT

theorem Writes.ofTag {i : Instr} {s u : State} (h : Writes s i u) (hs : s.TBL.OfTag) : u.TBL.OfTag := by
  cases hi : i.mayChange .tblinfo with
  | false => rw [h.tbl hi]; exact hs
  | true =>
    cases h
    case cTblinv => exact fun hv => Bool.noConfusion hv
    case sPrecomp width point lookup => exact (fill_ofTag hs width point lookup).1
    case sMul width point lookup _ => exact (fill_ofTag hs width point lookup).1
    all_goals cases hi

/-! ### Commands and host accesses -/

theorem inv_of_takeFault {s : State} (h : s.Inv) (c : CmdFault) : (takeFault c s).Inv := by
  obtain ⟨hb, he, ht⟩ := s.inv_iff.1 h
  exact (State.inv_iff _).2 ⟨⟨hb.clean, hb.deadAtZero, hb.deadOutside⟩, he.of_fault c, ht⟩

theorem inv_of_badAccess {s : State} (h : s.Inv) : (badAccess s).Inv := by
  obtain ⟨hb, he, ht⟩ := s.inv_iff.1 h
  exact (State.inv_iff _).2 ⟨⟨hb.clean, hb.deadAtZero, hb.deadOutside⟩, he.of_badAccess, ht⟩

/-- The invariant does not speak of what the host may write, nor of the host's own two lists. -/
theorem State.Inv.of_hostWrites {s : State} (h : s.Inv) (S KDIN FR AP JP pending replies) :
    State.Inv { s with S := S, KDIN := KDIN, FR := FR, AP := AP, JP := JP, pending := pending, replies := replies } :=
  ⟨h.cleanBuffer, h.deadAtZero, h.deadOutside, h.stickyZero, h.codeIsSticky, h.tableOfTag⟩

/-- Every command keeps the invariant. -/
theorem exec_inv {i : Instr} {s t : State} (hs : s.Inv) (h : exec i s = .next t) : t.Inv := by
  rcases exec_writes h with ⟨u, hu, rfl⟩ | ⟨c, rfl⟩
  · obtain ⟨hb, he, ht⟩ := s.inv_iff.1 hs
    have hb' := hu.bufferInv hb
    exact (State.inv_iff _).2 ⟨⟨hb'.clean, hb'.deadAtZero, hb'.deadOutside⟩, hu.errorInv he, hu.ofTag ht⟩
  · exact inv_of_takeFault hs c

theorem command_inv {w : Word} {s t : State} (hs : s.Inv) (h : command w s = .next t) : t.Inv := by
  rcases command_cases h with ⟨i, -, hi⟩ | ⟨_, -, rfl⟩
  · exact exec_inv hs hi
  · exact inv_of_takeFault hs .illegal

theorem reset_inv : State.reset.Inv :=
  (State.inv_iff _).2 ⟨bufferInv_of_dead rfl rfl, ⟨rfl, fun h => absurd rfl h⟩, fun h => Bool.noConfusion h⟩

theorem afterRead_inv {s : State} (h : s.Inv) (addr : BitVec 12) (bits : Nat) : (afterRead s addr bits).Inv := by
  rcases afterRead_cases s addr bits with ⟨v, -, e⟩ | ⟨-, e⟩ <;> rw [e]
  · exact h.of_hostWrites ..
  · exact (inv_of_badAccess h).of_hostWrites ..

theorem afterWrite_inv {s : State} (h : s.Inv) (addr : BitVec 12) (bits : Nat) (v : Word) :
    (afterWrite s addr bits v).Inv := by
  rcases afterWrite_cases s addr bits v with ⟨r, t, -, hw, e⟩ | ⟨-, e⟩ <;> rw [e]
  · obtain ⟨S, KDIN, FR, AP, JP, rfl⟩ := writeReg_frame hw
    exact h.of_hostWrites ..
  · exact inv_of_badAccess h

end Sys2Proof.Machine

open Sys2Proof.Machine

/-- Settles O2. -/
theorem resetMeetsTheInvariant : Obligations.ResetMeetsTheInvariant := reset_inv

/-- Settles O3, by the five things a step can do. -/
theorem everyStepKeepsTheInvariant : Obligations.EveryStepKeepsTheInvariant := by
  intro s t hs h
  have arrived : ∀ rest, State.Inv { s with pending := rest } := fun _ => hs.of_hostWrites ..
  rcases step_cases h with ⟨-, rfl⟩ | ⟨rest, -, rfl⟩ | ⟨addr, bits, rest, -, rfl⟩ | ⟨addr, bits, v, rest, -, -, rfl⟩ |
    ⟨addr, bits, v, rest, -, -, hc⟩
  · exact hs
  · exact reset_inv.of_hostWrites ..
  · exact afterRead_inv (arrived rest) addr bits
  · exact afterWrite_inv (arrived rest) addr bits v
  · exact command_inv (arrived rest) hc

end

section
/-! SUPPORT. What a command does not read. Started with other flags, and for most commands with another table, it does
the same to everything else (10_state.md R30, R34). -/

namespace Sys2Proof.Machine

open Sys2Proof.Config

/-! ### The sponge operations carry the flags and the table along -/

theorem kclear_withFlagsTbl (s : State) (f : Flags) (t : Table) :
    kclear { s with FLAGS := f, TBL := t } = { kclear s with FLAGS := f, TBL := t } := by
  unfold kclear
  split <;> rfl

theorem absorbByte_withFlagsTbl (b : Byte) (s : State) (f : Flags) (t : Table) :
    absorbByte b { s with FLAGS := f, TBL := t } = { absorbByte b s with FLAGS := f, TBL := t } := by
  simp only [absorbByte, kclear_withFlagsTbl]
  cases nextCursor (kclear s).KPOS <;> rfl

theorem absorbWord_withFlagsTbl (w : Word) (s : State) (f : Flags) (t : Table) :
    absorbWord w { s with FLAGS := f, TBL := t } = { absorbWord w s with FLAGS := f, TBL := t } := by
  simp only [absorbWord, absorbByte_withFlagsTbl]

theorem padAndFinish_withFlagsTbl (s : State) (f : Flags) (t : Table) :
    padAndFinish { s with FLAGS := f, TBL := t } = { padAndFinish s with FLAGS := f, TBL := t } := by
  simp only [padAndFinish, kclear_withFlagsTbl]
  rfl

/-! ### The commands that may fault -/

theorem fr_withFlagsTbl (s : State) (f : Flags) (t : Table) (r : FrNum) :
    State.fr { s with FLAGS := f, TBL := t } r = s.fr r := rfl

theorem ap_withFlagsTbl (s : State) (f : Flags) (t : Table) (r : PtNum) :
    State.ap { s with FLAGS := f, TBL := t } r = s.ap r := rfl

theorem inAbsorb_withFlagsTbl {g : State → State} {s : State} {f : Flags} {t : Table}
    (hg : g { s with FLAGS := f, TBL := t } = { g s with FLAGS := f, TBL := t }) :
    inAbsorb { s with FLAGS := f, TBL := t } g = (inAbsorb s g).map fun u => { u with FLAGS := f, TBL := t } := by
  unfold inAbsorb
  rw [hg]
  split <;> rfl

theorem inverseInto_withFlagsTbl (rd ra : FrNum) (m : Bool) (s : State) (f : Flags) (t : Table) :
    inverseInto rd ra m { s with FLAGS := f, TBL := t } =
      (inverseInto rd ra m s).map fun u => { u with FLAGS := f, TBL := t } := by
  unfold inverseInto
  rw [fr_withFlagsTbl s f t]
  cases modinv (s.fr ra) (modulus m) <;> rfl

theorem batchInverseAt_withFlagsTbl (ra : FrNum) (m : Bool) (count : Byte) (s : State) (f : Flags) (t : Table) :
    batchInverseAt ra m count { s with FLAGS := f, TBL := t } =
      (batchInverseAt ra m count s).map fun u => { u with FLAGS := f, TBL := t } := by
  have run : State.frRun { s with FLAGS := f, TBL := t } ra count.toNat = s.frRun ra count.toNat := rfl
  unfold batchInverseAt
  rw [run]
  cases validBatch ra count
  · rfl
  · cases batchinv ((s.frRun ra count.toNat).map fun v => mod v (modulus m)) (modulus m) <;> rfl

theorem affineInto_withFlagsTbl (rd : PtNum) (r : Except CmdFault Affine) (s : State) (f : Flags) (t : Table) :
    affineInto rd { s with FLAGS := f, TBL := t } r =
      (affineInto rd s r).map fun u => { u with FLAGS := { f with INF := u.FLAGS.INF }, TBL := t } := by
  cases r <;> rfl

theorem decompInto_withFlagsTbl (rd : PtNum) (ra : FrNum) (m : Bool) (s : State) (f : Flags) (t : Table) :
    decompInto rd ra m { s with FLAGS := f, TBL := t } =
      (decompInto rd ra m s).map fun u => { u with FLAGS := { f with INF := u.FLAGS.INF }, TBL := t } := by
  unfold decompInto
  rw [fr_withFlagsTbl s f t]
  cases decomp (s.fr ra) m <;> rfl

theorem splitInto_withFlagsTbl (rd ra : FrNum) (s : State) (f : Flags) (t : Table) :
    splitInto rd ra { s with FLAGS := f, TBL := t } =
      (splitInto rd ra s).map fun u =>
        { u with FLAGS := { f with K1NEG := u.FLAGS.K1NEG, K2NEG := u.FLAGS.K2NEG }, TBL := t } := by
  unfold splitInto
  rw [fr_withFlagsTbl s f t]
  obtain ⟨m1, m2, s1, s2⟩ := split (s.fr ra)
  by_cases h : rd.val + 1 < 16
  · rw [dif_pos h, dif_pos h]
    cases validScalar (s.fr ra) <;> rfl
  · rw [dif_neg h, dif_neg h]
    rfl

theorem plainMultiplyInto_withFlagsTbl (rd ra : PtNum) (rb : FrNum) (s : State) (f : Flags) (t : Table) :
    plainMultiplyInto rd ra rb { s with FLAGS := f, TBL := t } =
      (plainMultiplyInto rd ra rb s).map fun u => { u with FLAGS := { f with INF := u.FLAGS.INF }, TBL := t } := by
  unfold plainMultiplyInto
  rw [fr_withFlagsTbl s f t, ap_withFlagsTbl s f t]
  cases validScalar (s.fr rb)
  · rfl
  · cases oncurve (s.ap ra)
    · rfl
    · cases mulu (s.ap ra) (s.fr rb) <;> rfl

theorem precompute_withFlags (ra : PtNum) (m : Bool) (w : Byte) (s : State) (f : Flags) :
    precompute ra m w { s with FLAGS := f } = (precompute ra m w s).map fun u => { u with FLAGS := f } := by
  unfold precompute
  rw [ap_withFlagsTbl s f s.TBL]
  cases validWidth w
  · rfl
  · cases oncurve (s.ap ra)
    · rfl
    · cases s.TBL.fill (s.ap ra) w m <;> rfl

theorem multiplyInto_withFlags (rd ra : PtNum) (rb : FrNum) (m : Bool) (w : Byte) (s : State) (f : Flags) :
    multiplyInto rd ra rb m w { s with FLAGS := f } = (multiplyInto rd ra rb m w s).map fun u =>
      { u with FLAGS := { f with INF := u.FLAGS.INF, TBLHIT := u.FLAGS.TBLHIT } } := by
  unfold multiplyInto
  rw [fr_withFlagsTbl s f s.TBL, ap_withFlagsTbl s f s.TBL]
  cases validWidth w
  · rfl
  · cases validScalar (s.fr rb)
    · rfl
    · cases oncurve (s.ap ra)
      · rfl
      · cases cachedMul s.TBL (s.ap ra) (s.fr rb) m w <;> rfl

/-! ### All commands -/

/-- A command that does not name the table among its rows does, with other flags `f` and another table `t`, the same to
everything else; of the flags it writes the ones it is listed for. -/
theorem effect_withFlagsTbl {i : Instr} (hi : i.mayChange .tblinfo = false) (s : State) (f : Flags) (t : Table) :
    effect i { s with FLAGS := f, TBL := t } =
      (effect i s).map fun u => { u with FLAGS := i.flagsFrom f u.FLAGS, TBL := t } := by
  cases i
  case cTblinv | sPrecomp | sMul => cases hi
  case kAbsorb b => exact inAbsorb_withFlagsTbl (absorbByte_withFlagsTbl b s f t)
  case kAbsorbw => exact inAbsorb_withFlagsTbl (absorbWord_withFlagsTbl s.KDIN s f t)
  case kFinal => exact inAbsorb_withFlagsTbl (padAndFinish_withFlagsTbl s f t)
  case fInv rd ra m => exact inverseInto_withFlagsTbl rd ra m s f t
  case fBinv ra m count => exact batchInverseAt_withFlagsTbl ra m count s f t
  case jToa rd ra => exact affineInto_withFlagsTbl rd (jtoa (s.jp ra)) s f t
  case aAdd rd ra rb => exact affineInto_withFlagsTbl rd (aadd (s.ap ra) (s.ap rb)) s f t
  case aDbl rd ra => exact affineInto_withFlagsTbl rd (adbl (s.ap ra)) s f t
  case aDecomp rd ra m => exact decompInto_withFlagsTbl rd ra m s f t
  case sSplit rd ra => exact splitInto_withFlagsTbl rd ra s f t
  case sMulu rd ra rb => exact plainMultiplyInto_withFlagsTbl rd ra rb s f t
  all_goals rfl

/-- With other flags `f` every command does the same to everything else; of the flags it writes the ones it is listed
for. -/
theorem effect_withFlags (i : Instr) (s : State) (f : Flags) :
    effect i { s with FLAGS := f } = (effect i s).map fun u => { u with FLAGS := i.flagsFrom f u.FLAGS } := by
  cases hi : i.mayChange .tblinfo with
  | false =>
    rw [effect_withFlagsTbl hi s f s.TBL]
    cases hu : effect i s with
    | error c => rfl
    | ok u => simp only [Except.map, ← (writes_of_effect hu).tbl hi]
  | true =>
    cases i
    case cTblinv => rfl
    case sPrecomp ra m w => exact precompute_withFlags ra m w s f
    case sMul rd ra rb m w => exact multiplyInto_withFlags rd ra rb m w s f
    all_goals cases hi

/-! ### The table is a cache -/

theorem fill_total (t : Table) (Q : Affine) (w : Byte) (glv : Bool) : ∃ t', t.fill Q w glv = .ok t' := by
  rcases fill_cases t Q w glv with ⟨-, e⟩ | ⟨-, T, -, e⟩ <;> exact ⟨_, e⟩

/-- Two caches that hold the tables of their tags give the same contents for the same lookup (10_state.md R34). -/
theorem fill_contents_eq {t₁ t₂ t₁' t₂' : Table} {Q : Affine} {w : Byte} {glv : Bool} (h₁ : t₁.OfTag) (h₂ : t₂.OfTag)
    (hw : validWidth w = true) (hQ : oncurve Q = true) (e₁ : t₁.fill Q w glv = .ok t₁')
    (e₂ : t₂.fill Q w glv = .ok t₂') : t₁'.T = t₂'.T :=
  Except.ok.inj ((fill_ofTag h₁ hw hQ e₁).2.symm.trans (fill_ofTag h₂ hw hQ e₂).2)

/-- Two outcomes of a command that differ at most in the cache and in `TBLHIT`. -/
inductive SameButTable : Except CmdFault State → Except CmdFault State → Prop where
  | ok (u : State) (t : Table) (hit : Bool) :
      SameButTable (.ok u) (.ok { u with TBL := t, FLAGS := { u.FLAGS with TBLHIT := hit } })
  | error (c : CmdFault) : SameButTable (.error c) (.error c)

theorem precompute_withTbl (ra : PtNum) (m : Bool) (w : Byte) (s : State) (t : Table) :
    SameButTable (precompute ra m w s) (precompute ra m w { s with TBL := t }) := by
  obtain ⟨t₁, e₁⟩ := fill_total s.TBL (s.ap ra) w m
  obtain ⟨t₂, e₂⟩ := fill_total t (s.ap ra) w m
  unfold precompute
  rw [ap_withFlagsTbl s s.FLAGS t]
  dsimp only
  rw [e₁, e₂]
  cases validWidth w
  · exact .error .illegal
  · cases oncurve (s.ap ra)
    · exact .error .pointNotOnCurve
    · exact .ok { s with TBL := t₁ } t₂ s.FLAGS.TBLHIT

theorem multiplyInto_withTbl (rd ra : PtNum) (rb : FrNum) (m : Bool) (w : Byte) {s : State} {t : Table}
    (hs : s.TBL.OfTag) (ht : t.OfTag) :
    SameButTable (multiplyInto rd ra rb m w s) (multiplyInto rd ra rb m w { s with TBL := t }) := by
  obtain ⟨t₁, e₁⟩ := fill_total s.TBL (s.ap ra) w m
  obtain ⟨t₂, e₂⟩ := fill_total t (s.ap ra) w m
  unfold multiplyInto
  rw [fr_withFlagsTbl s s.FLAGS t, ap_withFlagsTbl s s.FLAGS t]
  dsimp only [cachedMul]
  rw [e₁, e₂]
  cases hw : validWidth w
  · exact .error .illegal
  · cases validScalar (s.fr rb)
    · exact .error .invalidScalar
    · cases ho : oncurve (s.ap ra)
      · exact .error .pointNotOnCurve
      · dsimp only
        rw [fill_contents_eq hs ht hw ho e₁ e₂]
        cases mulwWith t₂.T (s.fr rb) w.toNat m with
        | error c => exact .error c
        | ok a =>
          exact .ok ((({ s with TBL := t₁ }.setAp rd a).setInf false).setTblHit (s.TBL.hit (s.ap ra) w m)) t₂
            (t.hit (s.ap ra) w m)

/-- A command started with another table of its tag does the same to everything but the cache and `TBLHIT` (R34, R309). -/
theorem effect_withTbl (i : Instr) {s : State} {t : Table} (hs : s.TBL.OfTag) (ht : t.OfTag) :
    SameButTable (effect i s) (effect i { s with TBL := t }) := by
  cases hi : i.mayChange .tblinfo with
  | false =>
    rw [effect_withFlagsTbl hi s s.FLAGS t]
    cases hu : effect i s with
    | error c => exact .error c
    | ok u =>
      simp only [Except.map, ← (writes_of_effect hu).flags]
      exact .ok u t u.FLAGS.TBLHIT
  | true =>
    cases i
    case cTblinv => exact .ok { s with TBL := { s.TBL with valid := false } } { t with valid := false } s.FLAGS.TBLHIT
    case sPrecomp ra m w => exact precompute_withTbl ra m w s t
    case sMul rd ra rb m w => exact multiplyInto_withTbl rd ra rb m w hs ht
    all_goals cases hi

end Sys2Proof.Machine

open Sys2Proof.Machine

/-- Settles O19. -/
theorem flagsFrame : Obligations.FlagsFrame := by
  intro i s t h
  refine ⟨?_, ?_, ?_⟩
  · rcases exec_writes h with ⟨u, hu, rfl⟩ | ⟨c, rfl⟩
    · exact hu.flags
    · cases i <;> rfl
  · rcases exec_writes h with ⟨u, hu, rfl⟩ | ⟨c, rfl⟩
    · exact fun hc => absurd rfl hc
    · exact fun _ => rfl
  · rintro rfl
    cases h
    rfl

/-- Settles O20: the writes of a command started with other flags are the same writes. -/
theorem noCommandReadsAFlag : Obligations.NoCommandReadsAFlag := by
  intro i s t f h
  rw [exec_eq, effect_withFlags]
  rcases exec_cases h with ⟨u, hu, rfl⟩ | ⟨c, hc, rfl⟩
  · rw [hu]
    exact ⟨i.flagsFrom f u.FLAGS, rfl, fun _ => rfl, fun hc => absurd rfl hc⟩
  · rw [hc]
    exact ⟨f, rfl, fun h0 => absurd h0 c.code_ne_zero, fun _ => rfl⟩

/-- Settles O21. -/
theorem theTableIsIndependentOfScalars : Obligations.TheTableIsIndependentOfScalars := by
  intro i s t t' fr h h' h0 h0'
  obtain ⟨u, hu, rfl⟩ := (exec_writes h).resolve_right (by rintro ⟨c, rfl⟩; exact c.code_ne_zero h0)
  obtain ⟨u', hu', rfl⟩ := (exec_writes h').resolve_right (by rintro ⟨c, rfl⟩; exact c.code_ne_zero h0')
  show u.TBL = u'.TBL
  cases hi : i.mayChange .tblinfo with
  | false => exact (hu.tbl hi).trans (hu'.tbl hi).symm
  | true =>
    cases hu
    case cTblinv => cases hu'; rfl
    case sPrecomp lookup =>
      cases hu' with
      | sPrecomp _ _ lookup' => exact Except.ok.inj (lookup.symm.trans lookup')
    case sMul lookup _ =>
      cases hu' with
      | sMul _ _ lookup' _ => exact Except.ok.inj (lookup.symm.trans lookup')
    all_goals cases hi

/-- Settles O22. -/
theorem theTableIsNoCorrectnessHazard : Obligations.TheTableIsNoCorrectnessHazard := by
  intro i s t tbl hs ht h
  have same := effect_withTbl i (s.inv_iff.1 hs).2.2 (State.inv_iff _ |>.1 ht).2.2
  rw [exec_eq] at h ⊢
  generalize effect i s = r at *
  generalize effect i { s with TBL := tbl } = r' at *
  cases same with
  | ok u tbl' hit => cases h; exact ⟨tbl', hit, rfl⟩
  | error c => cases h; exact ⟨tbl, s.FLAGS.TBLHIT, rfl⟩

end

section
/-! SUPPORT. What a command leaves in the operand registers (10_state.md R28, R29, R38). -/

namespace Sys2Proof.Machine

open Sys2Proof.Config

/-! ### Register files -/

theorem getElem_set_cases {α : Type} {k : Nat} (v : Vector α k) (r q : Fin k) (a : α) :
    (v.set r a)[q] = v[q] ∨ (v.set r a)[q] = a := by
  simp only [Fin.getElem_fin, Vector.getElem_set]
  split
  · exact .inr rfl
  · exact .inl rfl

/-- A run of writes leaves in each register its value or one of the values of the run. -/
theorem setRun_cases (fr : Vector Big 16) (lo : Nat) (vs : List Int) (q : FrNum) :
    (setRun fr lo vs)[q] = fr[q] ∨ ∃ v ∈ vs, (setRun fr lo vs)[q] = toBig v := by
  induction vs generalizing fr lo with
  | nil => exact .inl rfl
  | cons v vs ih =>
    rcases ih (fr.setIfInBounds lo (toBig v)) (lo + 1) with h | ⟨x, hx, h⟩
    · by_cases hq : lo = q.val
      · exact .inr ⟨v, List.mem_cons_self, by simpa [setRun, hq] using h⟩
      · exact .inl (by simpa [setRun, Vector.getElem_setIfInBounds, hq] using h)
    · exact .inr ⟨x, List.mem_cons_of_mem _ hx, h⟩

/-- A value in `[0, b)` is written as it is. -/
theorem toBig_lt {v : Int} {b : Nat} (h0 : 0 ≤ v) (h1 : v < b) (hb : b ≤ 2 ^ 256) : (toBig v).toNat < b := by
  have := toBig_toNat h0 (h1.trans_le (by exact_mod_cast hb))
  omega

theorem toBig_lt_modulus {v : Int} {m : Bool} (h : 0 ≤ v ∧ v < modulus m) : (toBig v).toNat < modulus m :=
  toBig_lt h.1 h.2 (modulus_le m).le

/-! ### `FR` -/

theorem setFr_bounded {s : State} {rd : FrNum} {v : Int} {b : Nat} (h : (toBig v).toNat < b) (k : FrNum) :
    (s.setFr rd v).FR[k] = s.FR[k] ∨ ((s.setFr rd v).FR[k]).toNat < b := by
  rcases getElem_set_cases s.FR rd k (toBig v) with e | e
  · exact .inl e
  · exact .inr (lt_of_eq_of_lt (congrArg BitVec.toNat e) h)

/-- An `FR` register keeps its value or is below the command's bound (R38). -/
theorem Writes.fr {i : Instr} {s u : State} (h : Writes s i u) (k : FrNum) :
    u.FR[k] = s.FR[k] ∨ u.FR[k].toNat < i.frBound := by
  cases h
  case cWipe =>
    refine .inr ?_
    have e : (wipe s).FR[k] = 0 := Vector.getElem_replicate _
    rw [e]; exact Nat.one_pos
  case fRed range | fAdd range | fSub range | fMul range | fPow range | fInv range =>
    exact setFr_bounded (toBig_lt_modulus range) k
  case fBinv ra m count out range =>
    rcases setRun_cases s.FR ra.val out k with e | ⟨v, hv, e⟩
    · exact .inl e
    · exact .inr (lt_of_eq_of_lt (congrArg BitVec.toNat e) (toBig_lt_modulus (range v hv)))
  case sSplit rd ra rd' m1 m2 s1 s2 first second =>
    have small : ∀ {v : Nat}, v < 2 ^ 128 → (toBig v).toNat < 2 ^ 128 := fun hv =>
      toBig_lt (Int.natCast_nonneg _) (by exact_mod_cast hv) (Nat.pow_le_pow_right (by decide) (by decide))
    rcases setFr_bounded (s := s.setFr rd m1) (rd := rd') (small second) k with e | e
    · rcases setFr_bounded (s := s) (rd := rd) (small first) k with e' | e'
      · exact .inl (e.trans e')
      · exact .inr (lt_of_eq_of_lt (congrArg BitVec.toNat e) e')
    · exact .inr e
  all_goals exact .inl rfl

/-! ### `AP` -/

/-- A canonical affine register: coordinates in `[0, P)`, and `(0, 0, inf = 1)` for the identity (R28, R38). -/
structure Affine.Canonical (a : Affine) : Prop where
  x_lt : a.x.toNat < P
  y_lt : a.y.toNat < P
  identity : a.inf = true → a = A0

theorem A0_canonical : A0.Canonical := ⟨by decide, by decide, fun _ => rfl⟩

theorem canonical_of_modP (x y : Int) : Affine.Canonical ⟨toBig (modP x), toBig (modP y), false⟩ :=
  ⟨toBig_modP_lt x, toBig_modP_lt y, fun h => Bool.noConfusion h⟩

theorem slopePoint_canonical (sl x1 y1 x2 : Int) : (slopePoint sl x1 y1 x2).Canonical := canonical_of_modP ..

theorem basePoint_canonical : basePoint.Canonical :=
  ⟨by decide, by decide, fun h => Bool.noConfusion h⟩

theorem jtoa_canonical {p : Jacobian} {a : Affine} (h : jtoa p = .ok a) : a.Canonical := by
  rcases jtoa_cases p with ⟨-, e⟩ | ⟨-, x, y, -, e, -⟩ <;> cases e.symm.trans h
  · exact A0_canonical
  · exact canonical_of_modP x y

theorem adbl_canonical {a c : Affine} (h : adbl a = .ok c) : c.Canonical := by
  rcases adbl_cases a with ⟨-, e⟩ | ⟨-, -, e⟩ | ⟨-, -, sl, e, -⟩ <;> cases e.symm.trans h
  · exact A0_canonical
  · exact slopePoint_canonical ..

/-- A short-circuit of `aadd` copies the finite operand; every other result is canonical (42_point.md R185). -/
theorem aadd_result {a b c : Affine} (h : aadd a b = .ok c) :
    (c = a ∧ a.inf = false) ∨ (c = b ∧ b.inf = false) ∨ c.Canonical := by
  rcases aadd_cases a b with ⟨-, e⟩ | ⟨ha, -, e⟩ | ⟨-, -, -, -, e⟩ | ⟨-, -, -, -, e⟩ | ⟨ha, hb, hx, -⟩
  · obtain rfl := Except.ok.inj (e.symm.trans h)
    cases hb : b.inf
    · exact .inr (.inl ⟨rfl, rfl⟩)
    · exact .inr (.inr A0_canonical)
  · obtain rfl := Except.ok.inj (e.symm.trans h)
    exact .inl ⟨rfl, ha⟩
  · exact .inr (.inr (adbl_canonical (e.symm.trans h)))
  · cases e.symm.trans h
  · obtain ⟨sl, e, -⟩ := aadd_chord ha hb hx
    obtain rfl := Except.ok.inj (e.symm.trans h)
    exact .inr (.inr (slopePoint_canonical ..))

theorem aneg_canonical (a : Affine) : (aneg a).Canonical := by
  unfold aneg
  split
  · exact A0_canonical
  · exact canonical_of_modP ..

theorem rootWithParity_range (x : Int) (par : Bool) : 0 ≤ rootWithParity x par ∧ rootWithParity x par < P := by
  have hroot : 0 ≤ modpow (curvef x) sqrtExp P ∧ modpow (curvef x) sqrtExp P < P := by
    rw [modpow_eq _ _ _ Laws.prime_P.one_lt]
    exact ⟨modP_nonneg _, modP_lt _⟩
  unfold rootWithParity
  generalize modpow (curvef x) sqrtExp P = y at hroot
  by_cases hpar : y % 2 = if par then 1 else 0
  · simpa only [if_pos hpar] using hroot
  · simpa only [if_neg hpar] using And.intro (modP_nonneg _) (modP_lt _)

theorem decomp_canonical {x : Int} {par : Bool} {a : Affine} (h : decomp x par = .ok a) : a.Canonical := by
  have hP : P ≤ 2 ^ 256 := (modulus_le false).le
  have hy := rootWithParity_range x par
  unfold decomp at h
  dsimp only at h
  split_ifs at h with hx
  obtain rfl := Except.ok.inj h
  obtain ⟨x0, x1⟩ : 0 < x ∧ x < P := by simpa [inField] using hx
  exact ⟨toBig_lt x0.le x1 hP, toBig_lt hy.1 hy.2 hP, fun h => Bool.noConfusion h⟩

theorem mulwWith_canonical {T : List Affine} {k : Int} {W : Nat} {glv : Bool} {a : Affine}
    (h : mulwWith T k W glv = .ok a) : a.Canonical := by
  unfold mulwWith at h
  cases hr : mulwJacobian T k W glv with
  | error c => rw [hr] at h; cases h
  | ok p => rw [hr] at h; exact jtoa_canonical h

theorem mulu_canonical {Q : Affine} {k : Int} {a : Affine} (h : mulu Q k = .ok a) : a.Canonical := jtoa_canonical h

/-- What a command may write to an `AP` register: a finite register's copy, or a canonical value. -/
def Affine.ResultIn (s : State) (a : Affine) : Prop := (∃ j : PtNum, a = s.AP[j] ∧ a.inf = false) ∨ a.Canonical

theorem set_ap_result {s : State} {rd : PtNum} {a : Affine} (h : a.ResultIn s) (k : PtNum) :
    (s.AP.set rd a)[k] = s.AP[k] ∨ Affine.ResultIn s (s.AP.set rd a)[k] :=
  (getElem_set_cases s.AP rd k a).imp_right fun e => by rw [e]; exact h

/-- An `AP` register keeps its value, or holds a result (R28, R38). -/
theorem Writes.ap {i : Instr} {s u : State} (h : Writes s i u) (k : PtNum) :
    u.AP[k] = s.AP[k] ∨ Affine.ResultIn s u.AP[k] := by
  cases h
  case cWipe =>
    have e : (wipe s).AP[k] = Affine.zero := Vector.getElem_replicate _
    rw [e]
    exact .inr (.inr ⟨by decide, by decide, fun h => Bool.noConfusion h⟩)
  case jToa result => exact set_ap_result (.inr (jtoa_canonical result)) k
  case aAdd ra rb a result =>
    refine set_ap_result ?_ k
    rcases aadd_result result with ⟨rfl, h⟩ | ⟨rfl, h⟩ | h
    · exact .inl ⟨ra, rfl, h⟩
    · exact .inl ⟨rb, rfl, h⟩
    · exact .inr h
  case aDbl result => exact set_ap_result (.inr (adbl_canonical result)) k
  case aNeg => exact set_ap_result (.inr (aneg_canonical _)) k
  case aDecomp result => exact set_ap_result (.inr (decomp_canonical result)) k
  case aLdg => exact set_ap_result (.inr basePoint_canonical) k
  case sMul result => exact set_ap_result (.inr (mulwWith_canonical result)) k
  case sMulu result => exact set_ap_result (.inr (mulu_canonical result)) k
  all_goals exact .inl rfl

/-! ### `JP` -/

/-- A canonical Jacobian register: coordinates in `[0, P)`, and `(0, 1, 0)` for the identity (R29, R38). -/
structure Jacobian.Canonical (p : Jacobian) : Prop where
  X_lt : p.X.toNat < P
  Y_lt : p.Y.toNat < P
  Z_lt : p.Z.toNat < P
  identity : p.isIdentity = true → p = J0

theorem J0_canonical : J0.Canonical := ⟨by decide, by decide, by decide, fun _ => rfl⟩

theorem canonical_of_modP_finite {x y z : Int} (hz : modP z ≠ 0) :
    Jacobian.Canonical ⟨toBig (modP x), toBig (modP y), toBig (modP z)⟩ := by
  refine ⟨toBig_modP_lt x, toBig_modP_lt y, toBig_modP_lt z, fun h => absurd ((isIdentity_iff _).1 h) ?_⟩
  dsimp only
  rwa [intOf_toBig_modP, modP_modP]

theorem jdbl_canonical (p : Jacobian) : (jdbl p).Canonical := by
  unfold jdbl
  dsimp only
  split
  · exact J0_canonical
  · split
    · exact J0_canonical
    · next hz => exact canonical_of_modP_finite hz

/-- With `H ≠ 0` the sum of two finite points is finite, since `P` is prime (42_point.md R173). -/
theorem jaddGeneral_canonical {U1 S1 H r Z1 Z2 : Int} (h1 : modP Z1 ≠ 0) (h2 : modP Z2 ≠ 0) (hH : modP H ≠ 0) :
    (jaddGeneral U1 S1 H r Z1 Z2).Canonical := by
  have : Fact P.Prime := ⟨Laws.prime_P⟩
  refine canonical_of_modP_finite ?_
  unfold modP at *
  rw [Ne, mod_eq_zero_iff_zmod] at *
  push_cast
  exact mul_ne_zero (mul_ne_zero h1 h2) hH

/-- A short-circuit of `jadd` copies the finite operand; every other result is canonical (R173). -/
theorem jadd_result (p q : Jacobian) :
    (jadd p q = p ∧ p.isIdentity = false) ∨ (jadd p q = q ∧ q.isIdentity = false) ∨ (jadd p q).Canonical := by
  unfold jadd
  cases hq : q.isIdentity <;> cases hp : p.isIdentity
  · right; right
    dsimp only
    rw [if_neg Bool.false_ne_true, if_neg Bool.false_ne_true]
    split
    · split
      · exact jdbl_canonical p
      · exact J0_canonical
    · next hH =>
      refine jaddGeneral_canonical ((isIdentity_false_iff p).1 hp) ((isIdentity_false_iff q).1 hq) ?_
      rwa [modP_modP]
  · exact .inr (.inl ⟨rfl, rfl⟩)
  · exact .inl ⟨rfl, rfl⟩
  · exact .inr (.inr J0_canonical)

theorem jneg_canonical (p : Jacobian) : (jneg p).Canonical := by
  unfold jneg
  split
  · exact J0_canonical
  · next h => exact canonical_of_modP_finite ((isIdentity_false_iff p).1 (Bool.eq_false_of_not_eq_true h))

theorem jendo_canonical (p : Jacobian) : (jendo p).Canonical := by
  unfold jendo
  split
  · exact J0_canonical
  · next h => exact canonical_of_modP_finite ((isIdentity_false_iff p).1 (Bool.eq_false_of_not_eq_true h))

/-- What a command may write to a `JP` register: a finite register's copy, a finite `AP` register with `Z = 1`, or a
canonical value. -/
def Jacobian.ResultIn (s : State) (p : Jacobian) : Prop :=
  ((∃ j : PtNum, p = s.JP[j] ∨ p = ⟨s.AP[j].x, s.AP[j].y, 1⟩) ∧ p.isIdentity = false) ∨ p.Canonical

theorem set_jp_result {s : State} {rd : PtNum} {p : Jacobian} (h : p.ResultIn s) (k : PtNum) :
    (s.JP.set rd p)[k] = s.JP[k] ∨ Jacobian.ResultIn s (s.JP.set rd p)[k] :=
  (getElem_set_cases s.JP rd k p).imp_right fun e => by rw [e]; exact h

/-- A `JP` register keeps its value, or holds a result, or is wiped (R29, R38, 44_system.md R262). -/
theorem Writes.jp {i : Instr} {s u : State} (h : Writes s i u) (k : PtNum) :
    (u.JP[k] = s.JP[k] ∨ Jacobian.ResultIn s u.JP[k]) ∨ (i = .cWipe ∧ u.JP[k] = Jacobian.zero) := by
  cases h
  case cWipe => exact .inr ⟨rfl, Vector.getElem_replicate _⟩
  case jDbl => exact .inl (set_jp_result (.inr (jdbl_canonical _)) k)
  case jAdd rd ra rb =>
    refine .inl (set_jp_result ?_ k)
    rcases jadd_result (s.jp ra) (s.jp rb) with ⟨e, h⟩ | ⟨e, h⟩ | h
    · exact .inl (e.symm ▸ ⟨⟨ra, .inl rfl⟩, h⟩)
    · exact .inl (e.symm ▸ ⟨⟨rb, .inl rfl⟩, h⟩)
    · exact .inr h
  case jNeg => exact .inl (set_jp_result (.inr (jneg_canonical _)) k)
  case jFroma rd ra =>
    refine .inl (set_jp_result ?_ k)
    have hid := jfroma_isIdentity (s.ap ra)
    cases hinf : (s.ap ra).inf
    · have e : jfroma (s.ap ra) = ⟨(s.ap ra).x, (s.ap ra).y, 1⟩ := by simp [jfroma, hinf]
      exact .inl ⟨⟨ra, .inr e⟩, hid.trans hinf⟩
    · have e : jfroma (s.ap ra) = J0 := by simp [jfroma, hinf]
      exact .inr (e ▸ J0_canonical)
  case jEndo => exact .inl (set_jp_result (.inr (jendo_canonical _)) k)
  all_goals exact .inl (.inl rfl)

end Sys2Proof.Machine

open Sys2Proof.Config
open Sys2Proof.Machine

/-- Settles O23: each register keeps its value or holds a result, and results are canonical or finite copies. -/
theorem resultsAreCanonical : Obligations.ResultsAreCanonical := by
  intro i s t h
  rcases exec_writes h with ⟨u, hu, rfl⟩ | ⟨c, rfl⟩
  · refine ⟨hu.fr, fun k => ?_, fun k hinf => ?_, fun k => ?_, fun k hZ => ?_⟩
    · rcases hu.ap k with e | ⟨j, e, -⟩ | hc
      · exact .inl ⟨k, e⟩
      · exact .inl ⟨j, e⟩
      · exact .inr ⟨hc.x_lt, hc.y_lt⟩
    · rcases hu.ap k with e | ⟨j, -, e⟩ | hc
      · exact .inl e
      · exact Bool.noConfusion (e.symm.trans hinf)
      · exact .inr (hc.identity hinf)
    · rcases hu.jp k with (e | ⟨⟨j, e⟩, -⟩ | hc) | ⟨-, e⟩
      · exact .inl ⟨k, .inl e⟩
      · exact .inl ⟨j, e⟩
      · exact .inr ⟨hc.X_lt, hc.Y_lt, hc.Z_lt⟩
      · exact .inr (e ▸ by decide)
    · have hid : (u.JP[k]).isIdentity = true := by
        rw [isIdentity_iff]
        exact congrArg Nat.cast hZ
      rcases hu.jp k with (e | ⟨-, e⟩ | hc) | ⟨hi, e⟩
      · exact .inl e
      · exact Bool.noConfusion (e.symm.trans hid)
      · exact .inr (.inl (hc.identity hid))
      · exact .inr (.inr ⟨hi, e⟩)
  · exact ⟨fun _ => .inl rfl, fun k => .inl ⟨k, rfl⟩, fun _ _ => .inl rfl, fun k => .inl ⟨k, .inl rfl⟩,
      fun _ _ => .inl rfl⟩

end

section
/-! SUPPORT. The read-only rows of the window, field by field (10_state.md R30, R31; 20_memory.md R57, R58). -/

namespace Sys2Proof.Machine

open Sys2Proof.Config

/-- The fields of `STATUS` (R31). -/
theorem status_fields (s : State) :
    s.status.getLsbD 0 = false ∧ s.status.getLsbD 1 = (s.ERRCODE != 0) ∧ s.status.extractLsb' 2 2 = s.KPHASE.code ∧
      s.status.getLsbD 4 = s.KRST ∧ s.status.getLsbD 5 = s.TBL.valid ∧ s.status.extractLsb' 6 26 = 0 := by
  unfold State.status
  generalize (s.ERRCODE != 0) = e, s.KPHASE.code = p, s.KRST = r, s.TBL.valid = v
  revert e p r v
  decide

/-- The fields of `TBLINFO` for a valid table (20_memory.md R57). -/
theorem info_fields {t : Table} (h : t.valid = true) :
    t.info.getLsbD 31 = true ∧ t.info.getLsbD 8 = t.glv ∧ t.info.extractLsb' 0 8 = t.W ∧
      t.info.extractLsb' 9 22 = 0 := by
  unfold Table.info
  rw [if_pos h]
  refine ⟨?_, ?_, BitVec.extractLsb'_append_eq_right, ?_⟩
  · rw [BitVec.getLsbD_append, if_neg (by decide)]
    cases t.glv <;> decide
  · rw [BitVec.getLsbD_append, if_neg (by decide)]
    cases t.glv <;> decide
  · rw [BitVec.extractLsb'_append_eq_of_le (by decide)]
    cases t.glv <;> decide

/-- The fields of `FLAGS` (R30). -/
theorem flagsWord_fields (f : Flags) :
    f.word.getLsbD 0 = f.EQ ∧ f.word.getLsbD 1 = f.VALID ∧ f.word.getLsbD 2 = f.ONCURVE ∧
      f.word.getLsbD 3 = f.K1NEG ∧ f.word.getLsbD 4 = f.K2NEG ∧ f.word.getLsbD 5 = f.INF ∧
      f.word.getLsbD 6 = f.TBLHIT ∧ f.word.extractLsb' 7 25 = 0 := by
  obtain ⟨a, b, c, d, e, f, g⟩ := f
  revert a b c d e f g
  decide

/-- A limb of a constant is its digit in base `2^32`. -/
theorem limb_ofNat (v : Nat) (i : Fin 8) : limb (BitVec.ofNat 256 v) i = BitVec.ofNat 32 (v / 2 ^ (32 * i.val)) := by
  apply BitVec.eq_of_getLsbD_eq
  intro k hk
  have hlt : 32 * i.val + k < 256 := by omega
  rw [getLsbD_limb _ _ _ hk, BitVec.getLsbD_ofNat, BitVec.getLsbD_ofNat, Nat.testBit_div_two_pow, Nat.add_comm k]
  simp [hk, hlt]

end Sys2Proof.Machine

open Sys2Proof.Config
open Sys2Proof.Machine

/-- Settles O1. -/
theorem resetLeavesTheResetValues : Obligations.ResetLeavesTheResetValues :=
  ⟨fun _ => Vector.getElem_replicate _, fun _ => Vector.getElem_replicate _, rfl, rfl, rfl, rfl,
    fun _ => Vector.getElem_replicate _, fun _ => Vector.getElem_replicate _, fun _ => Vector.getElem_replicate _,
    rfl, rfl, rfl, rfl, rfl, rfl, fun _ => ⟨rfl, rfl⟩⟩

/-- Settles O15, by the fields of each view. -/
theorem readOnlyViews : Obligations.ReadOnlyViews := by
  refine ⟨fun s => ?_, fun s => ?_, fun s i => ?_, fun s c i => ?_, fun s => ?_, fun s => ⟨rfl, rfl, rfl⟩⟩
  · obtain ⟨busy, err, phase, rst, valid, high⟩ := status_fields s
    refine ⟨s.status, rfl, busy, ?_, ?_, ?_, ?_, rst, valid, high⟩
    · rw [err, bne_iff_ne]
    all_goals
      rw [phase]
      cases s.KPHASE <;> decide
  · refine ⟨s.TBL.info, rfl, info_fields, fun h => ?_⟩
    simp [Table.info, h]
  · exact ⟨fun h => by simp [readReg, limb, h], fun h => by simp [readReg, h]⟩
  · have digits : constValue c = [P, n, Gx, Gy, beta, lambda, a1, negB1, a2, b2].getD c.val 0 := by
      fin_cases c <;> rfl
    rw [← digits, ← limb_ofNat]
    rfl
  · exact ⟨s.FLAGS.word, rfl, flagsWord_fields s.FLAGS⟩

end

section
/-! SUPPORT. The register map in both directions (20_memory.md R51). -/

namespace Sys2Proof.Machine

@[simp] theorem limbOf_val (a : Nat) : (limbOf a).val = a / 4 % 8 := rfl

theorem offset_aligned (r : Reg) : r.offset % 4 = 0 := by
  cases r <;> simp only [Reg.offset] <;> omega

theorem offset_lt (r : Reg) : r.offset < 4096 := by
  cases r <;> simp only [Reg.offset] <;> omega

/-- An offset is answered by the row that sits there: it selects the row's region, and the numbers it carries are the
row's. -/
theorem locate_offset (r : Reg) : locate r.offset = some r := by
  cases r
  case cmd | status | errcode | errsticky | flags | kdin | kpos | tblinfo => rfl
  all_goals
    rw [Reg.offset, locate]
    repeat rw [if_neg (by omega)]
    rw [if_pos (by omega)]
  case' apX | apY | apInf | jpX | jpY | jpZ =>
    simp only [locateAp, locateJp]
    repeat rw [if_neg (by omega)]
    rw [if_pos (by omega)]
  all_goals
    congr 2 <;> apply Fin.ext <;> simp only [limbOf_val, Fin.val_ofNat] <;> omega

theorem offset_of_locateControl {a : Nat} {r : Reg} (h : locateControl a = some r) : r.offset = a := by
  unfold locateControl at h
  split at h <;> cases h <;> rfl

theorem offset_of_locateAp {a : Nat} {r : Reg} (h : locateAp a = some r) (ha : ¬ a % 4 ≠ 0) (lo : ¬ a < 0x400)
    (hi : a < 0x600) : r.offset = a := by
  simp only [locateAp] at h
  split_ifs at h <;> cases h <;> simp only [Reg.offset, limbOf_val, Fin.val_ofNat] <;> omega

theorem offset_of_locateJp {a : Nat} {r : Reg} (h : locateJp a = some r) (ha : ¬ a % 4 ≠ 0) (lo : ¬ a < 0x600)
    (hi : a < 0x800) : r.offset = a := by
  simp only [locateJp] at h
  split_ifs at h <;> cases h <;> simp only [Reg.offset, limbOf_val, Fin.val_ofNat] <;> omega

/-- The row that answers an offset sits there, region by region of the window. -/
theorem offset_of_locate {a : Nat} {r : Reg} (h : locate a = some r) : r.offset = a := by
  unfold locate at h
  repeat' split at h
  -- The goals are the branches of `locate`, in its order.
  on_goal 10 => exact offset_of_locateJp h ‹_› ‹_› ‹_›
  on_goal 9 => exact offset_of_locateAp h ‹_› ‹_› ‹_›
  on_goal 2 => exact offset_of_locateControl h
  all_goals
    cases h <;> simp only [Reg.offset, limbOf_val, Fin.val_ofNat] <;> omega

theorem locate_eq_some_iff {a : Nat} {r : Reg} : locate a = some r ↔ r.offset = a :=
  ⟨offset_of_locate, fun h => h ▸ locate_offset r⟩

theorem offset_injective : Function.Injective Reg.offset := fun r q h =>
  Option.some.inj ((locate_offset r).symm.trans (h ▸ locate_offset q))

theorem locate_eq_none_iff {a : Nat} : locate a = none ↔ ∀ r : Reg, r.offset ≠ a := by
  simp only [Option.eq_none_iff_forall_not_mem, Option.mem_def, locate_eq_some_iff, ne_eq]

/-! ### The row an access reaches -/

theorem target_of_offset {addr : BitVec 12} {r : Reg} (h : r.offset = addr.toNat) : target addr 32 = some r := by
  rw [target, if_pos rfl, locate_eq_some_iff, h]

/-- No row answers an access of a wrong size, a misaligned one or one to a hole (R60). -/
theorem target_of_offTarget {addr : BitVec 12} {bits : Nat} (h : offTarget addr bits) : target addr bits = none := by
  by_cases hb : bits = 32
  · rw [target, if_pos hb, locate_eq_none_iff]
    intro r hr
    rcases h with size | misaligned | hole
    · exact size hb
    · exact misaligned (hr ▸ offset_aligned r)
    · exact hole r hr
  · rw [target, if_neg hb]

theorem target_eq_some_or_none {addr : BitVec 12} {bits : Nat} {r : Reg} (h : r.offset = addr.toNat) :
    target addr bits = some r ∨ target addr bits = none := by
  by_cases hb : bits = 32
  · exact .inl (hb ▸ target_of_offset h)
  · exact .inr (if_neg hb)

/-! ### The rows that answer a read and a write -/

theorem readReg_eq_none_iff {s : State} {r : Reg} : readReg s r = none ↔ r = .cmd := by
  cases r <;> simp [readReg]

theorem writeReg_eq_none_iff {s : State} {r : Reg} {v : Word} :
    writeReg s r v = none ↔ r.readOnly = true ∨ r = .cmd := by
  cases r <;> simp [writeReg, Reg.readOnly]

/-- `RegRead` looks at the block only, not at the host's two lists. -/
theorem readReg_withHostLists (s : State) (pending : List HostEvent) (replies : List Word) (r : Reg) :
    readReg { s with pending := pending, replies := replies } r = readReg s r := rfl

/-- A bad read (R60). -/
theorem hostRead_of_badRead {s : State} {addr : BitVec 12} {bits : Nat} (h : badRead addr bits) :
    hostRead s addr bits = none := by
  rcases h with off | cmd
  · rw [hostRead, target_of_offTarget off, Option.bind_none]
  · rcases target_eq_some_or_none (bits := bits) cmd.symm with e | e <;> rw [hostRead, e] <;> rfl

/-- A bad write (R60) reaches a read-only row or none. -/
theorem target_of_badWrite {addr : BitVec 12} {bits : Nat} (h : badWrite addr bits) :
    target addr bits = none ∨ ∃ r, r.readOnly = true ∧ target addr bits = some r := by
  rcases h with off | ⟨r, ro, hr⟩
  · exact .inl (target_of_offTarget off)
  · exact (target_eq_some_or_none hr).symm.imp_right fun e => ⟨r, ro, e⟩

end Sys2Proof.Machine
end

section
/-! SUPPORT. The step, arrival by arrival (R52 to R60; 60_exceptions.md R291), and what it does to the host's lists. -/

namespace Sys2Proof.Machine

section
variable {s : State} {addr : BitVec 12} {bits : Nat} {v : Word} {rest : List HostEvent}

theorem step_idle (h : s.pending = []) : step s = .next s := by
  simp only [step, nextArrival, h]

theorem step_reset (h : s.pending = .reset :: rest) : step s = .next (afterReset { s with pending := rest }) := by
  simp only [step, nextArrival, h]

theorem step_read (h : s.pending = .read addr bits :: rest) :
    step s = .next (afterRead { s with pending := rest } addr bits) := by
  simp only [step, nextArrival, h]

theorem step_write (h : s.pending = .write addr bits v :: rest) (hc : target addr bits ≠ some .cmd) :
    step s = .next (afterWrite { s with pending := rest } addr bits v) := by
  simp only [step, nextArrival, h, if_neg hc]

theorem step_command (h : s.pending = .write addr bits v :: rest) (hc : target addr bits = some .cmd) :
    step s = command v { s with pending := rest } := by
  simp only [step, nextArrival, h, if_pos hc]
end

theorem command_of_ok {w : Word} {i : Instr} (h : decode w = .ok i) (s : State) : command w s = exec i s := by
  simp only [command, h]

theorem command_of_error {w : Word} {e : Illegal} (h : decode w = .error e) (s : State) :
    command w s = .next (takeFault .illegal s) := by
  simp only [command, h, illegalCommand, endCommand_error]

theorem command_total (w : Word) (s : State) : ∃ t, command w s = .next t := by
  cases h : decode w with
  | ok i => exact command_of_ok h s ▸ exec_total i s
  | error e => exact ⟨_, command_of_error h s⟩

theorem Writes.hostLists {i : Instr} {s u : State} (h : Writes s i u) :
    u.pending = s.pending ∧ u.replies = s.replies := by
  cases h <;> exact ⟨rfl, rfl⟩

/-- The host's lists are never a command's. -/
theorem exec_hostLists {i : Instr} {s t : State} (h : exec i s = .next t) :
    t.pending = s.pending ∧ t.replies = s.replies := by
  rcases exec_writes h with ⟨u, hu, rfl⟩ | ⟨c, rfl⟩
  · exact hu.hostLists
  · exact ⟨rfl, rfl⟩

theorem command_hostLists {w : Word} {s t : State} (h : command w s = .next t) :
    t.pending = s.pending ∧ t.replies = s.replies := by
  rcases command_cases h with ⟨i, -, hi⟩ | ⟨_, -, rfl⟩
  · exact exec_hostLists hi
  · exact ⟨rfl, rfl⟩

theorem afterWrite_hostLists (s : State) (addr : BitVec 12) (bits : Nat) (v : Word) :
    (afterWrite s addr bits v).pending = s.pending ∧ (afterWrite s addr bits v).replies = s.replies := by
  rcases afterWrite_cases s addr bits v with ⟨r, t, -, hw, e⟩ | ⟨-, e⟩ <;> rw [e]
  · obtain ⟨S, KDIN, FR, AP, JP, rfl⟩ := writeReg_frame hw
    exact ⟨rfl, rfl⟩
  · exact ⟨rfl, rfl⟩

theorem afterRead_hostLists (s : State) (addr : BitVec 12) (bits : Nat) :
    (afterRead s addr bits).pending = s.pending ∧ ∃ v, (afterRead s addr bits).replies = s.replies ++ [v] := by
  rcases afterRead_cases s addr bits with ⟨v, -, e⟩ | ⟨-, e⟩ <;> rw [e]
  · exact ⟨rfl, v, rfl⟩
  · exact ⟨rfl, 0, rfl⟩

/-- Every write has a next state, and the host's lists lose its arrival and nothing else. -/
theorem step_write_total {s : State} {addr : BitVec 12} {bits : Nat} {v : Word} {rest : List HostEvent}
    (h : s.pending = .write addr bits v :: rest) :
    ∃ t, step s = .next t ∧ t.pending = rest ∧ t.replies = s.replies := by
  by_cases hc : target addr bits = some .cmd
  · obtain ⟨t, ht⟩ := command_total v { s with pending := rest }
    exact ⟨t, (step_command h hc).trans ht, command_hostLists ht⟩
  · exact ⟨_, step_write h hc, afterWrite_hostLists ..⟩

end Sys2Proof.Machine
end

section
/-! SUPPORT. What a host write changes (R54 to R56): a row of an operand register reads as before when the value written
into its file agrees with the old one on that row. -/

namespace Sys2Proof.Machine

/-- An entry of a register file seen through `f`, after a write that `f` does not see. -/
theorem map_getElem_set {α β : Type} {k : Nat} {v : Vector α k} {r q : Fin k} {a : α} (f : α → β)
    (h : q = r → f a = f v[r]) : f (v.set r a)[q] = f v[q] := by
  by_cases e : q = r
  · subst e
    simpa using h rfl
  · have : r.val ≠ q.val := fun hv => e (Fin.ext hv.symm)
    simp [Vector.getElem_set_ne _ _ this]

theorem limb_setLimb_of_ne {v : Big} {i j : Fin 8} {w : Word} (h : j ≠ i) : limb (setLimb v i w) j = limb v j := by
  simp [h]

theorem readReg_setAp_of_agree {s : State} {r : PtNum} {a : Affine} {q : Reg}
    (hx : ∀ j, q = .apX r j → limb a.x j = limb (s.ap r).x j)
    (hy : ∀ j, q = .apY r j → limb a.y j = limb (s.ap r).y j)
    (hinf : q = .apInf r → a.inf = (s.ap r).inf) : readReg (s.setAp r a) q = readReg s q := by
  cases q with
  | apX q j => exact congrArg some (map_getElem_set (fun b : Affine => limb b.x j) fun e => hx j (e ▸ rfl))
  | apY q j => exact congrArg some (map_getElem_set (fun b : Affine => limb b.y j) fun e => hy j (e ▸ rfl))
  | apInf q =>
    exact congrArg some (map_getElem_set (fun b : Affine => (BitVec.ofBool b.inf).setWidth 32) fun e =>
      congrArg (fun b : Bool => (BitVec.ofBool b).setWidth 32) (hinf (e ▸ rfl)))
  | _ => rfl

theorem readReg_setJp_of_agree {s : State} {r : PtNum} {p : Jacobian} {q : Reg}
    (hX : ∀ j, q = .jpX r j → limb p.X j = limb (s.jp r).X j)
    (hY : ∀ j, q = .jpY r j → limb p.Y j = limb (s.jp r).Y j)
    (hZ : ∀ j, q = .jpZ r j → limb p.Z j = limb (s.jp r).Z j) : readReg (s.setJp r p) q = readReg s q := by
  cases q with
  | jpX q j => exact congrArg some (map_getElem_set (fun b : Jacobian => limb b.X j) fun e => hX j (e ▸ rfl))
  | jpY q j => exact congrArg some (map_getElem_set (fun b : Jacobian => limb b.Y j) fun e => hY j (e ▸ rfl))
  | jpZ q j => exact congrArg some (map_getElem_set (fun b : Jacobian => limb b.Z j) fun e => hZ j (e ▸ rfl))
  | _ => rfl

/-- Every other row reads as before (R54). -/
theorem readReg_writeReg_other {s t : State} {r q : Reg} {v : Word} (h : writeReg s r v = some t) (hq : q ≠ r) :
    readReg t q = readReg s q := by
  cases r with
  | cmd | status | errcode | errsticky | flags | kpos | tblinfo | tblTagX | tblTagY | const => cases h
  | kdin =>
    cases h
    cases q with
    | kdin => exact absurd rfl hq
    | _ => rfl
  | S i =>
    cases h
    cases q with
    | S j => exact congrArg some (map_getElem_set id fun e => absurd (congrArg Reg.S e) hq)
    | _ => rfl
  | FR r i =>
    cases h
    cases q with
    | FR q j =>
      exact congrArg some (map_getElem_set (limb · j) fun e => limb_setLimb_of_ne fun hj => hq (e ▸ hj ▸ rfl))
    | _ => rfl
  | apX r i =>
    cases h
    exact readReg_setAp_of_agree (fun j e => limb_setLimb_of_ne fun hj => hq (hj ▸ e)) (fun _ _ => rfl) fun _ => rfl
  | apY r i =>
    cases h
    exact readReg_setAp_of_agree (fun _ _ => rfl) (fun j e => limb_setLimb_of_ne fun hj => hq (hj ▸ e)) fun _ => rfl
  | apInf r =>
    cases h
    exact readReg_setAp_of_agree (fun _ _ => rfl) (fun _ _ => rfl) fun e => absurd e hq
  | jpX r i =>
    cases h
    exact readReg_setJp_of_agree (fun j e => limb_setLimb_of_ne fun hj => hq (hj ▸ e)) (fun _ _ => rfl) fun _ _ => rfl
  | jpY r i =>
    cases h
    exact readReg_setJp_of_agree (fun _ _ => rfl) (fun j e => limb_setLimb_of_ne fun hj => hq (hj ▸ e)) fun _ _ => rfl
  | jpZ r i =>
    cases h
    exact readReg_setJp_of_agree (fun _ _ => rfl) (fun _ _ => rfl) fun j e => limb_setLimb_of_ne fun hj => hq (hj ▸ e)

/-- The row written reads as the word written, but for `AP[r].inf` (R54, R56). -/
theorem readReg_writeReg_same {s t : State} {r : Reg} {v : Word} (h : writeReg s r v = some t)
    (hr : ∀ q, r ≠ .apInf q) : readReg t r = some v := by
  cases r with
  | cmd | status | errcode | errsticky | flags | kpos | tblinfo | tblTagX | tblTagY | const => cases h
  | apInf q => exact absurd rfl (hr q)
  | kdin => cases h; rfl
  | S i | FR r i | apX r i | apY r i | jpX r i | jpY r i | jpZ r i =>
    cases h
    simp [readReg]

/-- Bit 0 alone counts of a word written to `AP[r].inf` (R51). -/
theorem readReg_writeReg_apInf {s t : State} {r : PtNum} {v : Word} (h : writeReg s (.apInf r) v = some t) :
    readReg t (.apInf r) = some (v &&& 1) := by
  cases h
  have bit : v &&& 1 = (BitVec.ofBool (v.getLsbD 0)).setWidth 32 := BitVec.and_one_eq_setWidth_ofBool_getLsbD
  rw [bit]
  simp [readReg]

end Sys2Proof.Machine
end

section
/-! The statements about the register window and the step. -/

open Sys2Proof.Machine

/-- Settles O10, by the register map read in both directions. -/
theorem registerMap : Obligations.RegisterMap :=
  ⟨fun r => ⟨offset_aligned r, offset_lt r⟩, fun _ _ h => offset_injective h, fun _ _ _ => locate_eq_some_iff⟩

/-- Settles O11: a bad read finds no value, a bad write no row it may write. -/
theorem badAccessOnlySetsAccess : Obligations.BadAccessOnlySetsAccess := by
  constructor
  · intro s addr bits rest hp hbad
    rw [step_read hp, afterRead, hostRead_of_badRead hbad]
    rfl
  · intro s addr bits v rest hp hbad
    rcases target_of_badWrite hbad with e | ⟨r, ro, e⟩
    · rw [step_write hp (by simp [e]), afterWrite, e]
      rfl
    · have hc : r ≠ .cmd := by rintro rfl; cases ro
      rw [step_write hp (by simpa [e] using hc), afterWrite, e, Option.bind_some, writeReg_eq_none_iff.2 (.inl ro)]
      rfl

/-- Settles O12: the offset reaches its row, and every row but `CMD` has a word. -/
theorem readsHaveNoSideEffect : Obligations.ReadsHaveNoSideEffect := by
  intro s addr rest r hp hr hc
  obtain ⟨v, hv⟩ := Option.ne_none_iff_exists'.1 (mt (readReg_eq_none_iff (s := s)).1 hc)
  refine ⟨v, hv, ?_⟩
  rw [step_read hp, afterRead, hostRead, target_of_offset hr, Option.bind_some, readReg_withHostLists, hv]
  rfl

/-- Settles O13, by what a write leaves in its own row and in every other. -/
theorem aWriteReplacesOneRow : Obligations.AWriteReplacesOneRow := by
  intro s addr v rest r hp hr hro hc
  have writable : writeReg { s with pending := rest } r v ≠ none := by
    simp [writeReg_eq_none_iff, hro, hc]
  obtain ⟨t, ht⟩ := Option.ne_none_iff_exists'.1 writable
  refine ⟨t, ?_, readReg_writeReg_same ht, ?_, fun q hq => ?_, ?_⟩
  · rw [step_write hp (by simpa [target_of_offset hr] using hc), afterWrite, target_of_offset hr, Option.bind_some, ht]
  · rintro ⟨q, rfl⟩
    exact readReg_writeReg_apInf ht
  · rw [readReg_writeReg_other ht hq, readReg_withHostLists]
  · obtain ⟨S, KDIN, FR, AP, JP, rfl⟩ := writeReg_frame ht
    rfl

/-- Settles O4: offset 0 is the row `CMD`, so the step is the command of the word. -/
theorem aStepRunsTheDecodedCommand : Obligations.AStepRunsTheDecodedCommand := by
  intro s w rest hp
  have run : step s = command w { s with pending := rest } := step_command hp rfl
  refine ⟨fun i hi => ?_, fun e he => ?_, ?_⟩
  · rw [run, command_of_ok hi]
  · rw [run, command_of_error he]
    rfl
  · rintro _ rfl
    have word : BitVec.ofNat 32 (w.toNat % 2 ^ 32) = w := by
      rw [Nat.mod_eq_of_lt w.isLt, BitVec.ofNat_toNat, BitVec.setWidth_eq]
    rw [run, step_command (v := w) (rest := rest) (congrArg (HostEvent.write 0 32 · :: rest) word) rfl]
    rfl

/-- Settles O5, by the kinds of arrival. -/
theorem everyStepHasANextState : Obligations.EveryStepHasANextState := by
  refine ⟨fun _ => step_idle, fun _ _ => step_reset, fun s e rest hp => ?_⟩
  cases e with
  | read addr bits =>
    obtain ⟨hpend, v, hv⟩ := afterRead_hostLists { s with pending := rest } addr bits
    exact ⟨_, step_read hp, hpend, .inl ⟨addr, bits, v, rfl, hv⟩⟩
  | write addr bits v =>
    obtain ⟨t, ht, hpend, hrep⟩ := step_write_total hp
    exact ⟨t, ht, hpend, .inr ⟨fun _ _ => nofun, hrep⟩⟩
  | reset => exact ⟨_, step_reset hp, rfl, .inr ⟨fun _ _ => nofun, rfl⟩⟩

end

section
/-! SUPPORT. Decoding and encoding: a row's command keeps of a word the bits its format uses, so the fixed-zero test of
R83 passes exactly on the words that are packed again as they were. -/

namespace Sys2Proof

/-! ### A word and its fields -/

theorem opField_and (a b : Word) : opField (a &&& b) = opField a &&& opField b := BitVec.extractLsb'_and

theorem mField_and (a b : Word) : mField (a &&& b) = (mField a && mField b) := BitVec.getLsbD_and

theorem immField_and (a b : Word) : immField (a &&& b) = immField a &&& immField b := BitVec.extractLsb'_and

theorem frField_and (a b : Word) (lo : Nat) :
    (frField (a &&& b) lo).val = (frField a lo).val &&& (frField b lo).val := by
  simp [frField, BitVec.extractLsb'_and]

theorem and_fifteen (n : Nat) : n &&& 15 = n % 16 := Nat.and_two_pow_sub_one_eq_mod n 4

theorem and_three (n : Nat) : n &&& 3 = n % 4 := Nat.and_two_pow_sub_one_eq_mod n 2

theorem byte_and_255 (b : Byte) : b &&& 255#8 = b := BitVec.and_allOnes

/-- A word with clear reserved bits is packed from its own fields (R81). -/
theorem packWord_fields {w : Word} {o : Opcode} (hop : opField w = o.code) (reserved : w.extractLsb' 9 3 = 0) :
    packWord o (frField w 20) (frField w 16) (frField w 12) (mField w) (immField w) = w := by
  have hr : w.toNat / 2 ^ 9 % 8 = 0 := by
    simpa [Nat.shiftRight_eq_div_pow] using congrArg BitVec.toNat reserved
  apply BitVec.eq_of_toNat_eq
  rw [packWord_toNat, ← hop, opField_toNat, frField_val, frField_val, frField_val, mField_toNat, immField_toNat]
  omega

/-! ### The bits a format uses -/

/-- The bits of a word a format uses: the opcode, and all that the format's fixed-zero mask leaves free (R82). -/
def Format.used (f : Format) : Word := ~~~f.mask ||| 0xFF000000

theorem opField_used (f : Format) : opField f.used = BitVec.allOnes 8 := by cases f <;> rfl

theorem reserved_used (f : Format) : f.used.extractLsb' 9 3 = 0#3 := by cases f <;> rfl

/-- The masked word is packed from the fields of the word, each masked. -/
theorem packWord_and {w mask : Word} {o : Opcode} (hop : opField w = o.code) (all : opField mask = BitVec.allOnes 8)
    (clear : mask.extractLsb' 9 3 = 0#3) :
    packWord o ((frField w 20).val &&& (frField mask 20).val) ((frField w 16).val &&& (frField mask 16).val)
      ((frField w 12).val &&& (frField mask 12).val) (mField w && mField mask) (immField w &&& immField mask) =
    w &&& mask := by
  rw [← frField_and, ← frField_and, ← frField_and, ← mField_and, ← immField_and]
  refine packWord_fields ?_ ?_
  · rw [opField_and, all, BitVec.and_allOnes, hop]
  · rw [BitVec.extractLsb'_and, clear]
    exact BitVec.and_zero

/-- What a row's command keeps of a word: the bits its format uses, an `FR` number four of its field's and a point register
number two. -/
theorem encode_assemble {w : Word} {o : Opcode} (hop : opField w = o.code) :
    encode (assemble o w) = w &&& o.format.used := by
  rw [← packWord_and hop (opField_used _) (reserved_used _)]
  cases o <;>
    simp [encode, assemble, Instr.opcode, Opcode.format, Format.used, Format.mask, frField_val, ptField_val, mField,
      immField, and_fifteen, and_three, byte_and_255]

theorem opField_shifted (w : Word) : (opField w).setWidth 32 <<< 24 = w &&& 0xFF000000 := by
  have top : (opField w).setWidth 32 = w >>> 24 := by
    apply BitVec.eq_of_toNat_eq
    simp [opField, Nat.shiftRight_eq_div_pow]
    omega
  rw [top]
  exact BitVec.shiftLeft_ushiftRight

/-- Bit by bit: a word with no bit of `mask` but those of `top` is one that the other bits and `top` keep whole. -/
theorem and_eq_and_iff {w mask top : Word} (covers : top &&& mask = top) :
    w &&& mask = w &&& top ↔ w &&& (~~~mask ||| top) = w := by
  simp only [BitVec.eq_of_getLsbD_eq_iff, BitVec.getLsbD_and, BitVec.getLsbD_or, BitVec.getLsbD_not] at *
  grind

/-- R83 step 2: the masked word is the opcode alone exactly when every set bit of the word is one its format uses. -/
theorem and_mask_eq_op_iff (w : Word) (f : Format) :
    w &&& f.mask = (opField w).setWidth 32 <<< 24 ↔ w &&& f.used = w := by
  rw [opField_shifted, Format.used, and_eq_and_iff]
  cases f <;> rfl

/-! ### Decoding and encoding -/

theorem opField_encode (i : Instr) : opField (encode i) = i.opcode.code := by
  cases i <;> exact opField_packWord ..

/-- The fields of a command's word are the command's operands. -/
theorem assemble_encode (i : Instr) : assemble i.opcode (encode i) = i := by
  cases i <;> simp [assemble, encode, Instr.opcode, Fin.ext_iff, Nat.mod_eq_of_lt]

/-- R83 once the row is known: the word has to be the one its row's command packs, and the command well-formed. -/
theorem decode_of_lookup {w : Word} {o : Opcode} (h : lookupOpcode (opField w).toNat = some o) :
    decode w = if encode (assemble o w) = w then
      if (assemble o w).wellFormed then .ok (assemble o w) else .error .badValue
    else .error .nonZeroFixedBits := by
  rw [encode_assemble (code_of_lookupOpcode h).symm]
  simp only [decode, h, ne_eq, ite_not, and_mask_eq_op_iff]

/-- The words that decode are the words of the well-formed commands. -/
theorem decode_eq_ok_iff {w : Word} {i : Instr} : decode w = .ok i ↔ encode i = w ∧ i.wellFormed = true := by
  constructor
  · intro h
    cases ho : lookupOpcode (opField w).toNat with
    | none => simp [decode, ho] at h
    | some o =>
      rw [decode_of_lookup ho] at h
      split_ifs at h with packed wf
      cases h
      exact ⟨packed, wf⟩
  · rintro ⟨rfl, wf⟩
    have ho : lookupOpcode (opField (encode i)).toNat = some i.opcode := by
      rw [opField_encode, lookupOpcode_code]
    rw [decode_of_lookup ho, assemble_encode, if_pos rfl, if_pos wf]

end Sys2Proof
end

section
/-! SUPPORT. What is illegal (R86): words with an unassigned opcode and commands that fail their value check. -/

namespace Sys2Proof.Machine

/-- The numbers outside the opcode map (R86). -/
theorem lookupOpcode_unassigned : ∀ op < 256,
    (0x04 ≤ op ∧ op ≤ 0x0F) ∨ (0x15 ≤ op ∧ op ≤ 0x1F) ∨ (0x27 ≤ op ∧ op ≤ 0x2F) ∨ op = 0x37 ∨ op = 0x3F ∨ 0x44 ≤ op →
      lookupOpcode op = none := by decide +kernel

theorem decode_of_unassigned {w : Word} (h : lookupOpcode (opField w).toNat = none) :
    decode w = .error .unassignedOpcode := by
  simp only [decode, h]

/-- The commands with a value check make it first, and the others have none. -/
theorem effect_of_not_wellFormed {i : Instr} (h : i.wellFormed = false) (s : State) : effect i s = .error .illegal := by
  cases i with
  | fBinv ra m count => exact if_neg (ne_true_of_eq_false h)
  | sSplit rd ra =>
    have pair : ¬ rd.val ≤ 14 := of_decide_eq_false h
    exact dif_neg (by omega)
  | sPrecomp ra m w => exact if_neg (ne_true_of_eq_false h)
  | sMul rd ra rb m w => exact if_neg (ne_true_of_eq_false h)
  | _ => cases h

end Sys2Proof.Machine
end

section
/-! SUPPORT. `WR256` (R89): writes of limbs of a value to an `FR` register. -/

namespace Sys2Proof.Machine

/-- The host's write of limb `i` of `v` to `FR[r]`. -/
def limbWrite (r : FrNum) (v : Big) (i : Fin 8) : HostEvent :=
  .write (BitVec.ofNat 12 (Reg.FR r i).offset) 32 (limb v i)

/-- `x` with the limbs named in a list replaced by those of `v`, in order. -/
def withLimbs (v : Big) : (limbs : List (Fin 8)) → (x : Big) → Big
  | [], x => x
  | i :: limbs, x => withLimbs v limbs (setLimb x i (limb v i))

theorem limb_withLimbs (v x : Big) (limbs : List (Fin 8)) (j : Fin 8) :
    limb (withLimbs v limbs x) j = if j ∈ limbs then limb v j else limb x j := by
  induction limbs generalizing x with
  | nil => rfl
  | cons i limbs ih =>
    rw [withLimbs, ih, limb_setLimb]
    by_cases hj : j = i <;> simp [hj]

theorem withLimbs_all (v x : Big) : withLimbs v (List.finRange 8) x = v :=
  limb_ext fun j => by rw [limb_withLimbs, if_pos (List.mem_finRange j)]

theorem step_limbWrite {s : State} {r : FrNum} {v : Big} {i : Fin 8} {rest : List HostEvent}
    (h : s.pending = limbWrite r v i :: rest) :
    step s = .next { s with FR := s.FR.set r (setLimb s.FR[r] i (limb v i)), pending := rest } := by
  have row : target (BitVec.ofNat 12 (Reg.FR r i).offset) 32 = some (.FR r i) := by
    apply target_of_offset
    rw [BitVec.toNat_ofNat, Nat.mod_eq_of_lt (offset_lt _)]
  rw [step_write h (by rw [row]; simp), afterWrite, row]
  rfl

theorem run_succ {s t : State} (h : step s = .next t) (k : Nat) :
    Host.Core.run core (k + 1) s = Host.Core.run core k t := by
  simp only [Host.Core.run, show core.step s = .next t from h]

/-- The writes of any limbs, one step each. -/
theorem run_limbWrites (r : FrNum) (v : Big) (limbs : List (Fin 8)) (rest : List HostEvent) (s : State)
    (h : s.pending = limbs.map (limbWrite r v) ++ rest) :
    Host.Core.run core limbs.length s =
      .next { s with FR := s.FR.set r (withLimbs v limbs s.FR[r]), pending := rest } := by
  induction limbs generalizing s with
  | nil =>
    obtain rfl : s.pending = rest := h
    simp [withLimbs, Host.Core.run]
  | cons i limbs ih =>
    refine (run_succ (step_limbWrite h) limbs.length).trans ((ih _ rfl).trans ?_)
    simp [withLimbs]

end Sys2Proof.Machine
end

section
/-! The statements about the encoding. -/

open Sys2Proof Sys2Proof.Machine

/-- Settles O6: the decoder answers exactly the well-formed commands whose word it is given. -/
theorem decodeOfEncode : Obligations.DecodeOfEncode := fun _ wf => decode_eq_ok_iff.2 ⟨rfl, wf⟩

/-- Settles O7, by the same equivalence. -/
theorem encodeOfDecode : Obligations.EncodeOfDecode := fun _ _ => decode_eq_ok_iff.1

/-- Settles O8: such a word does not decode, and such a command faults at its value check. -/
theorem illegalWordsRaiseIllegal : Obligations.IllegalWordsRaiseIllegal := by
  refine ⟨?_, fun w s h => ?_, fun i s h => ?_⟩
  · rintro w s _ rfl unassigned
    have byte : w.toNat / 2 ^ 24 < 256 := by omega
    refine command_of_error (decode_of_unassigned ?_) s
    rw [opField_toNat, Nat.mod_eq_of_lt byte]
    exact lookupOpcode_unassigned _ byte unassigned
  · cases hd : decode w with
    | ok i =>
      obtain ⟨word, wf⟩ := decode_eq_ok_iff.1 hd
      exact absurd word (h i wf)
    | error e => exact command_of_error hd s
  · rw [exec_eq, effect_of_not_wellFormed h]
    rfl

/-- Settles O14: the eight limbs are all there are. -/
theorem eightWritesLoadARegister : Obligations.EightWritesLoadARegister := by
  intro s r v rest hp
  rw [List.ofFn_eq_map] at hp
  have run := run_limbWrites r v (List.finRange 8) rest s hp
  rwa [withLimbs_all] at run

/-- Settles O9, by running the decoder on each word. -/
theorem encodingExamples : Obligations.EncodingExamples :=
  ⟨rfl, rfl, rfl, rfl, rfl, rfl, rfl, rfl, rfl, rfl, rfl, rfl, rfl, rfl, rfl, rfl, rfl, rfl, rfl⟩

end

section
/-! SUPPORT. The sponge commands, phase by phase (40_keccak.md R108 to R115), and several of them in order. -/

namespace Sys2Proof.Machine

/-- The immediate is the low byte of the word (30_encoding.md R81). -/
theorem encode_kAbsorb (imm : Byte) : encode (.kAbsorb imm) = 0x11000000 ||| imm.setWidth 32 := by
  apply BitVec.eq_of_toNat_eq
  have byte : 0x110000 <<< 8 ||| imm.toNat = 0x110000 <<< 8 + imm.toNat :=
    (Nat.shiftLeft_add_eq_or_of_lt imm.isLt _).symm
  rw [encode, packWord_toNat, BitVec.toNat_or, BitVec.toNat_setWidth_of_le (by decide),
    show (0x11000000 : Word).toNat = 0x110000 <<< 8 from rfl, byte]
  simp [Instr.opcode, Opcode.code]

/-! ### One command -/

section
variable {s : State}

/-- In phase `ABSORB` the phase check lets a command go on. -/
theorem endCommand_inAbsorb (h : s.KPHASE = .absorb) (f : State → State) :
    endCommand s (inAbsorb s f) = .next (normalEnd (f s)) := by
  rw [inAbsorb, if_pos h, endCommand_ok]

/-- In the other phases it raises `E_SEQUENCE` (R115). -/
theorem endCommand_inAbsorb_of_ne (h : s.KPHASE ≠ .absorb) (f : State → State) :
    endCommand s (inAbsorb s f) = .next (takeFault .sequence s) := by
  rw [inAbsorb, if_neg h, endCommand_error]

theorem exec_kAbsorb (h : s.KPHASE = .absorb) (b : Byte) :
    exec (.kAbsorb b) s = .next (normalEnd (absorbByte b s)) := endCommand_inAbsorb h _

theorem exec_kAbsorbw (h : s.KPHASE = .absorb) : exec .kAbsorbw s = .next (normalEnd (absorbWord s.KDIN s)) :=
  endCommand_inAbsorb h _

theorem exec_kFinal (h : s.KPHASE = .absorb) : exec .kFinal s = .next (normalEnd (padAndFinish s)) :=
  endCommand_inAbsorb h _

/-- What the phase check leaves of the phase and the error code, for a command whose writes keep the phase (R115). -/
theorem phase_of_inAbsorb {f : State → State} (keeps : s.KPHASE = .absorb → (f s).KPHASE = .absorb) :
    ∃ t, endCommand s (inAbsorb s f) = .next t ∧ t.KPHASE = s.KPHASE ∧
      t.ERRCODE = if s.KPHASE = .absorb then 0 else 2 := by
  by_cases h : s.KPHASE = .absorb
  · exact ⟨_, endCommand_inAbsorb h f, (keeps h).trans h.symm, (if_pos h).symm⟩
  · exact ⟨_, endCommand_inAbsorb_of_ne h f, rfl, (if_neg h).symm⟩

end

/-- A block is XORed into the first 34 words (R110). -/
theorem getElem_xorBlock (S : Vector Word 50) (blk : Vector Word 34) (i : Fin 50) :
    (xorBlock S blk)[i] = if h : i.val < 34 then S[i] ^^^ blk[i.val] else S[i] := Vector.getElem_ofFn _

/-! ### Several bytes in order -/

/-- The bytes of a list absorbed in order. -/
def absorbBytes (bytes : List Byte) (s : State) : State := bytes.foldl (fun t b => absorbByte b t) s

@[simp] theorem absorbBytes_nil (s : State) : absorbBytes [] s = s := rfl

@[simp] theorem absorbBytes_cons (b : Byte) (bytes : List Byte) (s : State) :
    absorbBytes (b :: bytes) s = absorbBytes bytes (absorbByte b s) := rfl

/-- Bytes change the sponge and nothing else. -/
theorem absorbBytes_frame (bytes : List Byte) (s : State) :
    ∃ S blk k r, absorbBytes bytes s = { s with S := S, BLK := blk, KPOS := k, KRST := r } := by
  induction bytes generalizing s with
  | nil => exact ⟨s.S, s.BLK, s.KPOS, s.KRST, rfl⟩
  | cons b bytes ih =>
    obtain ⟨S, blk, k, r, e⟩ := absorbByte_frame b s
    rw [absorbBytes_cons, e]
    exact ih _

/-- The normal end before a byte may as well come after it. -/
theorem absorbByte_normalEnd (b : Byte) (s : State) : absorbByte b (normalEnd s) = normalEnd (absorbByte b s) := by
  have clear : kclear (normalEnd s) = normalEnd (kclear s) := by
    unfold kclear
    split <;> simp_all [normalEnd]
  simp only [absorbByte, clear]
  cases h : nextCursor (kclear s).KPOS <;> simp [h, normalEnd, absorbBlock]

theorem absorbBytes_normalEnd (bytes : List Byte) (s : State) :
    absorbBytes bytes (normalEnd s) = normalEnd (absorbBytes bytes s) := by
  induction bytes generalizing s with
  | nil => rfl
  | cons b bytes ih => rw [absorbBytes_cons, absorbByte_normalEnd, ih, absorbBytes_cons]

/-- A word is its four bytes, least significant first (R111). -/
theorem absorbWord_eq (w : Word) (s : State) :
    absorbWord w s = absorbBytes [wordByte w 0, wordByte w 1, wordByte w 2, wordByte w 3] s := rfl

theorem normalEnd_of_errcode {s : State} (h : s.ERRCODE = 0) : normalEnd s = s := by
  cases s
  cases h
  rfl

theorem execAll_cons {i : Instr} {s t : State} (h : exec i s = .next t) (rest : List Instr) :
    execAll (i :: rest) s = execAll rest t := by
  simp only [execAll, h]

/-- One `K_ABSORB` for each byte, from a state that the command before left at its normal end. -/
theorem execAll_kAbsorb (bytes : List Byte) (rest : List Instr) {s : State} (hp : s.KPHASE = .absorb)
    (he : s.ERRCODE = 0) : execAll (bytes.map .kAbsorb ++ rest) s = execAll rest (absorbBytes bytes s) := by
  induction bytes generalizing s with
  | nil => rfl
  | cons b bytes ih =>
    obtain ⟨S, blk, k, r, e⟩ := absorbByte_frame b s
    have first : exec (.kAbsorb b) s = .next (absorbByte b s) := by
      rw [exec_kAbsorb hp, normalEnd_of_errcode (by rw [e]; exact he)]
    rw [List.map_cons, List.cons_append, execAll_cons first, absorbBytes_cons]
    exact ih (by rw [e]; exact hp) (by rw [e]; exact he)

/-- One `K_ABSORB` for each byte, from any state in phase `ABSORB`: the first one leaves the normal end. -/
theorem execAll_kAbsorb_cons (b : Byte) (bytes : List Byte) {s : State} (hp : s.KPHASE = .absorb) :
    execAll ((b :: bytes).map .kAbsorb) s = .next (normalEnd (absorbBytes (b :: bytes) s)) := by
  obtain ⟨S, blk, k, r, e⟩ := absorbByte_frame b s
  have phase : (normalEnd (absorbByte b s)).KPHASE = .absorb := by rw [e]; exact hp
  have rest := execAll_kAbsorb bytes [] phase rfl
  rw [List.append_nil, absorbBytes_normalEnd] at rest
  exact (execAll_cons (exec_kAbsorb hp b) _).trans rest

end Sys2Proof.Machine
end

section
/-! The statements about the sponge commands. -/

open Sys2Proof Sys2Proof.Machine

/-- Settles O25: the second hash starts where the first did. -/
theorem kInitStartsAHash : Obligations.KInitStartsAHash := ⟨rfl, fun _ => ⟨_, rfl, rfl, rfl⟩⟩

/-- Settles O29: there is no phase check. -/
theorem kPermPermutes : Obligations.KPermPermutes := ⟨rfl, fun _ => rfl⟩

/-- Settles O26, by whether the byte fills the block. -/
theorem kAbsorbTakesAByte : Obligations.KAbsorbTakesAByte := by
  refine ⟨encode_kAbsorb, fun s imm h => endCommand_inAbsorb_of_ne h _, fun s imm h => ?_⟩
  by_cases room : s.KPOS.val < 135
  · obtain ⟨blk, e, hblk⟩ := absorbByte_some imm s room
    refine ⟨blk, hblk, fun _ => ?_, fun full => by omega⟩
    rw [exec_kAbsorb h, e]
    rfl
  · obtain ⟨blk, e, hblk⟩ := absorbByte_none imm s (by omega)
    refine ⟨blk, hblk, fun room' => by omega, fun _ => ⟨xorBlock s.S blk, getElem_xorBlock s.S blk, ?_⟩⟩
    rw [exec_kAbsorb h, e]
    rfl

/-- Settles O27: the first `K_ABSORB` ends normally, and the other three go on from there. -/
theorem kAbsorbwIsFourBytes : Obligations.KAbsorbwIsFourBytes := by
  refine ⟨rfl, fun s h => endCommand_inAbsorb_of_ne h _, fun s h => ?_⟩
  obtain ⟨S, blk, k, r, word⟩ := absorbWord_frame s.KDIN s
  refine ⟨_, exec_kAbsorbw h, by rw [word]; rfl, rfl, ?_⟩
  rw [absorbWord_eq]
  exact execAll_kAbsorb_cons (wordByte s.KDIN 0) [wordByte s.KDIN 1, wordByte s.KDIN 2, wordByte s.KDIN 3] h

/-- Settles O28, by the bytes of the padded block. -/
theorem kFinalPadsAndFinishes : Obligations.KFinalPadsAndFinishes := by
  refine ⟨rfl, fun s h => endCommand_inAbsorb_of_ne h _, fun s h => ?_⟩
  obtain ⟨blk, e, hblk⟩ := padAndFinish_eq s
  refine ⟨blk, xorBlock s.S blk, fun j => ?_, getElem_xorBlock s.S blk, ?_⟩
  · have first : (if j = s.KPOS then s.liveByte j ||| 0x01 else s.liveByte j) =
        s.liveByte j ||| (if j = s.KPOS then 0x01 else 0x00) := by
      split <;> simp
    rw [← first]
    exact (hblk j).trans (congrArg _ (if_congr (Fin.ext_iff (b := 135)) rfl rfl))
  · rw [exec_kFinal h, e]
    rfl

end

section
/-! SUPPORT. The phase of the sponge (40_keccak.md R115): what changes it. -/

namespace Sys2Proof.Machine

/-- No command but `K_INIT` and `K_FINAL` writes the phase. -/
theorem Writes.phase {i : Instr} {s u : State} (h : Writes s i u) (hinit : i ≠ .kInit) (hfinal : i ≠ .kFinal) :
    u.KPHASE = s.KPHASE := by
  cases h
  case kInit => exact absurd rfl hinit
  case kFinal => exact absurd rfl hfinal
  all_goals rfl

/-- No command but `C_WIPE` writes `KDIN`. -/
theorem Writes.kdin {i : Instr} {s u : State} (h : Writes s i u) (hwipe : i ≠ .cWipe) : u.KDIN = s.KDIN := by
  cases h
  case cWipe => exact absurd rfl hwipe
  all_goals rfl

theorem exec_phase {i : Instr} {s t : State} (hinit : i ≠ .kInit) (hfinal : i ≠ .kFinal) (h : exec i s = .next t) :
    t.KPHASE = s.KPHASE := by
  rcases exec_writes h with ⟨u, hu, rfl⟩ | ⟨c, rfl⟩
  · exact hu.phase hinit hfinal
  · rfl

theorem afterRead_phase (s : State) (addr : BitVec 12) (bits : Nat) : (afterRead s addr bits).KPHASE = s.KPHASE := by
  rcases afterRead_cases s addr bits with ⟨v, -, e⟩ | ⟨-, e⟩ <;> rw [e] <;> rfl

theorem afterWrite_phase (s : State) (addr : BitVec 12) (bits : Nat) (v : Word) :
    (afterWrite s addr bits v).KPHASE = s.KPHASE := by
  rcases afterWrite_cases s addr bits v with ⟨r, t, -, hw, e⟩ | ⟨-, e⟩ <;> rw [e]
  · obtain ⟨S, KDIN, FR, AP, JP, rfl⟩ := writeReg_frame hw
    rfl
  · rfl

/-- Only a 32-bit access at offset 0 reaches `CMD` (20_memory.md R51, R60). -/
theorem access_of_target_cmd {addr : BitVec 12} {bits : Nat} (h : target addr bits = some .cmd) :
    addr = 0x000 ∧ bits = 32 := by
  obtain ⟨hbits, hrow⟩ := Option.ite_none_right_eq_some.1 h
  exact ⟨BitVec.eq_of_toNat_eq (offset_of_locate hrow).symm, hbits⟩

/-- `K_FINAL` by phase (R115). -/
theorem exec_kFinal_phase (s : State) : ∃ t, exec .kFinal s = .next t ∧
    (s.KPHASE = .absorb → t.KPHASE = .done ∧ t.ERRCODE = 0) ∧
    (s.KPHASE ≠ .absorb → t.KPHASE = s.KPHASE ∧ t.ERRCODE = 2) := by
  by_cases h : s.KPHASE = .absorb
  · obtain ⟨blk, e, -⟩ := padAndFinish_eq s
    exact ⟨_, exec_kFinal h, fun _ => ⟨by rw [e]; rfl, rfl⟩, fun hn => absurd h hn⟩
  · exact ⟨_, endCommand_inAbsorb_of_ne h _, fun ha => absurd ha h, fun _ => ⟨rfl, rfl⟩⟩

end Sys2Proof.Machine
end

section
/-! The statements about what leaves the sponge alone. -/

open Sys2Proof Sys2Proof.Machine

/-- Settles O30, command by command and by the kinds of arrival. -/
theorem phaseTable : Obligations.PhaseTable := by
  refine ⟨fun s => ⟨_, rfl, rfl, rfl⟩, fun s imm => ?_, fun s => ?_, fun s => ?_, fun s => ⟨_, rfl, rfl, rfl⟩,
    fun i s t hinit hfinal h => exec_phase hinit hfinal h, fun s t e rest hp h => ?_⟩
  · refine phase_of_inAbsorb fun hs => ?_
    obtain ⟨S, blk, k, r, e⟩ := absorbByte_frame imm s
    rw [e]
    exact hs
  · refine phase_of_inAbsorb fun hs => ?_
    obtain ⟨S, blk, k, r, e⟩ := absorbWord_frame s.KDIN s
    rw [e]
    exact hs
  · obtain ⟨t, ht, absorb, other⟩ := exec_kFinal_phase s
    refine ⟨t, ht, fun hs => ?_, absorb, fun hs => ?_⟩
    · simpa [hs] using other
    · simpa [hs] using other
  · cases e with
    | reset =>
      cases (step_reset hp).symm.trans h
      exact ⟨fun _ => rfl, fun hne => absurd rfl hne⟩
    | read addr bits =>
      cases (step_read hp).symm.trans h
      exact ⟨nofun, fun _ _ => afterRead_phase ..⟩
    | write addr bits v =>
      refine ⟨nofun, fun _ noCommand => ?_⟩
      have hc : target addr bits ≠ some .cmd := fun hc => by
        obtain ⟨rfl, rfl⟩ := access_of_target_cmd hc
        exact noCommand v rfl
      cases (step_write hp hc).symm.trans h
      exact afterWrite_phase ..

/-- Settles O31, by the frame of the commands of the other units. -/
theorem onlyKseCommandsTouchTheSponge : Obligations.OnlyKseCommandsTouchTheSponge := by
  intro i s t hi h
  rcases exec_writes h with ⟨u, hu, rfl⟩ | ⟨c, rfl⟩
  · have frame := hu.frame_of_not_kse hi
    have kdin := hu.kdin
    rw [frame] at kdin ⊢
    exact ⟨rfl, rfl, rfl, rfl, rfl, kdin⟩
  · exact ⟨rfl, rfl, rfl, rfl, rfl, fun _ => rfl⟩

end

section
/-! SUPPORT. What a command changes in the window (00_scope.md R12): a row reads as before when it is none of the
command's destinations and none of the error registers. -/

namespace Sys2Proof.Machine

/-! ### One rule for each piece of state -/

section
variable {s : State} {q : Reg}

theorem readReg_withErrors (hs : q ≠ .status) (hc : q ≠ .errcode) (he : q ≠ .errsticky) (code : BitVec 3)
    (sticky : BitVec 9) : readReg { s with ERRCODE := code, ERRSTICKY := sticky } q = readReg s q := by
  cases q with
  | status => exact absurd rfl hs
  | errcode => exact absurd rfl hc
  | errsticky => exact absurd rfl he
  | _ => rfl

theorem readReg_withFlags (h : (q == .flags) = false) (f : Flags) : readReg { s with FLAGS := f } q = readReg s q := by
  cases q with
  | flags => cases h
  | _ => rfl

theorem readReg_withTbl (h : q.isTable = false) (hs : q ≠ .status) (t : Table) :
    readReg { s with TBL := t } q = readReg s q := by
  cases q with
  | status => exact absurd rfl hs
  | tblinfo | tblTagX | tblTagY => cases h
  | _ => rfl

theorem readReg_withSponge (h : q.isSponge = false) (hs : q ≠ .status) (S BLK KPOS KRST KPHASE) :
    readReg { s with S := S, BLK := BLK, KPOS := KPOS, KRST := KRST, KPHASE := KPHASE } q = readReg s q := by
  cases q with
  | status => exact absurd rfl hs
  | S | kpos => cases h
  | _ => rfl

theorem readReg_withWords (h : (q.isSponge && q != .kpos) = false) (S : Vector Word 50) :
    readReg { s with S := S } q = readReg s q := by
  cases q with
  | S => cases h
  | _ => rfl

theorem readReg_withFr {fr : Vector Big 16} (h : ∀ r i, q = .FR r i → fr[r] = s.FR[r]) :
    readReg { s with FR := fr } q = readReg s q := by
  cases q with
  | FR r i => exact congrArg (fun v => some (limb v i)) (h r i rfl)
  | _ => rfl

theorem readReg_setFr {rd : FrNum} (h : q.isFrRun rd 1 = false) (v : Int) :
    readReg (s.setFr rd v) q = readReg s q := by
  refine readReg_withFr ?_
  rintro r i rfl
  refine setFr_FR_other s rd r v ?_
  rintro rfl
  simp [Reg.isFrRun] at h

theorem readReg_setAp {rd : PtNum} (h : q.isAp rd = false) (a : Affine) : readReg (s.setAp rd a) q = readReg s q := by
  apply readReg_setAp_of_agree
  all_goals
    intros
    subst q
    simp [Reg.isAp] at h

theorem readReg_setJp {rd : PtNum} (h : q.isJp rd = false) (p : Jacobian) :
    readReg (s.setJp rd p) q = readReg s q := by
  apply readReg_setJp_of_agree
  all_goals
    intros
    subst q
    simp [Reg.isJp] at h

/-- An affine result with its flag. -/
theorem readReg_setAp_setInf {rd : PtNum} (h : (q.isAp rd || q == .flags) = false) (a : Affine) (b : Bool) :
    readReg ((s.setAp rd a).setInf b) q = readReg s q := by
  obtain ⟨hap, hflags⟩ := Bool.or_eq_false_iff.1 h
  exact (readReg_withFlags hflags _).trans (readReg_setAp hap a)

/-- A Jacobian result with its flag. -/
theorem readReg_setJp_setInf {rd : PtNum} (h : (q.isJp rd || q == .flags) = false) (p : Jacobian) (b : Bool) :
    readReg ((s.setJp rd p).setInf b) q = readReg s q := by
  obtain ⟨hjp, hflags⟩ := Bool.or_eq_false_iff.1 h
  exact (readReg_withFlags hflags _).trans (readReg_setJp hjp p)

/-- The registers outside a run keep their values. -/
theorem setRun_outside (fr : Vector Big 16) (lo : Nat) (vs : List Int) (r : FrNum)
    (h : ¬ (lo ≤ r.val ∧ r.val < lo + vs.length)) : (setRun fr lo vs)[r] = fr[r] := by
  induction vs generalizing fr lo with
  | nil => rfl
  | cons v vs ih =>
    rw [List.length_cons] at h
    have hlo : lo ≠ r.val := by omega
    rw [setRun, ih _ _ (by omega)]
    simp [hlo]

theorem readReg_setRun {lo count : Nat} (h : q.isFrRun lo count = false) {vs : List Int} (hlen : vs.length = count) :
    readReg { s with FR := setRun s.FR lo vs } q = readReg s q := by
  refine readReg_withFr ?_
  rintro r i rfl
  refine setRun_outside s.FR lo vs r ?_
  rw [hlen]
  exact of_decide_eq_false h

/-- A row outside a run is outside every part of it. -/
theorem isFrRun_of_inside {lo count lo' count' : Nat} (hlo : lo ≤ lo') (hhi : lo' + count' ≤ lo + count)
    (h : q.isFrRun lo count = false) : q.isFrRun lo' count' = false := by
  cases q with
  | FR r i =>
    simp only [Reg.isFrRun, decide_eq_false_iff_not] at h ⊢
    omega
  | _ => rfl

/-- Every row that `C_WIPE` zeroes is one of its destinations (44_system.md R262). -/
theorem readReg_wipe (h : Instr.mayChange .cWipe q = false) : readReg (wipe s) q = readReg s q := by
  cases q with
  | flags | kdin => simp [Instr.mayChange] at h
  | FR r i => simp [Instr.mayChange, Reg.isFrRun] at h
  | apX r i | apY r i | apInf r | jpX r i | jpY r i | jpZ r i => fin_cases r <;> cases h
  | _ => rfl

/-! ### The commands -/

theorem readReg_batchInverseAt {ra : FrNum} {m : Bool} {count : Byte} {u : State}
    (h : batchInverseAt ra m count s = .ok u) (hq : q.isFrRun ra count.toNat = false) : readReg u q = readReg s q := by
  rcases batchInverseAt_cases ra m count s with ⟨hv, out, e, hf⟩ | ⟨-, e⟩ <;> cases e.symm.trans h
  refine readReg_setRun hq ?_
  have inside : ra.val + count.toNat ≤ 16 := (of_decide_eq_true hv).2
  rw [← hf.length_eq, List.length_map, State.frRun, List.length_map, List.length_take, List.length_drop,
    Vector.length_toList]
  omega

theorem readReg_splitInto {rd ra : FrNum} {u : State} (h : splitInto rd ra s = .ok u)
    (hq : (q.isFrRun rd 2 || q == .flags) = false) : readReg u q = readReg s q := by
  rcases splitInto_cases rd ra s with ⟨hr, -, e⟩ | ⟨-, -, e⟩ | ⟨-, e⟩ <;> cases e.symm.trans h
  obtain ⟨run, hflags⟩ := Bool.or_eq_false_iff.1 hq
  have first : q.isFrRun rd 1 = false := isFrRun_of_inside le_rfl (by omega) run
  have second : q.isFrRun (rd.val + 1) 1 = false := isFrRun_of_inside (Nat.le_succ _) le_rfl run
  calc
    readReg (State.setHalfSigns _ _ _) q = _ := readReg_withFlags hflags _
    _ = _ := readReg_setFr (rd := ⟨rd.val + 1, hr⟩) second _
    _ = readReg s q := readReg_setFr first _

/-- A command's normal end changes no row but its destinations and the error registers. -/
theorem readReg_of_effect {i : Instr} {u : State} (h : effect i s = .ok u) (hq : i.mayChange q = false)
    (hs : q ≠ .status) (hc : q ≠ .errcode) (he : q ≠ .errsticky) : readReg u q = readReg s q := by
  cases i
  case fBinv => exact readReg_batchInverseAt h hq
  case sSplit => exact readReg_splitInto h hq
  all_goals cases writes_of_effect h
  case cNop => rfl
  case cClrerr => exact readReg_withErrors hs hc he s.ERRCODE 0
  case cWipe => exact readReg_wipe hq
  case cTblinv | sPrecomp => exact readReg_withTbl hq hs _
  case kInit | kAbsorb | kAbsorbw | kFinal => exact readReg_withSponge hq hs ..
  case kPerm => exact readReg_withWords hq _
  case fRed | fAdd | fSub | fMul | fPow | fInv => exact readReg_setFr hq _
  case jDbl | jAdd | jNeg | jFroma | jEndo => exact readReg_setJp_setInf hq _ _
  case jToa | aAdd | aDbl | aNeg | aDecomp | aLdg | sMulu => exact readReg_setAp_setInf hq _ _
  case jEq | aEq | aValid => exact readReg_withFlags hq _
  case sMul t _ b a _ _ _ _ =>
    obtain ⟨dest, table⟩ := Bool.or_eq_false_iff.1 hq
    obtain ⟨-, hflags⟩ := Bool.or_eq_false_iff.1 dest
    calc
      readReg (State.setTblHit _ b) q = _ := readReg_withFlags hflags _
      _ = readReg { s with TBL := t } q := readReg_setAp_setInf dest a false
      _ = readReg s q := readReg_withTbl table hs t

/-- The rows a command leaves alone, whichever way it ends. -/
theorem readReg_of_exec {i : Instr} {t : State} (h : exec i s = .next t) (hq : i.mayChange q = false)
    (hs : q ≠ .status) (hc : q ≠ .errcode) (he : q ≠ .errsticky) : readReg t q = readReg s q := by
  rcases exec_cases h with ⟨u, hu, rfl⟩ | ⟨c, -, rfl⟩
  · exact (readReg_withErrors hs hc he 0 u.ERRSTICKY).trans (readReg_of_effect hu hq hs hc he)
  · exact readReg_withErrors hs hc he ..

end

end Sys2Proof.Machine
end

section
/-! The statement about the frame of the commands. -/

open Sys2Proof Sys2Proof.Machine

/-- Settles O18: rows by what each piece of state is read through, hidden state by the frames of the writes. -/
theorem commandFrame : Obligations.CommandFrame := by
  intro i s t h
  refine ⟨fun r hq hs hc he => readReg_of_exec h hq hs hc he, fun hi => ?_, fun hi => ?_, exec_hostLists h⟩
  · rcases exec_writes h with ⟨u, hu, rfl⟩ | ⟨c, rfl⟩
    · rw [hu.frame_of_not_kse hi, normalEnd_BLK]
    · rfl
  · rcases exec_writes h with ⟨u, hu, rfl⟩ | ⟨c, rfl⟩
    · exact hu.tbl hi
    · rfl

end

section
/-! SUPPORT. The steps of a round, read at lane coordinates modulo 5 (40_keccak.md R101 to R105), and the permutation as
a sequence of rounds (R106). -/

namespace Sys2Proof.Machine

/-! ### Lane numbers -/

section
variable (x y : Fin 5)

/-- The number of the lane at `(x, y)`, in the range of lane numbers (R101). -/
theorem lane_lt : x.val + 5 * y.val < 25 := by omega

theorem lane_mod : (x.val + 5 * y.val) % 5 = x.val := by omega

theorem lane_div : (x.val + 5 * y.val) / 5 = y.val := by omega

theorem laneAt_val : (laneAt x.val y.val).val = x.val + 5 * y.val := by
  simp [laneAt, Nat.mod_eq_of_lt x.isLt, Nat.mod_eq_of_lt y.isLt]

/-- Coordinates are taken modulo 5 by `laneAt` as by `Fin 5`. -/
theorem laneAt_add (k : Fin 5) : laneAt (x.val + k.val) y.val = laneAt (x + k).val y.val := by
  simp [laneAt, Fin.val_add]

/-- The lane that ρπ moves to `(y, 2x + 3y)` is the one at `(x, y)`. -/
theorem rhoPiSource_destination : (rhoPiSource y.val (2 * x + 3 * y).val).val = x.val + 5 * y.val := by
  revert x y
  decide

end

/-! ### The four steps -/

theorem columnParity_eq (A : Vector Lane 25) (x : Fin 5) :
    columnParity A x.val = A[x.val] ^^^ A[x.val + 5] ^^^ A[x.val + 10] ^^^ A[x.val + 15] ^^^ A[x.val + 20] := by
  simp [columnParity, laneAt, Nat.mod_eq_of_lt x.isLt]

theorem getElem_theta (A : Vector Lane 25) (x y : Fin 5) :
    (theta A)[x.val + 5 * y.val] = A[x.val + 5 * y.val] ^^^
      (columnParity A (x + 4).val ^^^ (columnParity A (x + 1).val).rotateLeft 1) := by
  have before : (x.val + 5 * y.val + 4) % 5 = (x.val + 4) % 5 := by omega
  have after : (x.val + 5 * y.val + 1) % 5 = (x.val + 1) % 5 := by omega
  simp [theta, Fin.val_add, before, after]

theorem getElem_rhoPi (A1 : Vector Lane 25) (x y : Fin 5) :
    (rhoPi A1)[y.val + 5 * (2 * x + 3 * y).val] =
      (A1[x.val + 5 * y.val]).rotateLeft (rotationOffsets[x.val + 5 * y.val]) := by
  simp only [rhoPi, Vector.getElem_ofFn, lane_mod, lane_div, Fin.getElem_fin, rhoPiSource_destination]

theorem getElem_chi (B : Vector Lane 25) (x y : Fin 5) :
    (chi B)[x.val + 5 * y.val] = B[x.val + 5 * y.val] ^^^
      (~~~ B[(x + 1).val + 5 * y.val] &&& B[(x + 2).val + 5 * y.val]) := by
  have next : laneAt (x.val + 1) y.val = laneAt (x + 1).val y.val := laneAt_add x y 1
  have next2 : laneAt (x.val + 2) y.val = laneAt (x + 2).val y.val := laneAt_add x y 2
  simp only [chi, Vector.getElem_ofFn, lane_mod, lane_div, next, next2, Fin.getElem_fin, laneAt_val]

theorem getElem_iota (A3 : Vector Lane 25) (rc : Lane) (x y : Fin 5) :
    (iota A3 rc)[x.val + 5 * y.val] = if x.val = 0 ∧ y.val = 0 then A3[0] ^^^ rc else A3[x.val + 5 * y.val] := by
  have zero : 0 = x.val + 5 * y.val ↔ x.val = 0 ∧ y.val = 0 := by omega
  simp only [iota, Vector.getElem_set, zero]

/-- The offsets by lane number, as R104 lists them. -/
theorem rotationOffsets_eq (L : Fin 25) : rotationOffsets[L.val] =
    [0, 1, 62, 28, 27, 36, 44, 6, 55, 20, 3, 10, 43, 25, 39, 41, 45, 15, 21, 8, 18, 2, 61, 56, 14].getD L.val 0 := by
  revert L
  decide

/-! ### The rounds -/

/-- The lanes after the first `i` rounds. -/
def lanesAfter (S : Vector Word 50) (i : Nat) : Vector Lane 25 := (roundConstants.take i).foldl round (lanesOf S)

theorem lanesAfter_zero (S : Vector Word 50) : lanesAfter S 0 = lanesOf S := rfl

theorem lanesAfter_succ (S : Vector Word 50) (i : Fin 24) :
    lanesAfter S (i.val + 1) = round (lanesAfter S i.val) (roundConstants.getD i.val 0) := by
  have h : i.val < roundConstants.length := i.isLt
  rw [lanesAfter, List.take_succ_eq_append_getElem h, List.foldl_concat, lanesAfter, List.getD_eq_getElem _ _ h]

theorem f1600_eq (S : Vector Word 50) : f1600 S = wordsOf (lanesAfter S 24) := by
  unfold f1600
  rfl

/-- The low half of a lane is the word at the even index (R106). -/
theorem getElem_wordsOf_even (A : Vector Lane 25) (L : Fin 25) :
    (wordsOf A)[2 * L.val] = (A[L]).extractLsb' 0 32 := by
  simp [wordsOf]

/-- The high half is the word at the odd index. -/
theorem getElem_wordsOf_odd (A : Vector Lane 25) (L : Fin 25) :
    (wordsOf A)[2 * L.val + 1] = (A[L]).extractLsb' 32 32 := by
  have half : (2 * L.val + 1) / 2 = L.val := by omega
  have odd : (2 * L.val + 1) % 2 = 1 := by omega
  simp [wordsOf, half, odd]

end Sys2Proof.Machine
end

section
/-! The statements about the permutation. -/

open Sys2Proof Sys2Proof.Machine

/-- Settles O33, by the four steps read at lane coordinates. -/
theorem aRoundIsFourSteps : Obligations.ARoundIsFourSteps := by
  intro A rc
  refine ⟨theta A, rhoPi (theta A), chi (rhoPi (theta A)), fun x y => ?_, fun x y => ?_, getElem_chi _,
    getElem_iota _ rc⟩
  · rw [getElem_theta, columnParity_eq, columnParity_eq]
  · rw [getElem_rhoPi, rotationOffsets_eq ⟨_, lane_lt x y⟩]

/-- Settles O34: the lanes after each round are the fold's partial results. -/
theorem thePermutationIsTwentyFourRounds : Obligations.ThePermutationIsTwentyFourRounds := by
  intro S
  refine ⟨lanesAfter S, fun L => ?_, lanesAfter_succ S, fun L => ?_⟩
  · exact Vector.getElem_ofFn _
  · rw [f1600_eq]
    exact ⟨getElem_wordsOf_even _ L, getElem_wordsOf_odd _ L⟩

end

section
/-! SUPPORT. The sponge against Keccak-256 of a byte string (40_keccak.md R117): the block buffer holds the bytes of the
message since the last full block, and the rest of the message is absorbed as the rest of the padded string is. -/

namespace Sys2Proof.Machine

/-! ### Blocks as bytes and as words -/

/-- The bytes of a word of a block, least significant first (20_memory.md R61). -/
theorem wordByte_blockWord (block : List Byte) (i k : Nat) (hk : k < 4) :
    wordByte (blockWord block i) k = block.getD (4 * i + k) 0 := by
  match k, hk with
  | 0, _ => exact BitVec.extractLsb'_append_eq_right
  | 1, _ => exact (BitVec.extractLsb'_append_eq_of_le (by decide)).trans BitVec.extractLsb'_append_eq_right
  | 2, _ =>
    exact (BitVec.extractLsb'_append_eq_of_le (by decide)).trans
      ((BitVec.extractLsb'_append_eq_of_le (by decide)).trans BitVec.extractLsb'_append_eq_right)
  | 3, _ =>
    exact (BitVec.extractLsb'_append_eq_of_le (by decide)).trans
      ((BitVec.extractLsb'_append_eq_of_le (by decide)).trans
        ((BitVec.extractLsb'_append_eq_of_le (by decide)).trans BitVec.extractLsb'_eq_self))

/-- The buffer that holds a block. -/
def blockBuffer (block : List Byte) : Vector Word 34 := Vector.ofFn fun i => blockWord block i.val

theorem bufferByte_blockBuffer (block : List Byte) (j : Fin 136) :
    bufferByte (blockBuffer block) j = block.getD j.val 0 := by
  rw [bufferByte, blockBuffer, Vector.getElem_ofFn, wordByte_blockWord _ _ _ (Nat.mod_lt _ (by decide)),
    Nat.div_add_mod]

/-- XORing the buffer is XORing its bytes. -/
theorem xorBlock_eq_xorBytes (S : Vector Word 50) {blk : Vector Word 34} {block : List Byte}
    (h : ∀ j : Fin 136, bufferByte blk j = block.getD j.val 0) : xorBlock S blk = xorBytes S block := by
  have words : blk = blockBuffer block := buffer_ext fun j => (h j).trans (bufferByte_blockBuffer block j).symm
  subst words
  refine Vector.ext fun i hi => ?_
  simp only [xorBlock, xorBytes, blockBuffer, Vector.getElem_ofFn]
  rfl

/-! ### The padded message, block by block -/

/-- The padding of a message that fills all but `q` bytes of its last block (R117). -/
def padding (q : Nat) : List Byte := if q = 1 then [0x81] else 0x01 :: List.replicate (q - 2) 0x00 ++ [0x80]

theorem padded_eq (msg : List Byte) : padded msg = msg ++ padding (136 - msg.length % 136) := rfl

theorem length_padding {q : Nat} (h : 0 < q) : (padding q).length = q := by
  unfold padding
  split
  · simp_all
  · simp only [List.length_append, List.length_cons, List.length_replicate, List.length_nil]
    omega

/-- The padding's first byte has bit 0 set and its last byte bit 7, which may be the same byte. -/
theorem getD_padding {q k : Nat} (h : k < q) :
    (padding q).getD k 0 = (if k = 0 then 0x01 else 0x00) ||| (if k + 1 = q then 0x80 else 0x00) := by
  unfold padding
  split
  · obtain rfl : k = 0 := by omega
    simp_all
  · cases k with
    | zero => simp [show ¬ 1 = q by omega]
    | succ k =>
      by_cases last : k + 2 = q
      · simp [← last]
      · have inside : k < q - 2 := by omega
        simp [List.getElem?_append, inside, last]

/-- The state after a message and its padding (R117). -/
def hashFrom (msg : List Byte) (S : Vector Word 50) : Vector Word 50 :=
  spongeBlocks ((padded msg).length / 136) (padded msg) S

/-- A full block is absorbed first. -/
theorem hashFrom_block {block : List Byte} (h : block.length = 136) (msg : List Byte) (S : Vector Word 50) :
    hashFrom (block ++ msg) S = hashFrom msg (f1600 (xorBytes S block)) := by
  have string : padded (block ++ msg) = block ++ padded msg := by
    rw [padded_eq, padded_eq, List.length_append, h, Nat.add_mod_left, List.append_assoc]
  have count : (block ++ padded msg).length / 136 = (padded msg).length / 136 + 1 := by
    rw [List.length_append, h, Nat.add_div_left _ (by decide)]
  rw [hashFrom, string, count, spongeBlocks, List.take_left' h, List.drop_left' h, hashFrom]

/-- What is left of a message is padded to one block. -/
theorem hashFrom_last {msg : List Byte} (h : msg.length < 136) (S : Vector Word 50) :
    hashFrom msg S = f1600 (xorBytes S (padded msg)) := by
  have length : (padded msg).length = 136 := by
    rw [padded_eq, List.length_append, length_padding (by omega)]
    omega
  rw [hashFrom, length]
  simp only [spongeBlocks, Nat.reduceDiv, List.take_of_length_le length.le]

/-! ### The buffer holds the bytes since the last full block -/

/-- The block being accumulated is `buf`, zero from the cursor on. -/
structure State.Buffers (s : State) (buf : List Byte) : Prop where
  cursor : s.KPOS.val = buf.length
  bytes : ∀ j : Fin 136, s.liveByte j = buf.getD j.val 0

theorem buffers_nil {s : State} (hk : s.KPOS = 0) (hr : s.KRST = true) : s.Buffers [] :=
  ⟨by rw [hk]; rfl, fun j => by simp [State.liveByte, hr]⟩

theorem State.Buffers.length_lt {s : State} {buf : List Byte} (h : s.Buffers buf) : buf.length < 136 :=
  h.cursor ▸ s.KPOS.isLt

/-- A byte ORed in at the cursor extends the block by that byte. -/
theorem State.Buffers.getD_concat {s : State} {buf : List Byte} (h : s.Buffers buf) (b : Byte) (j : Fin 136) :
    (if j = s.KPOS then s.liveByte j ||| b else s.liveByte j) = (buf ++ [b]).getD j.val 0 := by
  have cursor : j = s.KPOS ↔ j.val = buf.length := by rw [Fin.ext_iff, h.cursor]
  rw [h.bytes]
  by_cases hj : j.val = buf.length
  · simp [cursor, hj]
  · by_cases before : j.val < buf.length
    · simp [cursor, hj, List.getElem?_append, before]
    · have after : ¬ j.val - buf.length < 1 := by omega
      simp [cursor, hj, List.getElem?_append, before, after]

/-- A byte that does not fill the block. -/
theorem absorbByte_buffers {s : State} {buf : List Byte} (h : s.Buffers buf) (room : s.KPOS.val < 135) (b : Byte) :
    (absorbByte b s).Buffers (buf ++ [b]) ∧ (absorbByte b s).S = s.S := by
  obtain ⟨blk, e, hblk⟩ := absorbByte_some b s room
  rw [e]
  refine ⟨⟨?_, fun j => (hblk j).trans (h.getD_concat b j)⟩, rfl⟩
  rw [List.length_append, ← h.cursor]
  rfl

/-- The byte that fills the block. -/
theorem absorbByte_full {s : State} {buf : List Byte} (h : s.Buffers buf) (full : s.KPOS.val = 135) (b : Byte) :
    (absorbByte b s).Buffers [] ∧ (absorbByte b s).S = f1600 (xorBytes s.S (buf ++ [b])) := by
  obtain ⟨blk, e, hblk⟩ := absorbByte_none b s full
  rw [e]
  exact ⟨buffers_nil rfl rfl, congrArg f1600 (xorBlock_eq_xorBytes s.S fun j => (hblk j).trans (h.getD_concat b j))⟩

/-- The last block is what is left of the message, padded (R112, R117). -/
theorem padAndFinish_S {s : State} {buf : List Byte} (h : s.Buffers buf) : (padAndFinish s).S = hashFrom buf s.S := by
  obtain ⟨blk, e, hblk⟩ := padAndFinish_eq s
  have hlt := h.length_lt
  rw [e, hashFrom_last hlt]
  refine congrArg f1600 (xorBlock_eq_xorBytes s.S fun j => ?_)
  rw [hblk, h.getD_concat, padded_eq, Nat.mod_eq_of_lt hlt]
  have last : j = 135 ↔ j.val = 135 := Fin.ext_iff
  by_cases before : j.val < buf.length
  · have notLast : j.val ≠ 135 := by omega
    simp [List.getElem?_append, before, last, notLast]
  · have inside : j.val - buf.length < 136 - buf.length := by omega
    have atEnd : j.val - buf.length + 1 = 136 - buf.length ↔ j.val = 135 := by omega
    rw [List.getD_append_right _ _ _ _ (by omega), List.getD_append_right _ _ _ _ (by omega), getD_padding inside]
    simp only [atEnd, last]
    congr 1
    cases j.val - buf.length <;> simp

/-- The rest of a message and the padding, from any point of it (R117). -/
theorem padAndFinish_absorbBytes (msg buf : List Byte) {s : State} (h : s.Buffers buf) :
    (padAndFinish (absorbBytes msg s)).S = hashFrom (buf ++ msg) s.S := by
  induction msg generalizing buf s with
  | nil => rw [absorbBytes_nil, List.append_nil, padAndFinish_S h]
  | cons b msg ih =>
    rw [absorbBytes_cons, List.append_cons]
    by_cases room : s.KPOS.val < 135
    · obtain ⟨buffers, words⟩ := absorbByte_buffers h room b
      rw [ih _ buffers, words]
    · have full : s.KPOS.val = 135 := by omega
      have block : (buf ++ [b]).length = 136 := by
        rw [List.length_append, ← h.cursor, full]
        rfl
      obtain ⟨buffers, words⟩ := absorbByte_full h full b
      rw [ih _ buffers, words, List.nil_append, hashFrom_block block]

end Sys2Proof.Machine
end

section
/-! The statement about Keccak-256. -/

open Sys2Proof Sys2Proof.Machine

/-- Settles O32: the commands are `startHash`, the bytes of the message and `padAndFinish`, and `startHash` leaves an empty
block. -/
theorem theSpongeComputesKeccak256 : Obligations.TheSpongeComputesKeccak256 := by
  intro s msg
  have started : (normalEnd (startHash s)).Buffers [] := buffers_nil rfl rfl
  obtain ⟨S, blk, k, r, absorbed⟩ := absorbBytes_frame msg (normalEnd (startHash s))
  obtain ⟨blk', finished, -⟩ := padAndFinish_eq (absorbBytes msg (normalEnd (startHash s)))
  have phase : (absorbBytes msg (normalEnd (startHash s))).KPHASE = .absorb := by rw [absorbed]; rfl
  refine ⟨normalEnd (padAndFinish (absorbBytes msg (normalEnd (startHash s)))), ?_, ?_, ?_, rfl, ?_⟩
  · rw [List.cons_append, execAll_cons (i := .kInit) rfl, execAll_kAbsorb msg _ rfl rfl,
      execAll_cons (exec_kFinal phase)]
    rfl
  · exact congrArg digest (padAndFinish_absorbBytes msg [] started)
  · rw [finished]
    rfl
  · rw [finished, absorbed]
    rfl

end

section
/-! SUPPORT. The commands of the FAU over the natural numbers the registers hold (41_field.md R145 to R151): a residue,
a difference and an inverse as natural numbers, and the run of `F_BINV` register by register. -/

namespace Sys2Proof.Machine

open Sys2Proof.Config

/-- The word of a command whose register fields are `FR` numbers (30_encoding.md R81). -/
theorem packWord_fr_toNat (o : Opcode) (rd ra rb : FrNum) (m : Bool) (imm : Byte) :
    (packWord o rd ra rb m imm).toNat =
      o.code.toNat * 2 ^ 24 + rd.val * 2 ^ 20 + ra.val * 2 ^ 16 + rb.val * 2 ^ 12 + m.toNat * 2 ^ 8 + imm.toNat := by
  rw [packWord_toNat, Nat.mod_eq_of_lt rd.isLt, Nat.mod_eq_of_lt ra.isLt, Nat.mod_eq_of_lt rb.isLt]

/-! ### Natural residues -/

theorem mod_natCast (a m : Nat) : mod a m = (a % m : Nat) := rfl

theorem mod_natCast_eq_zero_iff {a m : Nat} : mod a m = 0 ↔ a % m = 0 := Int.natCast_eq_zero

/-- The residue of a difference is the natural `d` with `d + b ≡ a`, below the modulus (R147). -/
theorem mod_sub_natCast (a b : Nat) {m : Nat} (hm : 0 < m) :
    ∃ d : Nat, mod (a - b) m = d ∧ d < m ∧ (d + b) % m = a % m := by
  obtain ⟨d, hd⟩ := Int.eq_ofNat_of_zero_le (mod_nonneg (a - b) hm)
  have lt := mod_lt (a - b) hm
  have sum : (mod (a - b) m + b) % m = a % m := by rw [mod, Int.emod_add_emod, sub_add_cancel]
  rw [hd] at lt sum
  exact ⟨d, hd, by exact_mod_cast lt, by exact_mod_cast sum⟩

/-- A result that is a natural number ends its command with that number in the destination. -/
theorem endCommand_setFr (s : State) (rd : FrNum) (v : Nat) :
    endCommand s (.ok (s.setFr rd v)) = .next { s with FR := s.FR.set rd (BitVec.ofNat 256 v), ERRCODE := 0 } := by
  rw [endCommand_ok, State.setFr, toBig, BitVec.ofInt_natCast]
  rfl

/-! ### The run of `F_BINV` -/

theorem length_frRun {ra : FrNum} {count : Nat} (h : ra.val + count ≤ 16) (s : State) :
    (s.frRun ra count).length = count := by
  rw [State.frRun, List.length_map, List.length_take, List.length_drop, Vector.length_toList]
  omega

theorem getElem_frRun (s : State) {ra k : FrNum} {count i : Nat} (hk : k.val = ra.val + i)
    (hi : i < (s.frRun ra count).length) : (s.frRun ra count)[i] = s.fr k := by
  simp [State.frRun, State.fr, hk]

/-- Each register inside a run gets its value of the list. -/
theorem setRun_inside (fr : Vector Big 16) {lo i : Nat} {vs : List Int} {r : FrNum} (hr : r.val = lo + i)
    (hi : i < vs.length) : (setRun fr lo vs)[r] = toBig vs[i] := by
  induction vs generalizing fr lo i with
  | nil => cases hi
  | cons v vs ih =>
    cases i with
    | zero =>
      rw [setRun, setRun_outside _ _ _ _ (by omega)]
      simp [hr]
    | succ i => exact ih _ (by omega) (Nat.lt_of_succ_lt_succ hi)

/-- What `F_BINV` writes for the contents `a` of a register, over the natural numbers (R144). -/
theorem toBig_inverse {a : Big} {m : Bool} {v : Int}
    (h : (mod (intOf a) (modulus m) = 0 ∧ v = 0) ∨ (mod (intOf a) (modulus m) ≠ 0 ∧ 0 ≤ v ∧ v < modulus m ∧
      mod (mod (intOf a) (modulus m) * v) (modulus m) = 1)) :
    (a.toNat % modulus m = 0 → toBig v = 0) ∧
      (a.toNat % modulus m ≠ 0 →
        (toBig v).toNat < modulus m ∧ a.toNat * (toBig v).toNat % modulus m = 1) := by
  rw [intOf, Ne, mod_natCast_eq_zero_iff] at h
  rcases h with ⟨zero, rfl⟩ | ⟨unit, h0, h1, inverse⟩
  · exact ⟨fun _ => rfl, fun unit => absurd zero unit⟩
  · refine ⟨fun zero => absurd zero unit, fun _ => ⟨toBig_lt_modulus ⟨h0, h1⟩, ?_⟩⟩
    have hv := toBig_toNat h0 (h1.trans (by exact_mod_cast modulus_le m))
    have product : mod (intOf a * v) (modulus m) = 1 := by
      rw [← inverse]
      exact ((mod_modEq (intOf a) (modulus m)).mul_right v).symm
    rw [← hv] at product
    exact Int.natCast_inj.1 product

end Sys2Proof.Machine
end

section
/-! The statements about the FAU. -/

open Sys2Proof Sys2Proof.Config Sys2Proof.Machine

/-- Settles O36, by `modpow_eq`. -/
theorem powerIsThePower : Obligations.PowerIsThePower := by
  intro rd ra rb m s
  have power : modpow (s.fr ra) (s.fr rb).toNat (modulus m) =
      (s.FR[ra].toNat ^ s.FR[rb].toNat % modulus m : Nat) := by
    rw [modpow_eq _ _ _ (modulus_prime m).one_lt, ← mod_natCast, Nat.cast_pow]
    rfl
  refine ⟨packWord_fr_toNat .fPow rd ra rb m 0, ?_⟩
  rw [exec_eq, effect, power, endCommand_setFr]

/-- Settles O37, by the two answers of `inverseInto`. -/
theorem inverseOrNotInvertible : Obligations.InverseOrNotInvertible := by
  intro rd ra m s
  refine ⟨packWord_fr_toNat .fInv rd ra 0 m 0, ?_⟩
  have residue : mod (s.fr ra) (modulus m) = 0 ↔ s.FR[ra].toNat % modulus m = 0 := mod_natCast_eq_zero_iff
  rw [exec_eq, effect, Ne, ← residue]
  rcases inverseInto_cases rd ra m s with ⟨unit, v, result, h0, h1, inverse⟩ | ⟨zero, result⟩ <;> rw [result]
  · obtain ⟨v, rfl⟩ := Int.eq_ofNat_of_zero_le h0
    refine ⟨fun _ => ⟨v, by exact_mod_cast h1, ?_, endCommand_setFr s rd v⟩, fun zero => absurd zero unit⟩
    exact Int.natCast_inj.1 inverse
  · exact ⟨fun unit => absurd zero unit, fun _ => rfl⟩

/-- Settles O38: `batchInverseAt` answers a list of inverses, one for each register of the run, or fails its value
check. -/
theorem batchInverseIsElementwise : Obligations.BatchInverseIsElementwise := by
  intro ra m count s
  refine ⟨packWord_fr_toNat .fBinv 0 ra 0 m count, ?_⟩
  rw [exec_eq, effect]
  rcases batchInverseAt_cases ra m count s with ⟨good, out, result, inverses⟩ | ⟨bad, result⟩ <;> rw [result]
  · have inFile : 1 ≤ count.toNat ∧ ra.val + count.toNat ≤ 16 := of_decide_eq_true good
    have length : count.toNat = out.length := by
      rw [← inverses.length_eq, List.length_map, length_frRun inFile.2]
    refine ⟨fun _ => ⟨setRun s.FR ra.val out, rfl, fun k => ⟨fun outside => ?_, fun inside => ?_⟩⟩,
      fun h => absurd inFile h⟩
    · exact setRun_outside s.FR ra.val out k (by omega)
    · obtain ⟨i, hk⟩ := Nat.exists_eq_add_of_le inside.1
      have hi : i < out.length := by omega
      rw [setRun_inside s.FR hk hi]
      have inverse := inverses.get (inverses.length_eq ▸ hi) hi
      simp only [List.get_eq_getElem, List.getElem_map, getElem_frRun s hk] at inverse
      exact toBig_inverse inverse
  · exact ⟨fun h => absurd h (of_decide_eq_false bad), fun _ => rfl⟩

/-- Settles O35: each result is the residue of a natural number. -/
theorem reduceAddSubtractMultiply : Obligations.ReduceAddSubtractMultiply := by
  intro rd ra rb m s
  refine ⟨⟨packWord_fr_toNat .fRed rd ra 0 m 0, endCommand_setFr ..⟩,
    ⟨packWord_fr_toNat .fAdd rd ra rb m 0, endCommand_setFr ..⟩,
    ⟨packWord_fr_toNat .fSub rd ra rb m 0, ?_⟩,
    ⟨packWord_fr_toNat .fMul rd ra rb m 0, endCommand_setFr ..⟩⟩
  obtain ⟨d, difference, lt, sum⟩ := mod_sub_natCast s.FR[ra].toNat s.FR[rb].toNat (modulus_pos m)
  refine ⟨d, lt, sum, ?_⟩
  rw [← endCommand_setFr, ← difference]
  rfl

end

section
/-! SUPPORT. The words of the PAU commands, and residues modulo `P` as elements of the field (42_point.md R171). -/

namespace Sys2Proof.Machine

open Sys2Proof.Config

/-- The word of a command whose register fields are point register numbers (30_encoding.md R81). -/
theorem packWord_pt_toNat (o : Opcode) (rd ra rb : PtNum) (m : Bool) (imm : Byte) :
    (packWord o rd ra rb m imm).toNat =
      o.code.toNat * 2 ^ 24 + rd.val * 2 ^ 20 + ra.val * 2 ^ 16 + rb.val * 2 ^ 12 + m.toNat * 2 ^ 8 + imm.toNat :=
  packWord_fr_toNat o (rd.castLE (by decide)) (ra.castLE (by decide)) (rb.castLE (by decide)) m imm

/-- The word of a command with a destination alone. -/
theorem packWord_rd_toNat (o : Opcode) (rd : PtNum) :
    (packWord o rd 0 0 false 0).toNat = o.code.toNat * 2 ^ 24 + rd.val * 2 ^ 20 := by
  rw [packWord_toNat, Nat.mod_eq_of_lt (rd.isLt.trans (by decide))]
  simp

theorem modP_eq_modP_iff (a b : Int) : modP a = modP b ↔ (a : ZMod P) = b := mod_eq_mod_iff_zmod a b P

theorem modP_eq_zero_iff (a : Int) : modP a = 0 ↔ (a : ZMod P) = 0 := mod_eq_zero_iff_zmod a P

theorem toBig_modP_inj (a b : Int) : toBig (modP a) = toBig (modP b) ↔ (a : ZMod P) = b := by
  refine ⟨fun h => ?_, fun h => by rw [(modP_eq_modP_iff a b).2 h]⟩
  have residues := congrArg intOf h
  rwa [intOf_toBig_modP, intOf_toBig_modP, modP_eq_modP_iff] at residues

theorem toBig_modP_natCast (a : Nat) : toBig (modP a) = BitVec.ofNat 256 (a % P) := BitVec.ofInt_natCast ..

/-- The residue of a negated register, over the natural numbers. -/
theorem toBig_modP_neg_natCast (a : Nat) : toBig (modP (-a)) = BitVec.ofNat 256 ((P - a % P) % P) := by
  have lt : a % P < P := Nat.mod_lt _ (modulus_pos false)
  rw [← toBig_modP_natCast, toBig_modP_inj, Nat.cast_sub lt.le]
  simp

/-- A command that ends with a Jacobian result (R171c). -/
theorem endCommand_putJp {s : State} {rd : PtNum} {p q : Jacobian} {b : Bool} (hp : p = q) (hb : q.isIdentity = b) :
    endCommand s (.ok (s.putJp rd p)) =
      .next { s with JP := s.JP.set rd q, FLAGS := { s.FLAGS with INF := b }, ERRCODE := 0 } := by
  subst hp hb
  rfl

/-- A command that ends with an affine result (R171c). -/
theorem endCommand_affineInto {s : State} {rd : PtNum} {r : Except CmdFault Affine} {a : Affine} {b : Bool}
    (hr : r = .ok a) (hb : a.inf = b) :
    endCommand s (affineInto rd s r) =
      .next { s with AP := s.AP.set rd a, FLAGS := { s.FLAGS with INF := b }, ERRCODE := 0 } := by
  subst hr hb
  rfl

/-- A command whose affine result is a fault. -/
theorem endCommand_affineInto_error {s : State} {rd : PtNum} {r : Except CmdFault Affine} {c : CmdFault}
    (hr : r = .error c) : endCommand s (affineInto rd s r) = .next (takeFault c s) := by
  subst hr
  rfl

/-- A command that ends with a decompressed point (R196). -/
theorem endCommand_decompInto {s : State} {rd : PtNum} {ra : FrNum} {m : Bool} {a : Affine}
    (h : decomp (s.fr ra) m = .ok a) :
    endCommand s (decompInto rd ra m s) =
      .next { s with AP := s.AP.set rd a, FLAGS := { s.FLAGS with INF := false }, ERRCODE := 0 } := by
  rw [decompInto, h]
  rfl

theorem endCommand_decompInto_error {s : State} {rd : PtNum} {ra : FrNum} {m : Bool} {c : CmdFault}
    (h : decomp (s.fr ra) m = .error c) : endCommand s (decompInto rd ra m s) = .next (takeFault c s) := by
  rw [decompInto, h]
  rfl

/-- A Jacobian value that is not the identity has an invertible `Z`. -/
theorem Z_ne_zero {p : Jacobian} (h : p.isIdentity = false) : (intOf p.Z : ZMod P) ≠ 0 :=
  fun hz => (isIdentity_false_iff p).1 h ((modP_eq_zero_iff _).2 hz)

end Sys2Proof.Machine
end

section
/-! SUPPORT. The Jacobian functions in closed form, on the raw coordinates (42_point.md R172 to R178). -/

namespace Sys2Proof.Machine

open Sys2Proof.Config

/-! ### Doubling -/

/-- The `X` of a double (R172). -/
def doubleX (X Y : Int) : Int := modP (9 * X ^ 4 - 8 * X * Y ^ 2)

/-- The `Y` of a double (R172). -/
def doubleY (X Y : Int) : Int := modP (3 * X ^ 2 * (4 * X * Y ^ 2 - doubleX X Y) - 8 * Y ^ 4)

/-- The identity and a value with `Y ≡ 0` have no other double than the identity (R172). -/
theorem jdbl_of_zero {p : Jacobian} (h : modP (intOf p.Z) = 0 ∨ modP (intOf p.Y) = 0) : jdbl p = J0 := by
  unfold jdbl
  split_ifs with identity
  · rfl
  · have hY := h.resolve_left fun hz => identity ((isIdentity_iff p).2 hz)
    refine if_pos ?_
    rw [modP_eq_zero_iff] at hY ⊢
    push_cast
    rw [hY, mul_zero, zero_mul]

/-- The `Z` of a double of a finite value is not 0 (R172). -/
theorem double_Z_ne_zero {Y Z : Int} (hY : modP Y ≠ 0) (hZ : modP Z ≠ 0) : modP (2 * Y * Z) ≠ 0 := by
  have : Fact P.Prime := ⟨Laws.prime_P⟩
  have two : modP 2 ≠ 0 := by decide +kernel
  rw [Ne, modP_eq_zero_iff] at *
  push_cast at two ⊢
  exact mul_ne_zero (mul_ne_zero two hY) hZ

/-- The closed form of a double (R172). -/
theorem jdbl_of_finite {p : Jacobian} (hZ : p.isIdentity = false) (hY : modP (intOf p.Y) ≠ 0) :
    jdbl p = ⟨toBig (doubleX (intOf p.X) (intOf p.Y)), toBig (doubleY (intOf p.X) (intOf p.Y)),
      toBig (modP (2 * intOf p.Y * intOf p.Z))⟩ := by
  unfold jdbl
  rw [if_neg (by simp [hZ])]
  refine (if_neg (double_Z_ne_zero hY ((isIdentity_false_iff p).1 hZ))).trans ?_
  rw [Jacobian.mk.injEq]
  refine ⟨(toBig_modP_inj ..).2 ?_, (toBig_modP_inj ..).2 ?_, rfl⟩
  · push_cast [modP_cast]
    ring
  · simp only [doubleX]
    push_cast [modP_cast]
    ring

theorem double_isIdentity {p : Jacobian} (hZ : p.isIdentity = false) (hY : modP (intOf p.Y) ≠ 0) (X Y : Big) :
    Jacobian.isIdentity ⟨X, Y, toBig (modP (2 * intOf p.Y * intOf p.Z))⟩ = false := by
  rw [isIdentity_false_iff, intOf_toBig_modP, modP_modP]
  exact double_Z_ne_zero hY ((isIdentity_false_iff p).1 hZ)

/-! ### Addition -/

/-- `H` without its reduction (R173). -/
def hTerm (p q : Jacobian) : Int := intOf q.X * intOf p.Z ^ 2 - intOf p.X * intOf q.Z ^ 2

/-- `r` without its reduction (R173). -/
def rTerm (p q : Jacobian) : Int := intOf q.Y * intOf p.Z ^ 3 - intOf p.Y * intOf q.Z ^ 3

/-- The `X` of a sum (R173). -/
def sumX (p q : Jacobian) : Int :=
  modP (rTerm p q ^ 2 - hTerm p q ^ 3 - 2 * (intOf p.X * intOf q.Z ^ 2) * hTerm p q ^ 2)

/-- The `Y` of a sum (R173). -/
def sumY (p q : Jacobian) : Int :=
  modP (rTerm p q * (intOf p.X * intOf q.Z ^ 2 * hTerm p q ^ 2 - sumX p q)
    - intOf p.Y * intOf q.Z ^ 3 * hTerm p q ^ 3)

/-- The `Z` of a sum (R173). -/
def sumZ (p q : Jacobian) : Int := modP (intOf p.Z * intOf q.Z * hTerm p q)

theorem jadd_of_identities {p q : Jacobian} (hp : p.isIdentity = true) (hq : q.isIdentity = true) :
    jadd p q = J0 := by simp [jadd, hp, hq]

theorem jadd_identity_right {p q : Jacobian} (hp : p.isIdentity = false) (hq : q.isIdentity = true) :
    jadd p q = p := by simp [jadd, hp, hq]

theorem jadd_identity_left {p q : Jacobian} (hp : p.isIdentity = true) (hq : q.isIdentity = false) :
    jadd p q = q := by simp [jadd, hp, hq]

/-- The sum of two finite values (R173). -/
theorem jadd_of_finite {p q : Jacobian} (hp : p.isIdentity = false) (hq : q.isIdentity = false) :
    jadd p q = if modP (hTerm p q) = 0 then (if modP (rTerm p q) = 0 then jdbl p else J0)
      else ⟨toBig (sumX p q), toBig (sumY p q), toBig (sumZ p q)⟩ := by
  have H : modP (modP (intOf q.X * modP (intOf p.Z * intOf p.Z)) - modP (intOf p.X * modP (intOf q.Z * intOf q.Z))) =
      modP (hTerm p q) := by
    rw [modP_eq_modP_iff, hTerm]
    push_cast [modP_cast]
    ring
  have r : modP (modP (intOf q.Y * intOf p.Z * modP (intOf p.Z * intOf p.Z)) -
      modP (intOf p.Y * intOf q.Z * modP (intOf q.Z * intOf q.Z))) = modP (rTerm p q) := by
    rw [modP_eq_modP_iff, rTerm]
    push_cast [modP_cast]
    ring
  simp only [jadd, hp, hq, Bool.false_eq_true, if_false, H, r]
  refine if_congr Iff.rfl rfl ?_
  rw [jaddGeneral, Jacobian.mk.injEq]
  refine ⟨(toBig_modP_inj ..).2 ?_, (toBig_modP_inj ..).2 ?_, (toBig_modP_inj ..).2 ?_⟩
  · push_cast [modP_cast]
    ring
  · simp only [sumX]
    push_cast [modP_cast]
    ring
  · push_cast [modP_cast]
    ring

/-- The `Z` of a sum with `H ≠ 0` is not 0, since `P` is prime (R173). -/
theorem sum_isIdentity {p q : Jacobian} (hp : p.isIdentity = false) (hq : q.isIdentity = false)
    (hH : modP (hTerm p q) ≠ 0) (X Y : Big) : Jacobian.isIdentity ⟨X, Y, toBig (sumZ p q)⟩ = false := by
  have : Fact P.Prime := ⟨Laws.prime_P⟩
  rw [isIdentity_false_iff, sumZ, intOf_toBig_modP, modP_modP]
  rw [Ne, modP_eq_zero_iff] at hH ⊢
  push_cast
  exact mul_ne_zero (mul_ne_zero (Z_ne_zero hp) (Z_ne_zero hq)) hH

end Sys2Proof.Machine
end

section
/-! The statements about Jacobian doubling and addition. -/

open Sys2Proof Sys2Proof.Config Sys2Proof.Machine

/-- Settles O39, by the closed form of `jdbl`. -/
theorem jacobianDouble : Obligations.JacobianDouble := by
  intro rd ra s
  refine ⟨packWord_pt_toNat .jDbl rd ra 0 false 0, ?_⟩
  rintro X Y Z rfl rfl rfl
  refine ⟨fun zero => endCommand_putJp (jdbl_of_zero zero) J0_isIdentity,
    fun ⟨hZ, hY⟩ => ⟨_, _, _, rfl, rfl, rfl, ?_⟩⟩
  have finite : (s.jp ra).isIdentity = false := (isIdentity_false_iff _).2 hZ
  exact endCommand_putJp (jdbl_of_finite finite hY) (double_isIdentity finite hY _ _)

/-- Settles O40: the short-circuits of `jadd`, then the sum of two finite values by `H` and `r`. -/
theorem jacobianAdd : Obligations.JacobianAdd := by
  intro rd ra rb s
  refine ⟨packWord_pt_toNat .jAdd rd ra rb false 0, ?_⟩
  rintro X1 Y1 Z1 X2 Y2 Z2 H r rfl rfl rfl rfl rfl rfl rfl rfl
  have identity (j : PtNum) : intOf s.JP[j].Z % P = 0 → (s.jp j).isIdentity = true := (isIdentity_iff _).2
  have finite (j : PtNum) : intOf s.JP[j].Z % P ≠ 0 → (s.jp j).isIdentity = false := (isIdentity_false_iff _).2
  refine ⟨fun ⟨h1, h2⟩ => ?_, fun ⟨h1, h2⟩ => ?_, fun ⟨h1, h2⟩ => ?_, fun ⟨h1, h2, hH, hr⟩ => ?_,
    fun ⟨h1, h2, hH, hr⟩ => ?_, fun ⟨h1, h2, hH⟩ => ⟨_, _, _, rfl, rfl, rfl, ?_⟩⟩
  · exact endCommand_putJp (jadd_of_identities (identity ra h1) (identity rb h2)) J0_isIdentity
  · exact endCommand_putJp (jadd_identity_right (finite ra h1) (identity rb h2)) (finite ra h1)
  · exact endCommand_putJp (jadd_identity_left (identity ra h1) (finite rb h2)) (finite rb h2)
  · have sum := (jadd_of_finite (finite ra h1) (finite rb h2)).trans ((if_pos hH).trans (if_pos hr))
    exact ⟨_, rfl, endCommand_putJp sum rfl⟩
  · have sum := (jadd_of_finite (finite ra h1) (finite rb h2)).trans ((if_pos hH).trans (if_neg hr))
    exact endCommand_putJp sum J0_isIdentity
  · have sum := (jadd_of_finite (finite ra h1) (finite rb h2)).trans (if_neg hH)
    exact endCommand_putJp sum (sum_isIdentity (finite ra h1) (finite rb h2) hH _ _)

end

section
/-! SUPPORT. The other Jacobian functions (42_point.md R174 to R178): residues over the natural numbers, and the affine
form as a quotient in the field. -/

namespace Sys2Proof.Machine

open Sys2Proof.Config

theorem jneg_of_finite {p : Jacobian} (h : p.isIdentity = false) :
    jneg p = ⟨BitVec.ofNat 256 (p.X.toNat % P), BitVec.ofNat 256 ((P - p.Y.toNat % P) % P),
      BitVec.ofNat 256 (p.Z.toNat % P)⟩ := by
  rw [jneg, if_neg (by simp [h])]
  simp only [intOf, toBig_modP_natCast, toBig_modP_neg_natCast]

theorem jendo_of_finite {p : Jacobian} (h : p.isIdentity = false) :
    jendo p = ⟨BitVec.ofNat 256 (beta * p.X.toNat % P), BitVec.ofNat 256 (p.Y.toNat % P),
      BitVec.ofNat 256 (p.Z.toNat % P)⟩ := by
  rw [jendo, if_neg (by simp [h])]
  simp only [intOf, ← Nat.cast_mul, toBig_modP_natCast]

/-- The affine form of a finite value, in the field (R177). -/
theorem jtoa_of_finite [Fact P.Prime] {p : Jacobian} (h : p.isIdentity = false) :
    ∃ x y : Int, jtoa p = .ok ⟨toBig (modP x), toBig (modP y), false⟩ ∧
      (x : ZMod P) = intOf p.X / (intOf p.Z : ZMod P) ^ 2 ∧ (y : ZMod P) = intOf p.Y / (intOf p.Z : ZMod P) ^ 3 := by
  rcases jtoa_cases p with ⟨identity, -⟩ | ⟨-, x, y, iz, result, inverse, hx, hy⟩
  · exact absurd identity (by simp [h])
  · have hiz : (iz : ZMod P) = (intOf p.Z : ZMod P)⁻¹ := eq_inv_of_mul_eq_one_right inverse
    refine ⟨x, y, result, ?_, ?_⟩
    · rw [hx, hiz]
      ring
    · rw [hy, hiz]
      ring

theorem jtoa_of_identity {p : Jacobian} (h : p.isIdentity = true) : jtoa p = .ok A0 := if_pos h

/-- Two values have the same affine form exactly when `J_EQ` finds them equal (R175, R177). -/
theorem jeq_iff_jtoa (p q : Jacobian) : jeq p q = true ↔ jtoa p = jtoa q := by
  have : Fact P.Prime := ⟨Laws.prime_P⟩
  cases hp : p.isIdentity <;> cases hq : q.isIdentity
  · obtain ⟨x1, y1, formP, hx1, hy1⟩ := jtoa_of_finite hp
    obtain ⟨x2, y2, formQ, hx2, hy2⟩ := jtoa_of_finite hq
    have Z1 := Z_ne_zero hp
    have Z2 := Z_ne_zero hq
    simp only [jeq, hp, hq, formP, formQ, Bool.and_self, Bool.or_self, Bool.false_eq_true, if_false, Bool.and_eq_true,
      beq_iff_eq, modP_eq_modP_iff, Except.ok.injEq, Affine.mk.injEq, toBig_modP_inj, and_true, hx1, hy1, hx2, hy2]
    push_cast
    rw [div_eq_div_iff (pow_ne_zero 2 Z1) (pow_ne_zero 2 Z2), div_eq_div_iff (pow_ne_zero 3 Z1) (pow_ne_zero 3 Z2)]
    ring_nf
  · obtain ⟨x1, y1, formP, -, -⟩ := jtoa_of_finite hp
    simp [jeq, hp, hq, formP, jtoa_of_identity hq, A0]
  · obtain ⟨x2, y2, formQ, -, -⟩ := jtoa_of_finite hq
    simp [jeq, hp, hq, formQ, jtoa_of_identity hp, A0]
  · simp [jeq, hp, hq, jtoa_of_identity hp, jtoa_of_identity hq]

/-- A congruence of products of registers, over the natural numbers. -/
theorem modP_natCast_eq_iff (a b : Nat) : modP a = modP b ↔ a % P = b % P := Int.natCast_inj

theorem isIdentity_iff_nat (p : Jacobian) : p.isIdentity = true ↔ p.Z.toNat % P = 0 :=
  (isIdentity_iff p).trans mod_natCast_eq_zero_iff

theorem isIdentity_false_iff_nat (p : Jacobian) : p.isIdentity = false ↔ p.Z.toNat % P ≠ 0 := by
  rw [← Bool.not_eq_true, isIdentity_iff_nat]

/-- `J_EQ` by cross products of the raw coordinates (R175). -/
theorem jeq_iff (p q : Jacobian) : jeq p q = true ↔
    (p.Z.toNat % P = 0 ∧ q.Z.toNat % P = 0) ∨ (p.Z.toNat % P ≠ 0 ∧ q.Z.toNat % P ≠ 0 ∧
      p.X.toNat * q.Z.toNat ^ 2 % P = q.X.toNat * p.Z.toNat ^ 2 % P ∧
      p.Y.toNat * q.Z.toNat ^ 3 % P = q.Y.toNat * p.Z.toNat ^ 3 % P) := by
  have square (a b : Nat) : (a : Int) * b * b = (a * b ^ 2 : Nat) := by push_cast; ring
  have cube (a b : Nat) : (a : Int) * b * b * b = (a * b ^ 3 : Nat) := by push_cast; ring
  have crossX : modP (intOf p.X * intOf q.Z * intOf q.Z) = modP (intOf q.X * intOf p.Z * intOf p.Z) ↔
      p.X.toNat * q.Z.toNat ^ 2 % P = q.X.toNat * p.Z.toNat ^ 2 % P := by
    simp only [intOf, square, modP_natCast_eq_iff]
  have crossY : modP (intOf p.Y * intOf q.Z * intOf q.Z * intOf q.Z) =
      modP (intOf q.Y * intOf p.Z * intOf p.Z * intOf p.Z) ↔
      p.Y.toNat * q.Z.toNat ^ 3 % P = q.Y.toNat * p.Z.toNat ^ 3 % P := by
    simp only [intOf, cube, modP_natCast_eq_iff]
  rw [← crossX, ← crossY, ← isIdentity_iff_nat, ← isIdentity_iff_nat, ← isIdentity_false_iff_nat,
    ← isIdentity_false_iff_nat]
  -- The three branches of `jeq`: none, one or both of the operands the identity.
  cases hp : p.isIdentity <;> cases hq : q.isIdentity <;> simp [jeq, hp, hq]

/-- A quotient that `J_TOA` writes is reduced and gives the raw coordinate back (R177). -/
theorem toBig_modP_mul_pow [Fact P.Prime] {x : Int} {X Z : Big} (k : Nat) (hZ : (intOf Z : ZMod P) ≠ 0)
    (hx : (x : ZMod P) = intOf X / (intOf Z : ZMod P) ^ k) :
    (toBig (modP x)).toNat * Z.toNat ^ k % P = X.toNat % P := by
  have residue : ((toBig (modP x)).toNat : ZMod P) = x := by
    rw [← modP_cast x, ← intOf_toBig_modP x, toBig_intOf, intOf, Int.cast_natCast]
  rw [← ZMod.natCast_eq_natCast_iff', Nat.cast_mul, Nat.cast_pow, residue, hx]
  simp only [intOf, Int.cast_natCast] at hZ ⊢
  exact div_mul_cancel₀ _ (pow_ne_zero k hZ)

end Sys2Proof.Machine
end

section
/-! The statements about the other Jacobian commands. -/

open Sys2Proof Sys2Proof.Config Sys2Proof.Machine

/-- Settles O41, by `jneg` and `jendo` of a finite value. -/
theorem jacobianNegateAndEndomorphism : Obligations.JacobianNegateAndEndomorphism := by
  refine ⟨by decide +kernel, fun rd ra s => ⟨packWord_pt_toNat .jNeg rd ra 0 false 0,
    packWord_pt_toNat .jEndo rd ra 0 false 0, ?_⟩⟩
  rintro X Y Z rfl rfl rfl
  refine ⟨fun zero => ?_, fun nonzero => ?_⟩
  · have identity : (s.jp ra).isIdentity = true := (isIdentity_iff_nat _).2 zero
    exact ⟨endCommand_putJp (if_pos identity) J0_isIdentity, endCommand_putJp (if_pos identity) J0_isIdentity⟩
  · have finite : (s.jp ra).isIdentity = false := (isIdentity_false_iff_nat _).2 nonzero
    have negated := jneg_isIdentity (s.jp ra)
    have mapped := jendo_isIdentity (s.jp ra)
    rw [finite, jneg_of_finite finite] at negated
    rw [finite, jendo_of_finite finite] at mapped
    exact ⟨endCommand_putJp (jneg_of_finite finite) negated, endCommand_putJp (jendo_of_finite finite) mapped⟩

/-- Settles O42, by the two readings of `jeq`. -/
theorem jacobianEqualityIsGroupEquality : Obligations.JacobianEqualityIsGroupEquality := by
  intro ra rb s
  refine ⟨packWord_pt_toNat .jEq 0 ra rb false 0, ?_⟩
  rintro X1 Y1 Z1 X2 Y2 Z2 rfl rfl rfl rfl rfl rfl
  exact ⟨jeq (s.jp ra) (s.jp rb), rfl, jeq_iff (s.jp ra) (s.jp rb), jeq_iff_jtoa (s.jp ra) (s.jp rb)⟩

/-- Settles O43: `jtoa` divides by the powers of `Z`. -/
theorem conversions : Obligations.Conversions := by
  have : Fact P.Prime := ⟨Laws.prime_P⟩
  intro rd ra s
  refine ⟨packWord_pt_toNat .jFroma rd ra 0 false 0, packWord_pt_toNat .jToa rd ra 0 false 0, rfl, ?_⟩
  cases h : (s.jp ra).isIdentity
  · obtain ⟨x, y, result, hx, hy⟩ := jtoa_of_finite h
    exact ⟨_, endCommand_affineInto result rfl, fun zero => absurd zero ((isIdentity_false_iff_nat _).1 h),
      fun _ => ⟨rfl, toBig_modP_lt x, toBig_modP_lt y, toBig_modP_mul_pow 2 (Z_ne_zero h) hx,
        toBig_modP_mul_pow 3 (Z_ne_zero h) hy⟩⟩
  · exact ⟨_, endCommand_affineInto (jtoa_of_identity h) rfl, fun _ => rfl,
      fun nonzero => absurd ((isIdentity_iff_nat _).1 h) nonzero⟩

end

section
/-! SUPPORT. The affine functions and the curve tests (42_point.md R184 to R193), over the raw register contents. -/

namespace Sys2Proof.Machine

open Sys2Proof.Config

/-! ### Chord and tangent -/

/-- The slope of a chord or tangent, reduced, and the point it gives (R184, R185). -/
theorem slopePoint_reduced {sl d e : Int} (x1 y1 x2 : Int) (slope : (sl : ZMod P) * d = e) :
    ∃ sl' x3 y3 : Int, 0 ≤ sl' ∧ sl' < P ∧ modP (sl' * d) = modP e ∧ x3 = modP (sl' ^ 2 - x1 - x2) ∧
      y3 = modP (sl' * (x1 - x3) - y1) ∧ slopePoint sl x1 y1 x2 = ⟨toBig x3, toBig y3, false⟩ := by
  refine ⟨modP sl, _, _, modP_nonneg sl, modP_lt sl, (modP_eq_modP_iff ..).2 ?_, rfl, rfl, ?_⟩
  · push_cast [modP_cast]
    exact slope
  · rw [slopePoint, Affine.mk.injEq]
    refine ⟨(toBig_modP_inj ..).2 ?_, (toBig_modP_inj ..).2 ?_, rfl⟩
    · push_cast [modP_cast]
      ring
    · push_cast [modP_cast]
      ring

/-- The tangent case of `adbl` (R184). -/
theorem adbl_tangent {a : Affine} (ha : a.inf = false) (hy : modP (intOf a.y) ≠ 0) :
    ∃ sl : Int, adbl a = .ok (slopePoint sl (intOf a.x) (intOf a.y) (intOf a.x)) ∧
      (sl : ZMod P) * (2 * intOf a.y : Int) = (3 * intOf a.x ^ 2 : Int) := by
  rcases adbl_cases a with ⟨identity, -⟩ | ⟨-, zero, -⟩ | ⟨-, -, sl, result, slope⟩
  · exact absurd identity (by simp [ha])
  · exact absurd zero hy
  · refine ⟨sl, result, ?_⟩
    push_cast
    rw [slope]
    ring

theorem adbl_of_y_zero {a : Affine} (ha : a.inf = false) (hy : modP (intOf a.y) = 0) :
    adbl a = .error .notInvertible := by
  rcases adbl_cases a with ⟨identity, -⟩ | ⟨-, -, result⟩ | ⟨-, nonzero, -⟩
  · exact absurd identity (by simp [ha])
  · exact result
  · exact absurd hy nonzero

theorem aadd_of_identities {a b : Affine} (ha : a.inf = true) (hb : b.inf = true) : aadd a b = .ok A0 := by
  simp [aadd, ha, hb]

theorem aadd_identity_left {a b : Affine} (ha : a.inf = true) (hb : b.inf = false) : aadd a b = .ok b := by
  simp [aadd, ha, hb]

theorem aadd_identity_right {a b : Affine} (ha : a.inf = false) (hb : b.inf = true) : aadd a b = .ok a := by
  simp [aadd, ha, hb]

theorem aadd_of_equal {a b : Affine} (ha : a.inf = false) (hb : b.inf = false)
    (hx : modP (intOf a.x) = modP (intOf b.x)) (hy : modP (intOf a.y) = modP (intOf b.y)) : aadd a b = adbl a := by
  simp [aadd, ha, hb, hx, hy]

theorem aadd_of_y_ne {a b : Affine} (ha : a.inf = false) (hb : b.inf = false)
    (hx : modP (intOf a.x) = modP (intOf b.x)) (hy : modP (intOf a.y) ≠ modP (intOf b.y)) :
    aadd a b = .error .invalidAddition := by
  simp [aadd, ha, hb, hx, hy]

/-- The base point, as the spec's numbers (00_scope.md R7). -/
theorem basePoint_eq : basePoint = ⟨BitVec.ofNat 256 Gx, BitVec.ofNat 256 Gy, false⟩ := by
  simp only [basePoint, toBig, BitVec.ofInt_natCast]

/-! ### Negation, comparison and the curve tests -/

theorem aneg_eq (a : Affine) : aneg a = if a.inf then A0 else
    ⟨BitVec.ofNat 256 (a.x.toNat % P), BitVec.ofNat 256 ((P - a.y.toNat % P) % P), false⟩ := by
  rw [aneg]
  simp only [intOf, toBig_modP_natCast, toBig_modP_neg_natCast]

theorem aneg_inf (a : Affine) : (aneg a).inf = a.inf := by
  unfold aneg
  cases h : a.inf <;> simp [A0]

/-- `A_EQ` compares residues (R190). -/
theorem aeq_iff (a b : Affine) : aeq a b = true ↔ (a.inf = true ∧ b.inf = true) ∨
    (a.inf = false ∧ b.inf = false ∧ a.x.toNat % P = b.x.toNat % P ∧ a.y.toNat % P = b.y.toNat % P) := by
  simp [aeq, intOf, modP_natCast_eq_iff, and_assoc]

theorem inField_iff (v : Big) : inField (intOf v) = true ↔ 0 < v.toNat ∧ v.toNat < P := by
  simp [inField, intOf]

theorem square_eq_curvef_iff (x y : Nat) : modP ((y : Int) * y) = curvef x ↔ y ^ 2 % P = (x ^ 3 + 7) % P := by
  rw [← modP_natCast_eq_iff, curvef]
  push_cast [curveB]
  ring_nf

/-- The second branch of `dualvalid` (R193). -/
theorem square_eq_neg_curvef_iff (x y : Nat) :
    modP ((y : Int) * y) = modP (-curvef x) ↔ (y ^ 2 + (x ^ 3 + 7)) % P = 0 := by
  rw [modP_eq_modP_iff, curvef, ← mod_natCast_eq_zero_iff, mod_eq_zero_iff_zmod, Int.cast_neg, modP_cast,
    eq_neg_iff_add_eq_zero]
  push_cast [curveB]
  ring_nf

theorem oncurve_iff (a : Affine) : oncurve a = true ↔ a.inf = false ∧ (0 < a.x.toNat ∧ a.x.toNat < P) ∧
    (0 < a.y.toNat ∧ a.y.toNat < P) ∧ a.y.toNat ^ 2 % P = (a.x.toNat ^ 3 + 7) % P := by
  rw [← square_eq_curvef_iff, ← inField_iff, ← inField_iff]
  simp [oncurve, intOf, and_assoc]

theorem dualvalid_iff (a : Affine) : dualvalid a = true ↔ a.inf = false ∧ (0 < a.x.toNat ∧ a.x.toNat < P) ∧
    (0 < a.y.toNat ∧ a.y.toNat < P) ∧ (a.y.toNat ^ 2 % P = (a.x.toNat ^ 3 + 7) % P ∨
      (a.y.toNat ^ 2 + (a.x.toNat ^ 3 + 7)) % P = 0) := by
  rw [← square_eq_curvef_iff, ← square_eq_neg_curvef_iff, ← inField_iff, ← inField_iff]
  simp [dualvalid, intOf, and_assoc]

end Sys2Proof.Machine
end

section
/-! The statements about the affine commands. -/

open Sys2Proof Sys2Proof.Config Sys2Proof.Machine

/-- Settles O44: the cases of `aadd` and of `adbl`, with the slope reduced. -/
theorem affineAddAndDouble : Obligations.AffineAddAndDouble := by
  intro rd ra rb s
  refine ⟨packWord_pt_toNat .aAdd rd ra rb false 0, packWord_pt_toNat .aDbl rd ra 0 false 0, ?_⟩
  rintro a b x1 y1 x2 y2 rfl rfl rfl rfl rfl rfl
  refine ⟨fun ⟨ha, hb⟩ => ?_, fun ⟨ha, hb⟩ => ?_, fun ⟨ha, hb⟩ => ?_, fun ⟨ha, hb, hx, hy⟩ => ?_,
    fun ⟨ha, hb, hx, hy⟩ => ?_, fun ⟨ha, hb, hx⟩ => ?_, fun ha => ?_, fun ⟨ha, hy⟩ => ?_, fun ⟨ha, hy⟩ => ?_⟩
  · exact endCommand_affineInto (aadd_of_identities ha hb) rfl
  · exact endCommand_affineInto (aadd_identity_left ha hb) hb
  · exact endCommand_affineInto (aadd_identity_right ha hb) ha
  · obtain ⟨t, double⟩ := exec_total (.aDbl rd ra) s
    exact ⟨t, double, (congrArg (endCommand s ∘ affineInto rd s) (aadd_of_equal ha hb hx hy)).trans double⟩
  · exact endCommand_affineInto_error (aadd_of_y_ne ha hb hx hy)
  · obtain ⟨sl, result, slope⟩ := aadd_chord ha hb hx
    obtain ⟨sl', x3, y3, h0, h1, hsl, hx3, hy3, point⟩ := slopePoint_reduced _ _ _ (by exact_mod_cast slope)
    exact ⟨sl', x3, y3, h0, h1, hsl, hx3, hy3, endCommand_affineInto (result.trans (congrArg _ point)) rfl⟩
  · exact endCommand_affineInto (if_pos ha) rfl
  · exact endCommand_affineInto_error (adbl_of_y_zero ha hy)
  · obtain ⟨sl, result, slope⟩ := adbl_tangent ha hy
    obtain ⟨sl', x3, y3, h0, h1, hsl, hx3, hy3, point⟩ := slopePoint_reduced _ _ _ slope
    rw [sub_sub, ← two_mul] at hx3
    exact ⟨sl', x3, y3, h0, h1, hsl, hx3, hy3, endCommand_affineInto (result.trans (congrArg _ point)) rfl⟩

/-- Settles O45: residues over the natural numbers. -/
theorem affineNegateCompareAndLoad : Obligations.AffineNegateCompareAndLoad := by
  intro rd ra rb s
  refine ⟨⟨packWord_pt_toNat .aNeg rd ra 0 false 0, ?_⟩,
    ⟨packWord_pt_toNat .aEq 0 ra rb false 0, aeq (s.ap ra) (s.ap rb), rfl, aeq_iff (s.ap ra) (s.ap rb)⟩,
    packWord_rd_toNat .aLdg rd, ?_⟩
  · exact endCommand_affineInto (congrArg Except.ok (aneg_eq (s.ap ra))) (aneg_eq (s.ap ra) ▸ aneg_inf (s.ap ra))
  · rw [← basePoint_eq]
    rfl

/-- Settles O46, by the two tests over the natural numbers. -/
theorem aValidReportsBothTests : Obligations.AValidReportsBothTests := by
  intro ra s
  refine ⟨packWord_pt_toNat .aValid 0 ra 0 false 0, ?_⟩
  rintro x y rfl rfl
  exact ⟨dualvalid (s.ap ra), oncurve (s.ap ra), rfl, oncurve_iff (s.ap ra), dualvalid_iff (s.ap ra)⟩

end

section
/-! SUPPORT. Squares modulo `P` (42_point.md R170, R193, R195): which `x` have a point of the curve, which one of its
twist, and the root that decompression finds. -/

namespace Sys2Proof.Machine

open Sys2Proof.Config

theorem natCast_ne_zero {b : Nat} (h0 : 0 < b) (h1 : b < P) : (b : ZMod P) ≠ 0 := by
  rw [Ne, ZMod.natCast_eq_zero_iff]
  exact Nat.not_dvd_of_pos_of_lt h0 h1

theorem two_ne_zero_P : (2 : ZMod P) ≠ 0 := natCast_ne_zero (b := 2) (by decide) (by decide)

theorem seven_ne_zero_P : (7 : ZMod P) ≠ 0 := natCast_ne_zero (b := 7) (by decide) (by decide)

variable [Fact P.Prime]

/-- A power of a number is not 1 when square-and-multiply does not find 1. -/
theorem natCast_pow_ne_one {b e : Nat} (he : e < 2 ^ 256) (h : Laws.powMod P b e % P ≠ 1) : (b : ZMod P) ^ e ≠ 1 := by
  rw [← Laws.powMod_cast P b e he, ← Nat.cast_one, Ne, ZMod.natCast_eq_natCast_iff',
    Nat.mod_eq_of_lt Laws.prime_P.one_lt]
  exact h

/-- 7 is no square, so no point has `x = 0` (R170). -/
theorem not_isSquare_seven : ¬ IsSquare (7 : ZMod P) := by
  have power : ((7 : Nat) : ZMod P) ^ (P / 2) ≠ 1 := natCast_pow_ne_one (by decide +kernel) (by decide +kernel)
  intro square
  exact power (by exact_mod_cast (ZMod.euler_criterion P seven_ne_zero_P).1 square)

/-- `−7` is no cube, so `x³ + 7` has no root (R170). -/
theorem cube_add_seven_ne_zero (x : ZMod P) : x ^ 3 + 7 ≠ 0 := by
  have power : ((P - 7 : Nat) : ZMod P) ^ ((P - 1) / 3) ≠ 1 :=
    natCast_pow_ne_one (by decide +kernel) (by decide +kernel)
  have third : 3 * ((P - 1) / 3) = P - 1 := by decide +kernel
  intro root
  have cube : ((P - 7 : Nat) : ZMod P) = x ^ 3 := by
    rw [Nat.cast_sub (by decide +kernel), ZMod.natCast_self]
    linear_combination -root
  have nonzero : x ≠ 0 := by
    rintro rfl
    exact seven_ne_zero_P (by simpa using root)
  exact power (by rw [cube, ← pow_mul, third, ZMod.pow_card_sub_one_eq_one nonzero])

/-- Of a number and its negative exactly one is a square, since `P ≡ 3 mod 4` (R193). -/
theorem isSquare_neg_iff {f : ZMod P} (hf : f ≠ 0) : IsSquare (-f) ↔ ¬ IsSquare f := by
  have odd : Odd (P / 2) := by decide +kernel
  rw [ZMod.euler_criterion P hf, ZMod.euler_criterion P (neg_ne_zero.2 hf), odd.neg_pow]
  have signs : (-1 : ZMod P) ≠ 1 := fun h => two_ne_zero_P (by linear_combination -h)
  rcases ZMod.pow_div_two_eq_neg_one_or_one P hf with h | h
  · simp [h, signs]
  · simp [h, signs]

/-- A square that is not 0 has a root that fits a register. -/
theorem exists_root {c : ZMod P} (hc : c ≠ 0) (square : IsSquare c) :
    ∃ y : Big, (0 < y.toNat ∧ y.toNat < P) ∧ (y.toNat : ZMod P) ^ 2 = c := by
  obtain ⟨z, rfl⟩ := square
  have lt : z.val < 2 ^ 256 := (ZMod.val_lt z).trans (modulus_le false)
  refine ⟨BitVec.ofNat 256 z.val, ?_⟩
  rw [BitVec.toNat_ofNat, Nat.mod_eq_of_lt lt, ZMod.natCast_zmod_val, sq]
  exact ⟨⟨ZMod.val_pos.2 (left_ne_zero_of_mul hc), ZMod.val_lt z⟩, rfl⟩

/-! ### The curve tests in the field -/

theorem curve_equation_iff (x y : Nat) : y ^ 2 % P = (x ^ 3 + 7) % P ↔ (y : ZMod P) ^ 2 = (x : ZMod P) ^ 3 + 7 := by
  rw [← ZMod.natCast_eq_natCast_iff']
  push_cast
  rfl

theorem twist_equation_iff (x y : Nat) :
    (y ^ 2 + (x ^ 3 + 7)) % P = 0 ↔ (y : ZMod P) ^ 2 = -((x : ZMod P) ^ 3 + 7) := by
  rw [← Nat.dvd_iff_mod_eq_zero, ← ZMod.natCast_eq_zero_iff, eq_neg_iff_add_eq_zero]
  push_cast
  rfl

/-- An `x` of the field has a point of the curve exactly when `x³ + 7` is a square. -/
theorem exists_oncurve_iff {x : Big} (hx : 0 < x.toNat ∧ x.toNat < P) :
    (∃ y, oncurve ⟨x, y, false⟩ = true) ↔ IsSquare ((x.toNat : ZMod P) ^ 3 + 7) := by
  simp only [oncurve_iff, curve_equation_iff]
  constructor
  · rintro ⟨y, -, -, -, equation⟩
    exact ⟨y.toNat, by rw [← equation, sq]⟩
  · intro square
    obtain ⟨y, hy, equation⟩ := exists_root (cube_add_seven_ne_zero _) square
    exact ⟨y, trivial, hx, hy, equation⟩

/-- The dual test passes off the curve exactly on the points of the twist (R193). -/
theorem exists_dualvalid_not_oncurve_iff {x : Big} (hx : 0 < x.toNat ∧ x.toNat < P) :
    (∃ y, dualvalid ⟨x, y, false⟩ = true ∧ oncurve ⟨x, y, false⟩ = false) ↔
      IsSquare (-((x.toNat : ZMod P) ^ 3 + 7)) := by
  have nonzero := cube_add_seven_ne_zero (x.toNat : ZMod P)
  simp only [← Bool.not_eq_true, dualvalid_iff, oncurve_iff, curve_equation_iff, twist_equation_iff]
  constructor
  · rintro ⟨y, ⟨hinf, hx, hy, equation | equation⟩, off⟩
    · exact absurd ⟨hinf, hx, hy, equation⟩ off
    · exact ⟨y.toNat, by rw [← equation, sq]⟩
  · intro square
    obtain ⟨y, hy, equation⟩ := exists_root (neg_ne_zero.2 nonzero) square
    refine ⟨y, ⟨trivial, hx, hy, .inr equation⟩, fun ⟨_, _, _, on⟩ => ?_⟩
    exact (isSquare_neg_iff nonzero).1 square ⟨y.toNat, by rw [← on, sq]⟩

/-! ### Decompression (R195) -/

theorem isSquare_iff_nat (x : Nat) :
    IsSquare ((x : ZMod P) ^ 3 + 7) ↔ ∃ z : Nat, z ^ 2 % P = (x ^ 3 + 7) % P := by
  simp only [curve_equation_iff, IsSquare]
  constructor
  · rintro ⟨z, hz⟩
    exact ⟨z.val, by rw [hz, ZMod.natCast_zmod_val, sq]⟩
  · rintro ⟨z, hz⟩
    exact ⟨z, by rw [← hz, sq]⟩

theorem curvef_cast (x : Int) : ((curvef x : Int) : ZMod P) = (x : ZMod P) ^ 3 + 7 := by
  rw [curvef, modP_cast]
  push_cast [curveB]
  ring

/-- The exponent `(P + 1)/4` takes a root of a square (R195). -/
theorem pow_sqrtExp_sq {f : ZMod P} (square : IsSquare f) : (f ^ sqrtExp) ^ 2 = f := by
  have exponent : 2 * (sqrtExp * 2) = P + 1 := by decide +kernel
  obtain ⟨z, rfl⟩ := square
  rw [← sq, ← pow_mul, ← pow_mul, exponent, pow_succ, ZMod.pow_card, sq]

/-- All `rootWithParity` can be: the power or its negative. -/
theorem rootWithParity_cases (x : Int) (par : Bool) :
    ∃ y : Int, 0 ≤ y ∧ y < P ∧ (y : ZMod P) = ((x : ZMod P) ^ 3 + 7) ^ sqrtExp ∧
      ((y % 2 = (if par then 1 else 0) ∧ rootWithParity x par = y) ∨
        (y % 2 ≠ (if par then 1 else 0) ∧ rootWithParity x par = modP (-y))) := by
  refine ⟨mod (curvef x ^ sqrtExp) P, modP_nonneg _, modP_lt _, ?_, ?_⟩
  · rw [mod_cast_zmod, Int.cast_pow, curvef_cast]
  · rw [rootWithParity, modpow_eq _ _ _ Laws.prime_P.one_lt]
    generalize mod (curvef x ^ sqrtExp) P = y
    by_cases parity : y % 2 = if par then 1 else 0
    · exact .inl ⟨parity, if_pos parity⟩
    · exact .inr ⟨parity, if_neg parity⟩

theorem rootWithParity_sq (x : Int) (par : Bool) :
    (rootWithParity x par : ZMod P) ^ 2 = (((x : ZMod P) ^ 3 + 7) ^ sqrtExp) ^ 2 := by
  obtain ⟨y, -, -, root, ⟨-, e⟩ | ⟨-, e⟩⟩ := rootWithParity_cases x par
  · rw [e, root]
  · rw [e, modP_cast, Int.cast_neg, neg_sq, root]

/-- The root of `decomp` has the requested parity, since `P` is odd (R195). -/
theorem rootWithParity_parity {x : Int} {par : Bool} (h : rootWithParity x par ≠ 0) :
    rootWithParity x par % 2 = if par then 1 else 0 := by
  have odd : (P : Int) % 2 = 1 := by decide +kernel
  obtain ⟨y, h0, h1, -, ⟨parity, e⟩ | ⟨parity, e⟩⟩ := rootWithParity_cases x par
  · rw [e, parity]
  · have nonzero : y ≠ 0 := by
      rintro rfl
      exact h e
    have flipped : modP (-y) = P - y := by
      have range : modP (P - y) = P - y := mod_of_range (by omega) (by omega)
      rw [← range, modP_eq_modP_iff]
      simp
    rw [e, flipped]
    cases par <;> simp only [Bool.false_eq_true, if_true, if_false] at parity ⊢ <;> omega

/-- A square has its root of the requested parity (R195). -/
theorem decomp_of_isSquare {x : Big} (par : Bool) (hx : 0 < x.toNat ∧ x.toNat < P)
    (square : IsSquare ((x.toNat : ZMod P) ^ 3 + 7)) :
    ∃ y : Nat, (0 < y ∧ y < P) ∧ y % 2 = par.toNat ∧ (y : ZMod P) ^ 2 = (x.toNat : ZMod P) ^ 3 + 7 ∧
      decomp (intOf x) par = .ok ⟨x, BitVec.ofNat 256 y, false⟩ := by
  obtain ⟨h0, h1⟩ := rootWithParity_range (intOf x) par
  obtain ⟨y, hy⟩ := Int.eq_ofNat_of_zero_le h0
  have root := rootWithParity_sq (intOf x) par
  have cast : ((intOf x : Int) : ZMod P) = x.toNat := Int.cast_natCast _
  rw [cast, pow_sqrtExp_sq square, hy, Int.cast_natCast] at root
  have nonzero : y ≠ 0 := by
    rintro rfl
    exact cube_add_seven_ne_zero (x.toNat : ZMod P) (by simp [← root])
  have parity := rootWithParity_parity (x := intOf x) (par := par) (by omega)
  have equation : modP ((y : Int) * y) = curvef (intOf x) := by
    rw [curvef, modP_eq_modP_iff]
    push_cast [curveB, cast]
    linear_combination root
  refine ⟨y, by omega, ?_, root, ?_⟩
  · cases par <;> simp only [Bool.toNat_false, Bool.toNat_true, Bool.false_eq_true, if_true, if_false] at parity ⊢ <;>
      omega
  · rw [decomp, if_pos ((inField_iff x).2 hx), hy]
    refine (if_neg (by simp [equation, nonzero])).trans ?_
    rw [toBig_intOf, toBig, BitVec.ofInt_natCast]

/-- What `decomp` answers is a root (R195). -/
theorem decomp_of_not {x : Int} (par : Bool) (h : ¬ (inField x = true ∧ IsSquare ((x : ZMod P) ^ 3 + 7))) :
    decomp x par = .error .pointNotOnCurve := by
  by_cases hx : inField x = true
  · refine (if_pos hx).trans (if_pos (.inl fun equation => h ⟨hx, rootWithParity x par, ?_⟩))
    rw [curvef, modP_eq_modP_iff] at equation
    push_cast [curveB] at equation
    linear_combination -equation
  · exact if_neg hx

end Sys2Proof.Machine
end

section
/-! The statements about the curve and decompression. -/

open Sys2Proof Sys2Proof.Config Sys2Proof.Machine

/-- Settles O48: `−7` is no cube, 7 no square, and of `x³ + 7` and its negative exactly one is a square. -/
theorem curveOrTwist : Obligations.CurveOrTwist := by
  have : Fact P.Prime := ⟨Laws.prime_P⟩
  refine ⟨fun x zero => ?_, fun y square => ?_, fun x h0 h1 => ?_⟩
  · refine cube_add_seven_ne_zero (x : ZMod P) ?_
    rw [← curvef_cast, zero, Int.cast_zero]
  · refine not_isSquare_seven ⟨y, ?_⟩
    have h := congrArg (Int.cast : Int → ZMod P) square
    rw [curvef_cast, modP_cast] at h
    push_cast at h
    linear_combination -h
  · rw [exists_oncurve_iff ⟨h0, h1⟩, exists_dualvalid_not_oncurve_iff ⟨h0, h1⟩,
      isSquare_neg_iff (cube_add_seven_ne_zero _), not_not]

/-- Settles O47: a square modulo `P` has the root that `decomp` finds, and a point found is a root. -/
theorem decompressionFindsTheRoot : Obligations.DecompressionFindsTheRoot := by
  have : Fact P.Prime := ⟨Laws.prime_P⟩
  intro rd ra m s
  refine ⟨packWord_fr_toNat .aDecomp (rd.castLE (by decide)) ra 0 m 0, ?_⟩
  rintro x rfl
  rw [← isSquare_iff_nat]
  refine ⟨fun ⟨h0, h1, square⟩ => ?_, fun none => ?_⟩
  · obtain ⟨y, hy, parity, root, result⟩ := decomp_of_isSquare m ⟨h0, h1⟩ square
    have lt : y < 2 ^ 256 := hy.2.trans (modulus_le false)
    refine ⟨y, hy.2, parity, ?_, endCommand_decompInto result⟩
    rw [oncurve_iff, curve_equation_iff, BitVec.toNat_ofNat, Nat.mod_eq_of_lt lt]
    exact ⟨rfl, ⟨h0, h1⟩, hy, root⟩
  · refine endCommand_decompInto_error (decomp_of_not m fun ⟨hx, square⟩ => none ?_)
    obtain ⟨h0, h1⟩ := (inField_iff _).1 hx
    exact ⟨h0, h1, by exact_mod_cast square⟩

end

section
/-! SUPPORT. The group of the curve in coordinates (42_point.md R170, R179): Mathlib's chord and tangent law for
`y² = x³ + 7`, and what a register value stands for. -/

namespace Sys2Proof.Machine

open Sys2Proof.Config

/-- A finite element of the group, by its coordinates. -/
def IsAt (A : secp256k1.Point) (x y : ZMod P) : Prop := ∃ h, A = .some x y h

theorem secp256k1_negY (x y : ZMod P) : secp256k1.negY x y = -y := by simp [WeierstrassCurve.Affine.negY, secp256k1]

theorem secp256k1_addX (x1 x2 sl : ZMod P) : secp256k1.addX x1 x2 sl = sl ^ 2 - x1 - x2 := by
  simp [WeierstrassCurve.Affine.addX, secp256k1]

theorem secp256k1_addY (x1 x2 y1 sl : ZMod P) :
    secp256k1.addY x1 x2 y1 sl = sl * (x1 - (sl ^ 2 - x1 - x2)) - y1 := by
  rw [WeierstrassCurve.Affine.addY, secp256k1_negY, WeierstrassCurve.Affine.negAddY, secp256k1_addX]
  ring

theorem secp256k1_equation_iff (x y : ZMod P) : secp256k1.Equation x y ↔ y ^ 2 = x ^ 3 + 7 := by
  simp [WeierstrassCurve.Affine.equation_iff, secp256k1]

theorem eq_zero_or_isAt (A : secp256k1.Point) : A = 0 ∨ ∃ x y, IsAt A x y := by
  cases A with
  | zero => exact .inl rfl
  | some x y h => exact .inr ⟨x, y, h, rfl⟩

theorem isAt_some {x y x' y' : ZMod P} (h : secp256k1.Nonsingular x y) (hx : x = x') (hy : y = y') :
    IsAt (.some x y h) x' y' := by
  subst hx hy
  exact ⟨h, rfl⟩

theorem IsAt.ne_zero {A : secp256k1.Point} {x y : ZMod P} (h : IsAt A x y) : A ≠ 0 := by
  obtain ⟨h, rfl⟩ := h
  exact WeierstrassCurve.Affine.Point.some_ne_zero h

theorem IsAt.equation {A : secp256k1.Point} {x y : ZMod P} (h : IsAt A x y) : y ^ 2 = x ^ 3 + 7 := by
  obtain ⟨h, -⟩ := h
  exact (secp256k1_equation_iff x y).1 h.1

theorem IsAt.eq {A B : secp256k1.Point} {x y : ZMod P} (hA : IsAt A x y) (hB : IsAt B x y) : A = B := by
  obtain ⟨-, rfl⟩ := hA
  obtain ⟨-, rfl⟩ := hB
  rfl

theorem IsAt.coordinates {A : secp256k1.Point} {x y x' y' : ZMod P} (h : IsAt A x y) (h' : IsAt A x' y') :
    x = x' ∧ y = y' := by
  obtain ⟨_, rfl⟩ := h
  obtain ⟨_, e⟩ := h'
  exact WeierstrassCurve.Affine.Point.some.inj e

theorem IsAt.neg {A : secp256k1.Point} {x y : ZMod P} (h : IsAt A x y) : IsAt (-A) x (-y) := by
  obtain ⟨h, rfl⟩ := h
  exact isAt_some _ rfl (secp256k1_negY x y)

/-! ### What a register value stands for -/

theorem affine_stands_iff (a : Affine) (A : secp256k1.Point) : a.stands A ↔
    (a.inf = true ∧ A = 0) ∨ (a.inf = false ∧ IsAt A (intOf a.x) (intOf a.y)) := by
  cases A with
  | zero =>
    have none : ¬ IsAt .zero (intOf a.x) (intOf a.y) := fun h => h.ne_zero rfl
    simp [Affine.stands, none, WeierstrassCurve.Affine.Point.zero_def]
  | some x y h =>
    have coordinates : IsAt (.some x y h) (intOf a.x) (intOf a.y) ↔
        (intOf a.x : ZMod P) = x ∧ (intOf a.y : ZMod P) = y :=
      ⟨fun hA => hA.coordinates ⟨h, rfl⟩, fun ⟨hx, hy⟩ => isAt_some h hx.symm hy.symm⟩
    simp [Affine.stands, coordinates, WeierstrassCurve.Affine.Point.some_ne_zero]

section
variable [Fact P.Prime]

theorem IsAt.y_ne_zero {A : secp256k1.Point} {x y : ZMod P} (h : IsAt A x y) : y ≠ 0 := by
  rintro rfl
  exact cube_add_seven_ne_zero x (by rw [← h.equation, sq, zero_mul])

/-- A solution of the curve equation is no singular point. -/
theorem nonsingular_of_equation {x y : ZMod P} (h : y ^ 2 = x ^ 3 + 7) : secp256k1.Nonsingular x y := by
  have nonzero : y ≠ 0 := by
    rintro rfl
    exact cube_add_seven_ne_zero x (by rw [← h, sq, zero_mul])
  rw [WeierstrassCurve.Affine.nonsingular_iff, secp256k1_equation_iff]
  refine ⟨h, .inr fun e => mul_ne_zero two_ne_zero_P nonzero ?_⟩
  simp only [secp256k1, zero_mul, sub_zero] at e
  linear_combination e

theorem add_at_opposite {A B : secp256k1.Point} {x y : ZMod P} (hA : IsAt A x y) (hB : IsAt B x (-y)) : A + B = 0 := by
  rw [hB.eq hA.neg, add_neg_cancel]

/-- There is no point of order 2 (R170). -/
theorem IsAt.add_self_ne_zero {A : secp256k1.Point} {x y : ZMod P} (h : IsAt A x y) : A + A ≠ 0 := by
  intro zero
  have opposite : IsAt A x (-y) := by
    have negated := h.neg
    rwa [← eq_neg_of_add_eq_zero_left zero] at negated
  have double : 2 * y = 0 := by linear_combination (h.coordinates opposite).2
  exact mul_ne_zero two_ne_zero_P h.y_ne_zero double

/-- The chord through two points with different `x`, of slope `sl` (R185). -/
theorem IsAt.add_chord {A B : secp256k1.Point} {x1 y1 x2 y2 sl : ZMod P} (hA : IsAt A x1 y1) (hB : IsAt B x2 y2)
    (hx : x1 ≠ x2) (slope : sl * (x2 - x1) = y2 - y1) :
    IsAt (A + B) (sl ^ 2 - x1 - x2) (sl * (x1 - (sl ^ 2 - x1 - x2)) - y1) := by
  obtain ⟨h1, rfl⟩ := hA
  obtain ⟨h2, rfl⟩ := hB
  have e : secp256k1.slope x1 x2 y1 y2 = sl := by
    rw [WeierstrassCurve.Affine.slope_of_X_ne hx, div_eq_iff (sub_ne_zero.2 hx)]
    linear_combination slope
  rw [WeierstrassCurve.Affine.Point.add_of_X_ne hx]
  exact isAt_some _ (by rw [e, secp256k1_addX]) (by rw [e, secp256k1_addY])

/-- The tangent at a point, of slope `sl` (R184). -/
theorem IsAt.add_tangent {A : secp256k1.Point} {x y sl : ZMod P} (hA : IsAt A x y) (slope : sl * (2 * y) = 3 * x ^ 2) :
    IsAt (A + A) (sl ^ 2 - x - x) (sl * (x - (sl ^ 2 - x - x)) - y) := by
  have double : 2 * y ≠ 0 := mul_ne_zero two_ne_zero_P hA.y_ne_zero
  obtain ⟨h, rfl⟩ := hA
  have hy : y ≠ secp256k1.negY x y := by
    rw [secp256k1_negY]
    exact fun opposite => double (by linear_combination opposite)
  have e : secp256k1.slope x x y y = sl := by
    rw [WeierstrassCurve.Affine.slope_of_Y_ne rfl hy, secp256k1_negY, sub_neg_eq_add, ← two_mul,
      div_eq_iff double, slope]
    simp [secp256k1]
  rw [WeierstrassCurve.Affine.Point.add_self_of_Y_ne hy]
  exact isAt_some _ (by rw [e, secp256k1_addX]) (by rw [e, secp256k1_addY])

end

end Sys2Proof.Machine
end

section
/-! SUPPORT. The point functions on values that stand for elements of the group (42_point.md R179, R184 to R186). -/

namespace Sys2Proof.Machine

open Sys2Proof.Config

theorem toBig_modP_cast (v : Int) : ((intOf (toBig (modP v)) : Int) : ZMod P) = v := by
  rw [intOf_toBig_modP, modP_cast]

theorem affine_stands_zero {a : Affine} (h : a.inf = true) : a.stands 0 := (affine_stands_iff a 0).2 (.inl ⟨h, rfl⟩)

variable [Fact P.Prime]

/-! ### Affine functions -/

/-- The point of a slope that is a chord's or a tangent's. -/
theorem slopePoint_stands {A : secp256k1.Point} {sl x1 y1 x2 : Int}
    (h : IsAt A ((sl : ZMod P) ^ 2 - x1 - x2) (sl * (x1 - ((sl : ZMod P) ^ 2 - x1 - x2)) - y1)) :
    (slopePoint sl x1 y1 x2).stands A := by
  refine (affine_stands_iff _ A).2 (.inr ⟨rfl, ?_⟩)
  have hx : ((intOf (slopePoint sl x1 y1 x2).x : Int) : ZMod P) = (sl : ZMod P) ^ 2 - x1 - x2 := by
    refine (toBig_modP_cast _).trans ?_
    push_cast
    ring
  have hy : ((intOf (slopePoint sl x1 y1 x2).y : Int) : ZMod P) =
      sl * (x1 - ((sl : ZMod P) ^ 2 - x1 - x2)) - y1 := by
    refine (toBig_modP_cast _).trans ?_
    push_cast [modP_cast]
    ring
  rwa [hx, hy]

theorem y_ne_zero_of_isAt {A : secp256k1.Point} {x : ZMod P} {y : Int} (h : IsAt A x y) : modP y ≠ 0 := by
  rw [Ne, modP_eq_zero_iff]
  exact h.y_ne_zero

/-- No on-curve point has `y = 0`, so the affine doubler answers (R184). -/
theorem adbl_stands {a : Affine} {A : secp256k1.Point} (h : a.stands A) : ∃ c, adbl a = .ok c ∧ c.stands (A + A) := by
  rcases (affine_stands_iff a A).1 h with ⟨ha, rfl⟩ | ⟨ha, hA⟩
  · exact ⟨A0, if_pos ha, affine_stands_zero rfl⟩
  · obtain ⟨sl, result, slope⟩ := adbl_tangent ha (y_ne_zero_of_isAt hA)
    exact ⟨_, result, slopePoint_stands (hA.add_tangent (by exact_mod_cast slope))⟩

theorem aneg_stands {a : Affine} {A : secp256k1.Point} (h : a.stands A) : (aneg a).stands (-A) := by
  rcases (affine_stands_iff a A).1 h with ⟨ha, rfl⟩ | ⟨ha, hA⟩
  · rw [aneg, if_pos ha]
    exact affine_stands_zero rfl
  · rw [aneg, if_neg (by simp [ha])]
    refine (affine_stands_iff _ _).2 (.inr ⟨rfl, ?_⟩)
    simp only [toBig_modP_cast, Int.cast_neg]
    exact hA.neg

/-- Two finite points with the same `x` are equal or opposite. -/
theorem IsAt.y_eq_or_neg {A B : secp256k1.Point} {x y1 y2 : ZMod P} (hA : IsAt A x y1) (hB : IsAt B x y2) :
    y1 = y2 ∨ y2 = -y1 := by
  rcases sq_eq_sq_iff_eq_or_eq_neg.1 (hA.equation.trans hB.equation.symm) with e | e
  · exact .inl e
  · exact .inr (by rw [e, neg_neg])

/-- The affine adder answers the group sum, or faults on opposite points (R185). -/
theorem aadd_stands {a b : Affine} {A B : secp256k1.Point} (hA : a.stands A) (hB : b.stands B) :
    (A ≠ 0 ∧ B ≠ 0 ∧ A + B = 0 ∧ aadd a b = .error .invalidAddition) ∨
      (¬ (A ≠ 0 ∧ B ≠ 0 ∧ A + B = 0) ∧ ∃ c, aadd a b = .ok c ∧ c.stands (A + B)) := by
  rcases (affine_stands_iff a A).1 hA with ⟨ha, rfl⟩ | ⟨ha, atA⟩
  · refine .inr ⟨fun h => h.1 rfl, ?_⟩
    rw [zero_add]
    cases hb : b.inf
    · exact ⟨b, aadd_identity_left ha hb, hB⟩
    · obtain ⟨-, rfl⟩ | ⟨hb', -⟩ := (affine_stands_iff b B).1 hB
      · exact ⟨A0, aadd_of_identities ha hb, affine_stands_zero rfl⟩
      · exact absurd (hb.symm.trans hb') (by decide)
  · rcases (affine_stands_iff b B).1 hB with ⟨hb, rfl⟩ | ⟨hb, atB⟩
    · refine .inr ⟨fun h => h.2.1 rfl, a, aadd_identity_right ha hb, ?_⟩
      rwa [add_zero]
    · by_cases hx : modP (intOf a.x) = modP (intOf b.x)
      · have x_eq := (modP_eq_modP_iff _ _).1 hx
        by_cases hy : modP (intOf a.y) = modP (intOf b.y)
        · obtain rfl : B = A := atB.eq (by rwa [x_eq, (modP_eq_modP_iff _ _).1 hy] at atA)
          rw [aadd_of_equal ha hb hx hy]
          exact .inr ⟨fun h => atA.add_self_ne_zero h.2.2, adbl_stands hA⟩
        · have fault := aadd_of_y_ne ha hb hx hy
          rw [x_eq] at atA
          rw [modP_eq_modP_iff] at hy
          have opposite := (atA.y_eq_or_neg atB).resolve_left hy
          rw [opposite] at atB
          exact .inl ⟨atA.ne_zero, atB.ne_zero, add_at_opposite atA atB, fault⟩
      · obtain ⟨sl, result, slope⟩ := aadd_chord ha hb hx
        rw [modP_eq_modP_iff] at hx
        have sum := atA.add_chord atB hx slope
        exact .inr ⟨fun h => sum.ne_zero h.2.2, _, result, slopePoint_stands sum⟩

/-! ### Jacobian functions -/

/-- A Jacobian value stands for the point `(X/Z², Y/Z³)` (R177). -/
theorem jacobian_stands_iff (p : Jacobian) (A : secp256k1.Point) : p.stands A ↔
    (p.isIdentity = true ∧ A = 0) ∨ (p.isIdentity = false ∧
      IsAt A (intOf p.X / (intOf p.Z : ZMod P) ^ 2) (intOf p.Y / (intOf p.Z : ZMod P) ^ 3)) := by
  cases h : p.isIdentity
  · obtain ⟨x, y, result, hx, hy⟩ := jtoa_of_finite h
    simp [Jacobian.stands, result, affine_stands_iff, toBig_modP_cast, hx, hy]
  · simp [Jacobian.stands, jtoa_of_identity h, affine_stands_iff, A0]

theorem J0_stands : J0.stands 0 := (jacobian_stands_iff J0 0).2 (.inl ⟨J0_isIdentity, rfl⟩)

theorem finite_stands {X Y Z : Int} {A : secp256k1.Point} (hZ : (Z : ZMod P) ≠ 0)
    (h : IsAt A (X / (Z : ZMod P) ^ 2) (Y / (Z : ZMod P) ^ 3)) :
    Jacobian.stands ⟨toBig (modP X), toBig (modP Y), toBig (modP Z)⟩ A := by
  refine (jacobian_stands_iff _ A).2 (.inr ⟨?_, ?_⟩)
  · rwa [isIdentity_false_iff, Ne, modP_eq_zero_iff, toBig_modP_cast]
  · simpa only [toBig_modP_cast] using h

theorem jneg_stands {p : Jacobian} {A : secp256k1.Point} (h : p.stands A) : (jneg p).stands (-A) := by
  rcases (jacobian_stands_iff p A).1 h with ⟨hp, rfl⟩ | ⟨hp, hA⟩
  · rw [jneg, if_pos hp]
    exact J0_stands
  · rw [jneg, if_neg (by simp [hp])]
    refine finite_stands (Z_ne_zero hp) ?_
    rw [Int.cast_neg, neg_div]
    exact hA.neg

theorem jfroma_stands {a : Affine} {A : secp256k1.Point} (h : a.stands A) : (jfroma a).stands A := by
  refine (jacobian_stands_iff _ A).2 ?_
  rw [jfroma_isIdentity]
  rcases (affine_stands_iff a A).1 h with zero | ⟨ha, hA⟩
  · exact .inl zero
  · refine .inr ⟨ha, ?_⟩
    have one : ((intOf 1 : Int) : ZMod P) = 1 := by simp [intOf]
    rw [jfroma, if_neg (by simp [ha])]
    simpa only [one, one_pow, div_one] using hA

theorem jdbl_stands {p : Jacobian} {A : secp256k1.Point} (h : p.stands A) : (jdbl p).stands (A + A) := by
  rcases (jacobian_stands_iff p A).1 h with ⟨hp, rfl⟩ | ⟨hp, hA⟩
  · rw [jdbl, if_pos hp]
    exact J0_stands
  · have hZ := Z_ne_zero hp
    have hY : (intOf p.Y : ZMod P) ≠ 0 := fun h0 => hA.y_ne_zero (by rw [h0, zero_div])
    have two := two_ne_zero_P
    rw [jdbl_of_finite hp (mt (modP_eq_zero_iff _).1 hY)]
    have slope : 3 * (intOf p.X : ZMod P) ^ 2 / (2 * intOf p.Y * intOf p.Z) *
        (2 * (intOf p.Y / (intOf p.Z : ZMod P) ^ 3)) = 3 * (intOf p.X / (intOf p.Z : ZMod P) ^ 2) ^ 2 := by
      field_simp
    refine finite_stands (by push_cast; simp [two, hY, hZ]) ?_
    convert hA.add_tangent slope using 1
    · push_cast
      field_simp
      ring
    · push_cast [doubleX, modP_cast]
      field_simp
      ring

theorem x_sub_x {p q : Jacobian} (hp : p.isIdentity = false) (hq : q.isIdentity = false) :
    (intOf q.X / (intOf q.Z : ZMod P) ^ 2) - (intOf p.X / (intOf p.Z : ZMod P) ^ 2) =
      hTerm p q / ((intOf p.Z : ZMod P) ^ 2 * (intOf q.Z : ZMod P) ^ 2) := by
  have Z1 := Z_ne_zero hp
  have Z2 := Z_ne_zero hq
  push_cast [hTerm]
  field_simp

theorem y_sub_y {p q : Jacobian} (hp : p.isIdentity = false) (hq : q.isIdentity = false) :
    (intOf q.Y / (intOf q.Z : ZMod P) ^ 3) - (intOf p.Y / (intOf p.Z : ZMod P) ^ 3) =
      rTerm p q / ((intOf p.Z : ZMod P) ^ 3 * (intOf q.Z : ZMod P) ^ 3) := by
  have Z1 := Z_ne_zero hp
  have Z2 := Z_ne_zero hq
  push_cast [rTerm]
  field_simp

/-- The sum of two finite values with `H ≠ 0` is the chord's point (R173). -/
theorem sum_stands {p q : Jacobian} {A B : secp256k1.Point} (hp : p.isIdentity = false) (hq : q.isIdentity = false)
    (hH : (hTerm p q : ZMod P) ≠ 0)
    (hA : IsAt A (intOf p.X / (intOf p.Z : ZMod P) ^ 2) (intOf p.Y / (intOf p.Z : ZMod P) ^ 3))
    (hB : IsAt B (intOf q.X / (intOf q.Z : ZMod P) ^ 2) (intOf q.Y / (intOf q.Z : ZMod P) ^ 3)) :
    Jacobian.stands ⟨toBig (sumX p q), toBig (sumY p q), toBig (sumZ p q)⟩ (A + B) := by
  have Z1 := Z_ne_zero hp
  have Z2 := Z_ne_zero hq
  have x_ne : (intOf p.X / (intOf p.Z : ZMod P) ^ 2) ≠ intOf q.X / (intOf q.Z : ZMod P) ^ 2 := by
    refine (sub_ne_zero.1 ?_).symm
    rw [x_sub_x hp hq]
    simp [Z1, Z2, hH]
  have slope : (rTerm p q : ZMod P) / (intOf p.Z * intOf q.Z * hTerm p q) *
      (intOf q.X / (intOf q.Z : ZMod P) ^ 2 - intOf p.X / (intOf p.Z : ZMod P) ^ 2) =
      intOf q.Y / (intOf q.Z : ZMod P) ^ 3 - intOf p.Y / (intOf p.Z : ZMod P) ^ 3 := by
    rw [x_sub_x hp hq, y_sub_y hp hq]
    field_simp
  have hx2 : (intOf q.X / (intOf q.Z : ZMod P) ^ 2) = intOf p.X / (intOf p.Z : ZMod P) ^ 2 +
      hTerm p q / ((intOf p.Z : ZMod P) ^ 2 * (intOf q.Z : ZMod P) ^ 2) := by
    rw [← x_sub_x hp hq, add_sub_cancel]
  have sum := hA.add_chord hB x_ne slope
  rw [hx2] at sum
  refine finite_stands (by push_cast; simp [Z1, Z2, hH]) ?_
  convert sum using 1
  · push_cast
    field_simp
    ring
  · push_cast [sumX, modP_cast]
    field_simp
    ring

/-- `jadd` is the group's addition, whatever representatives it is given (R173, R179). -/
theorem jadd_stands {p q : Jacobian} {A B : secp256k1.Point} (hA : p.stands A) (hB : q.stands B) :
    (jadd p q).stands (A + B) := by
  rcases (jacobian_stands_iff p A).1 hA with ⟨hp, rfl⟩ | ⟨hp, atA⟩ <;>
    rcases (jacobian_stands_iff q B).1 hB with ⟨hq, rfl⟩ | ⟨hq, atB⟩
  · rw [jadd_of_identities hp hq, zero_add]
    exact J0_stands
  · rwa [jadd_identity_left hp hq, zero_add]
  · rwa [jadd_identity_right hp hq, add_zero]
  · have dx := x_sub_x hp hq
    have dy := y_sub_y hp hq
    rw [jadd_of_finite hp hq]
    split_ifs with hH hr <;> rw [modP_eq_zero_iff] at hH
    · rw [hH, zero_div, sub_eq_zero] at dx
      rw [(modP_eq_zero_iff _).1 hr, zero_div, sub_eq_zero] at dy
      obtain rfl : B = A := atB.eq (by rwa [dx, dy])
      exact jdbl_stands hA
    · rw [hH, zero_div, sub_eq_zero] at dx
      rw [dx] at atB
      have y_ne : (intOf p.Y / (intOf p.Z : ZMod P) ^ 3) ≠ intOf q.Y / (intOf q.Z : ZMod P) ^ 3 := by
        refine (sub_ne_zero.1 ?_).symm
        rw [modP_eq_zero_iff] at hr
        rw [dy]
        simp [hr, Z_ne_zero hp, Z_ne_zero hq]
      rw [(atA.y_eq_or_neg atB).resolve_left y_ne] at atB
      rw [add_at_opposite atA atB]
      exact J0_stands
    · exact sum_stands hp hq hH atA atB

end Sys2Proof.Machine
end

section
/-! The statements about the group law. -/

open Sys2Proof Sys2Proof.Config Sys2Proof.Machine

/-- Settles O49, function by function. -/
theorem jacobianGroupLaw : Obligations.JacobianGroupLaw := fun _ _ _ _ _ hp hq =>
  ⟨jdbl_stands hp, jadd_stands hp hq, jneg_stands hp, jfroma_stands⟩

/-- Settles O50, by the two answers of the affine adder. -/
theorem affineGroupLaw : Obligations.AffineGroupLaw := by
  intro _ a b A B ha hb
  refine ⟨fun ⟨hA, hB, sum⟩ => ?_, fun other => ?_, adbl_stands ha, aneg_stands ha⟩ <;>
    rcases aadd_stands ha hb with ⟨hA', hB', sum', fault⟩ | ⟨other', answer⟩
  · exact fault
  · exact absurd ⟨hA, hB, sum⟩ other'
  · exact absurd ⟨hA', hB', sum'⟩ other
  · exact answer

end

section
/-! SUPPORT. The plain multiplier in the group (43_scalar.md R238), the order of the group (42_point.md R170), and the
endomorphism (R178). -/

namespace Sys2Proof.Machine

open Sys2Proof.Config

/-! ### Register values and elements -/

/-- A register value stands for one element. -/
theorem stands_unique {a : Affine} {A B : secp256k1.Point} (hA : a.stands A) (hB : a.stands B) : A = B := by
  rcases (affine_stands_iff a A).1 hA with ⟨ha, rfl⟩ | ⟨ha, atA⟩ <;>
    rcases (affine_stands_iff a B).1 hB with ⟨ha', rfl⟩ | ⟨ha', atB⟩
  · rfl
  · exact absurd (ha.symm.trans ha') (by decide)
  · exact absurd (ha.symm.trans ha') (by decide)
  · exact atA.eq atB

/-- A canonical coordinate is determined by its residue. -/
theorem eq_of_cast_eq {v w : Big} (hv : v.toNat < P) (hw : w.toNat < P) (h : ((intOf v : Int) : ZMod P) = intOf w) :
    v = w := by
  have residues := (modP_natCast_eq_iff v.toNat w.toNat).1 ((modP_eq_modP_iff _ _).2 h)
  rw [Nat.mod_eq_of_lt hv, Nat.mod_eq_of_lt hw] at residues
  exact BitVec.eq_of_toNat_eq residues

/-- A canonical register value is determined by the element it stands for (10_state.md R38). -/
theorem canonical_unique {a b : Affine} {A : secp256k1.Point} (ha : a.Canonical) (hb : b.Canonical) (hA : a.stands A)
    (hB : b.stands A) : a = b := by
  rcases (affine_stands_iff a A).1 hA with ⟨inf, zero⟩ | ⟨inf, atA⟩ <;>
    rcases (affine_stands_iff b A).1 hB with ⟨inf', zero'⟩ | ⟨inf', atB⟩
  · rw [ha.identity inf, hb.identity inf']
  · exact absurd zero atB.ne_zero
  · exact absurd zero' atA.ne_zero
  · obtain ⟨hx, hy⟩ := atA.coordinates atB
    have x_eq := eq_of_cast_eq ha.x_lt hb.x_lt hx
    have y_eq := eq_of_cast_eq ha.y_lt hb.y_lt hy
    cases a
    cases b
    simp_all

variable [Fact P.Prime]

/-! ### Plain multiplication -/

/-- The loop of `mulu` adds the multiple of the double that its scalar selects. -/
theorem muluLoop_stands {fuel k : Nat} (hk : k ≤ fuel) {acc d : Jacobian} {B D : secp256k1.Point} (hacc : acc.stands B)
    (hd : d.stands D) : (muluLoop fuel acc d k).stands (B + k • D) := by
  induction fuel generalizing acc d B D k with
  | zero =>
    obtain rfl : k = 0 := Nat.le_zero.1 hk
    simpa [muluLoop] using hacc
  | succ fuel ih =>
    rw [muluLoop]
    split_ifs with zero odd
    · simpa [zero] using hacc
    · have halves : B + k • D = (B + D) + (k / 2) • (D + D) := by
        rw [← two_nsmul, ← mul_nsmul, add_assoc, ← succ_nsmul', show 2 * (k / 2) + 1 = k by omega]
      rw [halves]
      exact ih (by omega) (jadd_stands hacc hd) (jdbl_stands hd)
    · have halves : B + k • D = B + (k / 2) • (D + D) := by
        rw [← two_nsmul, ← mul_nsmul, show 2 * (k / 2) = k by omega]
      rw [halves]
      exact ih (by omega) hacc (jdbl_stands hd)

/-- `mulu` is the multiple in the group (R238). -/
theorem mulu_stands {Q : Affine} {A : secp256k1.Point} (k : Nat) (h : Q.stands A) :
    ∃ a, mulu Q k = .ok a ∧ a.stands (k • A) := by
  have loop := muluLoop_stands (le_refl k) J0_stands (jfroma_stands h)
  rwa [zero_add] at loop

/-! ### The order of the group -/

/-- An injective code of a point: its `x` and the parity of its `y`, as in its compressed encoding (R197). -/
def pointCode : secp256k1.Point → Option (ZMod P × Bool)
  | .zero => none
  | .some x y _ => some (x, y.val % 2 == 1)

theorem pointCode_injective : Function.Injective pointCode := by
  have odd : P % 2 = 1 := by decide +kernel
  rintro (_ | ⟨x1, y1, h1⟩) (_ | ⟨x2, y2, h2⟩) same
  · rfl
  · cases same
  · cases same
  · simp only [pointCode, Option.some.injEq, Prod.mk.injEq] at same
    obtain ⟨rfl, parity⟩ := same
    have at1 : IsAt (.some x1 y1 h1) x1 y1 := ⟨h1, rfl⟩
    have at2 : IsAt (.some x1 y2 h2) x1 y2 := ⟨h2, rfl⟩
    rcases at1.y_eq_or_neg at2 with rfl | rfl
    · rfl
    · have range := ZMod.val_lt y1
      rw [ZMod.neg_val, if_neg at1.y_ne_zero, Bool.eq_iff_iff] at parity
      simp only [beq_iff_eq] at parity
      omega

theorem finite_points : Finite secp256k1.Point := Finite.of_injective _ pointCode_injective

theorem card_points_le : Nat.card secp256k1.Point ≤ 2 * P + 1 := by
  have : Finite (Option (ZMod P × Bool)) := inferInstance
  refine (Nat.card_le_card_of_injective _ pointCode_injective).trans_eq ?_
  rw [Finite.card_option, Nat.card_prod, Nat.card_zmod, Nat.card_eq_fintype_card, Fintype.card_bool, mul_comm]

/-- The group has no element of order 2, so its order is odd. -/
theorem not_two_dvd_card_points : ¬ 2 ∣ Nat.card secp256k1.Point := by
  have := finite_points
  have : Fact (Nat.Prime 2) := ⟨Nat.prime_two⟩
  intro even
  obtain ⟨A, order⟩ := exists_prime_addOrderOf_dvd_card' 2 even
  have double : A + A = 0 := by
    rw [← two_nsmul, ← order]
    exact addOrderOf_nsmul_eq_zero A
  rcases eq_zero_or_isAt A with rfl | ⟨x, y, hA⟩
  · simp at order
  · exact hA.add_self_ne_zero double

/-- An on-curve register value stands for a finite element. -/
theorem stands_of_oncurve {Q : Affine} (h : oncurve Q = true) : ∃ A : secp256k1.Point, A ≠ 0 ∧ Q.stands A := by
  obtain ⟨inf, -, -, equation⟩ := (oncurve_iff Q).1 h
  rw [curve_equation_iff] at equation
  have atQ : IsAt (.some _ _ (nonsingular_of_equation equation)) (intOf Q.x) (intOf Q.y) :=
    isAt_some _ (Int.cast_natCast _).symm (Int.cast_natCast _).symm
  exact ⟨_, atQ.ne_zero, (affine_stands_iff Q _).2 (.inr ⟨inf, atQ⟩)⟩

/-- A scalar whose multiple the plain multiplier finds to be the identity annihilates the point. -/
theorem nsmul_eq_zero_of_mulu {Q : Affine} {A : secp256k1.Point} {k : Nat} (computed : mulu Q k = .ok A0)
    (h : Q.stands A) : k • A = 0 := by
  obtain ⟨a, result, multiple⟩ := mulu_stands k h
  obtain rfl : A0 = a := Except.ok.inj (computed.symm.trans result)
  exact stands_unique multiple (affine_stands_zero rfl)

/-- The base point has order `n`: the block's own plain multiplier says so. -/
theorem addOrderOf_basePoint {G : secp256k1.Point} (hG : G ≠ 0) (base : basePoint.stands G) : addOrderOf G = n := by
  have : Fact n.Prime := ⟨Laws.prime_n⟩
  have computed : mulu basePoint (n : Nat) = .ok A0 := by decide +kernel
  exact addOrderOf_eq_prime (nsmul_eq_zero_of_mulu computed base) hG

/-- The group has order `n` (R170): `n` divides it, it is odd, and each of the `P` values of `x` has at most two
points. -/
theorem card_points {G : secp256k1.Point} (hG : G ≠ 0) (base : basePoint.stands G) : Nat.card secp256k1.Point = n := by
  have := finite_points
  have bound := card_points_le
  have odd := not_two_dvd_card_points
  have positive : 0 < Nat.card secp256k1.Point := Nat.card_pos
  have size : 2 * P + 1 < n * 3 := by decide +kernel
  have divides := addOrderOf_dvd_natCard G
  rw [addOrderOf_basePoint hG base] at divides
  obtain ⟨c, card⟩ := divides
  rw [card] at bound odd positive ⊢
  have small : c < 3 := Nat.lt_of_mul_lt_mul_left (bound.trans_lt size)
  have even : c ≠ 2 := by
    rintro rfl
    exact odd (Nat.dvd_mul_left 2 n)
  have nonzero : c ≠ 0 := by
    rintro rfl
    exact positive.ne rfl
  obtain rfl : c = 1 := by omega
  exact mul_one n

/-- Every element is a multiple of the base point. -/
theorem exists_multiple {G : secp256k1.Point} (hG : G ≠ 0) (base : basePoint.stands G) (A : secp256k1.Point) :
    ∃ k : Nat, k • G = A := by
  have : Fact n.Prime := ⟨Laws.prime_n⟩
  exact AddSubmonoid.mem_multiples_iff .. |>.1 (mem_multiples_of_prime_card (card_points hG base) hG)

end Sys2Proof.Machine
end

section
/-! SUPPORT. The endomorphism of the group (42_point.md R178): it is additive, and on the base point it is
multiplication by `λ`, hence everywhere. -/

namespace Sys2Proof.Machine

open Sys2Proof.Config

theorem beta_cube : (beta : ZMod P) ^ 3 = 1 := by
  have cube : beta ^ 3 % P = 1 % P := by decide +kernel
  rw [← ZMod.natCast_eq_natCast_iff'] at cube
  exact_mod_cast cube

variable [Fact P.Prime]

/-- `(x, y) ↦ (β·x, y)` (R178). -/
def endo : secp256k1.Point → secp256k1.Point
  | .zero => .zero
  | .some x y h => .some (beta * x) y (nonsingular_of_equation (by
      rw [mul_pow, beta_cube, one_mul]
      exact (secp256k1_equation_iff x y).1 h.1))

theorem endo_zero : endo 0 = 0 := rfl

theorem IsAt.image {A : secp256k1.Point} {x y : ZMod P} (h : IsAt A x y) : IsAt (endo A) (beta * x) y := by
  obtain ⟨_, rfl⟩ := h
  exact ⟨_, rfl⟩

/-- The image of a chord's or tangent's point is the point of slope `β²·sl` through the images. -/
theorem IsAt.endo_slopePoint {S : secp256k1.Point} {sl x1 y1 x2 : ZMod P}
    (h : IsAt S (sl ^ 2 - x1 - x2) (sl * (x1 - (sl ^ 2 - x1 - x2)) - y1)) :
    IsAt (endo S) ((beta ^ 2 * sl) ^ 2 - beta * x1 - beta * x2)
      (beta ^ 2 * sl * (beta * x1 - ((beta ^ 2 * sl) ^ 2 - beta * x1 - beta * x2)) - y1) := by
  have cube := beta_cube
  have x_eq : (beta ^ 2 * sl) ^ 2 - beta * x1 - beta * x2 = beta * (sl ^ 2 - x1 - x2) := by
    linear_combination beta * sl ^ 2 * cube
  have y_eq : beta ^ 2 * sl * (beta * x1 - beta * (sl ^ 2 - x1 - x2)) - y1 =
      sl * (x1 - (sl ^ 2 - x1 - x2)) - y1 := by
    linear_combination sl * (x1 - (sl ^ 2 - x1 - x2)) * cube
  rw [x_eq, y_eq]
  exact h.image

theorem endo_add_chord {A B : secp256k1.Point} {x1 y1 x2 y2 : ZMod P} (hA : IsAt A x1 y1) (hB : IsAt B x2 y2)
    (hx : x1 ≠ x2) : endo (A + B) = endo A + endo B := by
  have cube := beta_cube
  have slope : (y2 - y1) / (x2 - x1) * (x2 - x1) = y2 - y1 := div_mul_cancel₀ _ (sub_ne_zero.2 hx.symm)
  generalize (y2 - y1) / (x2 - x1) = sl at slope
  have image_x : (beta : ZMod P) * x1 ≠ beta * x2 := fun e =>
    hx (by linear_combination beta ^ 2 * e - (x1 - x2) * cube)
  have image_slope : beta ^ 2 * sl * (beta * x2 - beta * x1) = y2 - y1 := by
    linear_combination slope + sl * (x2 - x1) * cube
  exact (hA.add_chord hB hx slope).endo_slopePoint.eq (hA.image.add_chord hB.image image_x image_slope)

theorem endo_double {A : secp256k1.Point} {x y : ZMod P} (hA : IsAt A x y) : endo (A + A) = endo A + endo A := by
  have cube := beta_cube
  have slope : 3 * x ^ 2 / (2 * y) * (2 * y) = 3 * x ^ 2 :=
    div_mul_cancel₀ _ (mul_ne_zero two_ne_zero_P hA.y_ne_zero)
  generalize 3 * x ^ 2 / (2 * y) = sl at slope
  have image_slope : beta ^ 2 * sl * (2 * y) = 3 * (beta * x) ^ 2 := by
    linear_combination beta ^ 2 * slope
  exact (hA.add_tangent slope).endo_slopePoint.eq (hA.image.add_tangent image_slope)

/-- The endomorphism is additive. -/
theorem endo_add (A B : secp256k1.Point) : endo (A + B) = endo A + endo B := by
  rcases eq_zero_or_isAt A with rfl | ⟨x1, y1, hA⟩
  · rw [zero_add, endo_zero, zero_add]
  rcases eq_zero_or_isAt B with rfl | ⟨x2, y2, hB⟩
  · rw [add_zero, endo_zero, add_zero]
  by_cases hx : x1 = x2
  · subst hx
    rcases hA.y_eq_or_neg hB with rfl | rfl
    · rw [hB.eq hA]
      exact endo_double hA
    · rw [add_at_opposite hA hB, add_at_opposite hA.image hB.image, endo_zero]
  · exact endo_add_chord hA hB hx

theorem endo_nsmul (k : Nat) (A : secp256k1.Point) : endo (k • A) = k • endo A := by
  induction k with
  | zero => rw [zero_nsmul, zero_nsmul, endo_zero]
  | succ k ih => rw [succ_nsmul, succ_nsmul, endo_add, ih]

/-- `jendo` is the endomorphism of the group (R178). -/
theorem jendo_stands {p : Jacobian} {A : secp256k1.Point} (h : p.stands A) : (jendo p).stands (endo A) := by
  rcases (jacobian_stands_iff p A).1 h with ⟨hp, rfl⟩ | ⟨hp, hA⟩
  · rw [jendo, if_pos hp]
    exact J0_stands
  · rw [jendo, if_neg (by simp [hp])]
    refine finite_stands (Z_ne_zero hp) ?_
    rw [Int.cast_mul, mul_div_assoc, Int.cast_natCast]
    exact hA.image

/-- Where the plain multiplier finds the image, the endomorphism is the multiplication. -/
theorem endo_eq_nsmul_of_mulu {Q : Affine} {A : secp256k1.Point} {k : Nat}
    (computed : mulu Q k = jtoa (jendo (jfroma Q))) (h : Q.stands A) : endo A = k • A := by
  obtain ⟨a, result, multiple⟩ := mulu_stands k h
  obtain ⟨b, result', image⟩ := jendo_stands (jfroma_stands h)
  obtain rfl : a = b := Except.ok.inj (result.symm.trans (computed.trans result'))
  exact stands_unique image multiple

/-- Conversely, as register contents: results are canonical. -/
theorem mulu_eq_of_endo_eq_nsmul {Q : Affine} {A : secp256k1.Point} {k : Nat} (h : Q.stands A) (he : endo A = k • A) :
    ∃ a, jtoa (jendo (jfroma Q)) = .ok a ∧ mulu Q k = .ok a := by
  obtain ⟨a, image, ha⟩ := jendo_stands (jfroma_stands h)
  obtain ⟨b, multiple, hb⟩ := mulu_stands k h
  rw [he] at ha
  obtain rfl : a = b := canonical_unique (jtoa_canonical image) (mulu_canonical multiple) ha hb
  exact ⟨a, image, multiple⟩

/-- An endomorphism that is a multiplication on an element is that multiplication on its multiples. -/
theorem endo_nsmul_of_eq {G : secp256k1.Point} {k : Nat} (h : endo G = k • G) (j : Nat) :
    endo (j • G) = k • (j • G) := by
  rw [endo_nsmul, h, smul_comm]

/-- The endomorphism is multiplication by `λ`: on the base point the block computes both, and every element is a
multiple of the base point (R178). -/
theorem endo_eq_lambda_nsmul (A : secp256k1.Point) : endo A = lambda • A := by
  have computed : mulu basePoint (lambda : Nat) = jtoa (jendo (jfroma basePoint)) := by decide +kernel
  obtain ⟨G, hG, base⟩ := stands_of_oncurve (Q := basePoint) (by decide +kernel)
  obtain ⟨j, rfl⟩ := exists_multiple hG base A
  exact endo_nsmul_of_eq (endo_eq_nsmul_of_mulu computed base) j

end Sys2Proof.Machine
end

section
/-! The statement about the endomorphism. -/

open Sys2Proof Sys2Proof.Config Sys2Proof.Machine

/-- Settles O59: both sides stand for the same element, and results are canonical. -/
theorem theEndomorphismIsMultiplicationByLambda : Obligations.TheEndomorphismIsMultiplicationByLambda := by
  have : Fact P.Prime := ⟨Laws.prime_P⟩
  intro Q hQ
  obtain ⟨A, -, hA⟩ := stands_of_oncurve hQ
  exact mulu_eq_of_endo_eq_nsmul hA (endo_eq_lambda_nsmul A)

end

section
/-! SUPPORT. The checks of the SMU commands over the raw register contents (43_scalar.md R221 to R223), and the table that
a lookup leaves. -/

namespace Sys2Proof.Machine

open Sys2Proof.Config

theorem validWidth_iff {w : Byte} : validWidth w = true ↔ w ∈ [1, 2, 4, 8] := by simp [validWidth, or_assoc]

theorem validScalar_fr_iff {s : State} {r : FrNum} :
    validScalar (s.fr r) = true ↔ 0 < s.FR[r].toNat ∧ s.FR[r].toNat < n := by
  simp [validScalar, State.fr, intOf]

theorem toBig_natCast (v : Nat) : toBig v = BitVec.ofNat 256 v := BitVec.ofInt_natCast ..

theorem mulw_of_table {Q : Affine} {T : List Affine} {k : Int} {W : Nat} {glv : Bool} (h : table Q W glv = .ok T) :
    mulw Q k W glv = mulwWith T k W glv := by
  rw [mulw, h]

/-- A lookup in a cache that holds the table of its tag leaves the table of the tag looked up (10_state.md R34). -/
theorem fill_of_ofTag {t : Table} {Q : Affine} {w : Byte} {glv : Bool} (ht : t.OfTag) (hw : validWidth w = true)
    (hQ : oncurve Q = true) : ∃ T, table Q w.toNat glv = .ok T ∧ t.fill Q w glv = .ok ⟨true, Q.x, Q.y, w, glv, T⟩ := by
  rcases fill_cases t Q w glv with ⟨hit, lookup⟩ | ⟨-, miss⟩
  · have contents := (fill_ofTag ht hw hQ lookup).2
    obtain ⟨valid, hx, hy, width, endo⟩ := (hit_iff t Q w glv).1 hit
    refine ⟨t.T, contents, ?_⟩
    rw [lookup, ← valid, ← hx, ← hy, ← width, ← endo]
  · exact miss

end Sys2Proof.Machine
end

section
/-! The statements about the SMU commands. -/

open Sys2Proof Sys2Proof.Config Sys2Proof.Machine

/-- Settles O51, check by check. -/
theorem splitWritesBothHalves : Obligations.SplitWritesBothHalves := by
  intro rd ra s
  have word := packWord_fr_toNat .sSplit rd ra 0 false 0
  refine ⟨by simpa [encode, Instr.opcode, Opcode.code] using word, fun outside => ?_,
    fun inside => ⟨fun range => ?_, fun range => ?_⟩⟩
  · rw [exec_eq, effect, splitInto, dif_neg (by omega)]
    rfl
  · rw [exec_eq, effect, splitInto, dif_pos inside, if_neg (mt validScalar_fr_iff.1 range)]
    rfl
  · rintro _ c1 c2 k1 k2 rfl quotient1 quotient2 part1 part2
    rw [Int.natCast_div] at quotient1 quotient2
    have first : k1 = splitK1 (s.fr ra) := by rw [part1, quotient1, quotient2]; rfl
    have second : k2 = splitK2 (s.fr ra) := by rw [part2, quotient1, quotient2]; rfl
    rw [← toBig_natCast, ← toBig_natCast, first, second, exec_eq, effect, splitInto, dif_pos inside,
      if_pos (validScalar_fr_iff.2 range)]
    rfl

/-- Settles O53: a lookup keeps the cache or builds a table of the size of its windows. -/
theorem precomputeBuildsOrKeepsTheTable : Obligations.PrecomputeBuildsOrKeepsTheTable := by
  intro ra m w s
  have word := packWord_pt_toNat .sPrecomp 0 ra 0 m w
  refine ⟨by simpa [encode, Instr.opcode, Opcode.code] using word, fun width => ?_,
    fun width (off : oncurve (s.ap ra) = false) => ?_, fun width (on : oncurve (s.ap ra) = true) => ?_⟩
  · rw [exec_eq, effect, precompute, if_neg (mt validWidth_iff.1 width)]
    rfl
  · rw [exec_eq, effect, precompute, if_pos (validWidth_iff.2 width), if_neg (by simp [off])]
    rfl
  · rw [exec_eq, effect, precompute, if_pos (validWidth_iff.2 width), if_pos on]
    have hit_iff := hit_iff s.TBL (s.ap ra) w m
    rcases fill_cases s.TBL (s.ap ra) w m with ⟨hit, lookup⟩ | ⟨miss, T, contents, lookup⟩ <;> rw [lookup]
    · exact ⟨fun _ => rfl, fun other => absurd (hit_iff.1 hit) other⟩
    · refine ⟨fun same => absurd (hit_iff.2 same) (by simp [miss]), fun _ => ⟨T, contents, ?_, rfl⟩⟩
      obtain ⟨T', contents', length⟩ := table_total (s.ap ra) w.toNat m
      obtain rfl : T = T' := Except.ok.inj (contents.symm.trans contents')
      exact length

/-- Settles O54: the lookup leaves the table of the multiplicand, which is the one `mulw` builds. -/
theorem windowedMultiply : Obligations.WindowedMultiply := by
  intro rd ra rb m w s
  refine ⟨packWord_fr_toNat .sMul (rd.castLE (by decide)) (ra.castLE (by decide)) rb m w, fun width => ?_,
    fun width range => ?_, fun width positive below (off : oncurve (s.ap ra) = false) => ?_,
    fun width positive below (on : oncurve (s.ap ra) = true) inv => ?_⟩
  · rw [exec_eq, effect, multiplyInto, if_neg (mt validWidth_iff.1 width)]
    rfl
  · rw [exec_eq, effect, multiplyInto, if_pos (validWidth_iff.2 width), if_neg (mt validScalar_fr_iff.1 range)]
    rfl
  · rw [exec_eq, effect, multiplyInto, if_pos (validWidth_iff.2 width),
      if_pos (validScalar_fr_iff.2 ⟨positive, below⟩), if_neg (by simp [off])]
    rfl
  · replace width := validWidth_iff.2 width
    have scalar := validScalar_fr_iff.2 ⟨positive, below⟩
    obtain ⟨T, contents, lookup⟩ := fill_of_ofTag (glv := m) inv.tableOfTag width on
    obtain ⟨a, product⟩ := mulwWith_total T m scalar width
    refine ⟨a, T, s.TBL.hit (s.ap ra) w m, ?_, contents, hit_iff .., ?_⟩
    · exact (mulw_of_table contents).trans product
    · have answer : cachedMul s.TBL (s.ap ra) (s.fr rb) m w =
          .ok (a, ⟨true, (s.ap ra).x, (s.ap ra).y, w, m, T⟩) := by
        simp [cachedMul, lookup, product]
      rw [exec_eq, effect, multiplyInto, if_pos width, if_pos scalar, if_pos on, answer]
      rfl

/-- Settles O55, check by check: `mulu` never faults. -/
theorem plainMultiply : Obligations.PlainMultiply := by
  intro rd ra rb s
  refine ⟨packWord_fr_toNat .sMulu (rd.castLE (by decide)) (ra.castLE (by decide)) rb false 0, fun range => ?_,
    fun positive below (off : oncurve (s.ap ra) = false) => ?_,
    fun positive below (on : oncurve (s.ap ra) = true) => ?_⟩
  · rw [exec_eq, effect, plainMultiplyInto, if_neg (mt validScalar_fr_iff.1 range)]
    rfl
  · rw [exec_eq, effect, plainMultiplyInto, if_pos (validScalar_fr_iff.2 ⟨positive, below⟩), if_neg (by simp [off])]
    rfl
  · obtain ⟨a, product⟩ := mulu_total (s.ap ra) (s.fr rb)
    refine ⟨a, product, ?_⟩
    rw [exec_eq, effect, plainMultiplyInto, if_pos (validScalar_fr_iff.2 ⟨positive, below⟩), if_pos on, product]
    rfl

end

section
/-! SUPPORT. The split as a decomposition (43_scalar.md R224, R225): the quotients are nearest integers, so the parts are
short, and the lattice vectors vanish modulo `n`, so they are congruent to the scalar. -/

namespace Sys2Proof.Machine

open Sys2Proof.Config

/-- A combination of two remainders of at most `N` with non-negative weights. -/
theorem abs_combination_le {d1 d2 N x y : Int} (h1 : |d1| ≤ N) (h2 : |d2| ≤ N) (hx : 0 ≤ x) (hy : 0 ≤ y) :
    |d1 * x + d2 * y| ≤ (x + y) * N :=
  calc |d1 * x + d2 * y| ≤ |d1| * x + |d2| * y := by
        refine (abs_add_le _ _).trans_eq ?_
        rw [abs_mul, abs_mul, abs_of_nonneg hx, abs_of_nonneg hy]
    _ ≤ N * x + N * y := add_le_add (mul_le_mul_of_nonneg_right h1 hx) (mul_le_mul_of_nonneg_right h2 hy)
    _ = (x + y) * N := by ring

/-- The distance of `splitC1` from its quotient, times `2n`. -/
def splitError1 (k : Int) : Int := 2 * splitC1 k * n - 2 * (b2 * k)

/-- The distance of `splitC2` from its quotient, times `2n`. -/
def splitError2 (k : Int) : Int := 2 * splitC2 k * n - 2 * (negB1 * k)

theorem abs_splitError1_le (k : Int) : |splitError1 k| ≤ n := abs_le.2 (nearest (b2 * k)).symm

theorem abs_splitError2_le (k : Int) : |splitError2 k| ≤ n := abs_le.2 (nearest (negB1 * k)).symm

theorem splitK1_error (k : Int) : 2 * splitK1 k * n = -(splitError1 k * a1 + splitError2 k * a2) := by
  have determinant : (a1 : Int) * b2 + negB1 * a2 = n := by decide +kernel
  rw [splitK1, splitError1, splitError2]
  linear_combination (-2 * k) * determinant

theorem splitK2_error (k : Int) : 2 * splitK2 k * n = splitError1 k * negB1 + splitError2 k * -b2 := by
  rw [splitK2, splitError1, splitError2]
  ring

theorem abs_splitK1_le (k : Int) : |2 * splitK1 k| ≤ a1 + a2 := by
  have hn : (0 : Int) < n := by decide +kernel
  have combination := abs_combination_le (abs_splitError1_le k) (abs_splitError2_le k) a1.cast_nonneg a2.cast_nonneg
  rw [← abs_neg, ← splitK1_error, abs_mul, abs_of_pos hn] at combination
  exact le_of_mul_le_mul_right combination hn

theorem abs_splitK2_le (k : Int) : |2 * splitK2 k| ≤ negB1 + b2 := by
  have hn : (0 : Int) < n := by decide +kernel
  have combination := abs_combination_le (abs_splitError1_le k) ((abs_neg _).trans_le (abs_splitError2_le k))
    negB1.cast_nonneg b2.cast_nonneg
  rw [neg_mul_comm, ← splitK2_error, abs_mul, abs_of_pos hn] at combination
  exact le_of_mul_le_mul_right combination hn

/-- The two lattice vectors are 0 modulo `n`, so the parts recombine to the scalar. -/
theorem split_congruent (k : Int) : splitK1 k + splitK2 k * lambda ≡ k [ZMOD n] := by
  have vector1 : (n : Int) ∣ a1 - negB1 * lambda := by decide +kernel
  have vector2 : (n : Int) ∣ a2 + b2 * lambda := by decide +kernel
  refine (Int.modEq_iff_dvd).2 ?_
  have combination : k - (splitK1 k + splitK2 k * lambda) =
      splitC1 k * (a1 - negB1 * lambda) + splitC2 k * (a2 + b2 * lambda) := by
    rw [splitK1, splitK2]
    ring
  rw [combination]
  exact dvd_add (vector1.mul_left _) (vector2.mul_left _)

/-- A magnitude and a sign bit give the signed value back. -/
theorem signed_natAbs (a : Int) : (if decide (a < 0) = true then -(a.natAbs : Int) else a.natAbs) = a := by
  split
  case isTrue negative => have := of_decide_eq_true negative; omega
  case isFalse nonnegative => have := of_decide_eq_false (Bool.eq_false_iff.2 nonnegative); omega

end Sys2Proof.Machine
end

section
/-! The statement about the split. -/

open Sys2Proof Sys2Proof.Config Sys2Proof.Machine

/-- Settles O52: the parts are within half the sum of their column of the lattice basis. -/
theorem splitIsShortAndCongruent : Obligations.SplitIsShortAndCongruent := by
  rintro k positive below _ _ _ _ ⟨⟩
  have short1 := abs_le.1 (abs_splitK1_le k)
  have short2 := abs_le.1 (abs_splitK2_le k)
  have congruent : (splitK1 k + splitK2 k * lambda) % n = k :=
    Eq.trans (split_congruent k) (Int.emod_eq_of_lt positive.le below)
  have bound1 : (a1 : Int) + a2 < 2 * 0xA2A8918CA85BAFE22016D0B917E4DD77 := by decide +kernel
  have bound2 : (negB1 : Int) + b2 < 2 * 0x8A65287BD47179FB2BE08846CEA267ED := by decide +kernel
  refine ⟨by omega, by omega, ?_, fun zero => ?_, fun zero => ?_, fun ⟨zero1, zero2⟩ => ?_⟩
  · rwa [signed_natAbs, signed_natAbs]
  · simp [Int.natAbs_eq_zero.1 zero]
  · simp [Int.natAbs_eq_zero.1 zero]
  · rw [Int.natAbs_eq_zero.1 zero1, Int.natAbs_eq_zero.1 zero2, zero_mul, add_zero, Int.zero_emod] at congruent
    exact positive.ne congruent

end

section
/-! SUPPORT. The signed digits of a scalar (43_scalar.md R235): they recode it, and `wnaf` accumulates what they
select. -/

namespace Sys2Proof.Machine

open Sys2Proof.Config

/-- Each digit of a legal width is in the range of a window (R235). -/
theorem wnafDigits_range {W : Nat} (hW : 1 ≤ W) (left v : Nat) :
    ∀ d ∈ wnafDigits W left v, -(windowSize W : Int) < d ∧ d ≤ windowSize W := by
  induction left generalizing v with
  | zero => simp [wnafDigits]
  | succ left ih => exact List.forall_mem_cons.2 ⟨(digit_carry W v hW).2, ih _⟩

theorem length_wnafDigits (W left v : Nat) : (wnafDigits W left v).length = left := by
  induction left generalizing v with
  | zero => rfl
  | succ left ih => rw [wnafDigits, List.length_cons, ih]

/-- A recoding that leaves nothing over is the accumulation of its digits, and they sum to the scalar (R235). -/
theorem wnafFrom_ok {T : List Affine} {W left w v : Nat} {acc p : Jacobian} (hW : 1 ≤ W)
    (h : wnafFrom T W left w v acc = .ok p) :
    p = accumulate T W w (wnafDigits W left v) acc ∧ digitSum W (wnafDigits W left v) = v := by
  induction left generalizing w v acc with
  | zero =>
    by_cases rest : v = 0
    · rw [wnafFrom, if_neg (not_not.2 rest)] at h
      exact ⟨(Except.ok.inj h).symm, by rw [rest]; rfl⟩
    · rw [wnafFrom, if_pos rest] at h
      cases h
  | succ left ih =>
    obtain ⟨result, sum⟩ := ih h
    refine ⟨result, ?_⟩
    rw [wnafDigits, digitSum, sum]
    exact (digit_carry W v hW).1.symm

/-- The legal window widths, as numbers and as bytes (R222). -/
theorem exists_validWidth {W : Nat} (h : W ∈ [1, 2, 4, 8]) : ∃ w : Byte, validWidth w = true ∧ w.toNat = W := by
  have all : ∀ W ∈ [1, 2, 4, 8], validWidth (BitVec.ofNat 8 W) = true ∧ (BitVec.ofNat 8 W).toNat = W := by decide
  exact ⟨_, all W h⟩

theorem one_le_width {W : Nat} (h : W ∈ [1, 2, 4, 8]) : 1 ≤ W := by
  have all : ∀ W ∈ [1, 2, 4, 8], 1 ≤ W := by decide
  exact all W h

/-- `wnaf` on a scalar below `2^B` (R235). -/
theorem wnaf_eq (T : List Affine) {W v : Nat} {glv : Bool} (hW : W ∈ [1, 2, 4, 8])
    (hv : v < 2 ^ (if glv then 128 else 256)) :
    wnaf T v W glv = .ok (accumulate T W 0 (wnafDigits W (nwin W glv) v) J0) ∧
      digitSum W (wnafDigits W (nwin W glv) v) = v := by
  obtain ⟨w, valid, rfl⟩ := exists_validWidth hW
  obtain ⟨p, result⟩ := wnaf_total T glv valid hv
  obtain ⟨rfl, sum⟩ := wnafFrom_ok (one_le_width hW) result
  exact ⟨result, sum⟩

end Sys2Proof.Machine
end

section
/-! The statement about the digits. -/

open Sys2Proof Sys2Proof.Config Sys2Proof.Machine

/-- Settles O56, by induction on the windows. -/
theorem wnafDigitsAreARecoding : Obligations.WnafDigitsAreARecoding := by
  intro T W v glv hW hv
  obtain ⟨result, sum⟩ := wnaf_eq T hW hv
  refine ⟨sum, ?_, result⟩
  have range := wnafDigits_range (one_le_width hW) (nwin W glv) v
  simpa only [windowSize, Nat.cast_pow, Nat.cast_ofNat] using range

end

section
/-! SUPPORT. The table in the group (43_scalar.md R230): a finite element has order `n`, so no entry is the identity; the
Jacobian entries are the multiples, and normalising an entry is `jtoa`. -/

namespace Sys2Proof.Machine

open Sys2Proof.Config

/-! ### The size of a window -/

theorem windowSize_pos (W : Nat) : 0 < windowSize W := Nat.two_pow_pos _

theorem windowSize_le {W : Nat} (h : W ∈ [1, 2, 4, 8]) : windowSize W ≤ 128 := by
  have all : ∀ W ∈ [1, 2, 4, 8], windowSize W ≤ 128 := by decide
  exact all W h

theorem two_mul_windowSize {W : Nat} (h : 1 ≤ W) : 2 * windowSize W = 2 ^ W := by
  rw [windowSize, ← pow_succ', Nat.sub_add_cancel h]

/-- `n` is a prime above every window, so it divides no multiple that a table holds. -/
theorem not_n_dvd_multiple {W w j : Nat} (hW : W ∈ [1, 2, 4, 8]) (hj : 1 ≤ j) (hj' : j ≤ windowSize W) :
    ¬ n ∣ j * 2 ^ (W * w) := by
  have large : 128 < n := by decide +kernel
  have small := windowSize_le hW
  rw [Laws.prime_n.dvd_mul, not_or]
  refine ⟨fun divides => ?_, fun divides => ?_⟩
  · have := Nat.le_of_dvd hj divides
    omega
  · have := Nat.le_of_dvd Nat.two_pos (Laws.prime_n.dvd_of_dvd_pow divides)
    omega

/-! ### Normalising -/

/-- With the inverse of its `Z`, the entry of a finite value is its affine form (R230, 42_point.md R177). -/
theorem jtoa_eq_normalise [Fact P.Prime] {p : Jacobian} {zi : Int} (finite : p.isIdentity = false)
    (inverse : mod (modP (intOf p.Z) * zi) P = 1) : jtoa p = .ok (normalise p zi) := by
  have product : (intOf p.Z : ZMod P) * zi = 1 := by
    simpa using congrArg (Int.cast : Int → ZMod P) inverse
  have hzi : (zi : ZMod P) = (intOf p.Z : ZMod P)⁻¹ := eq_inv_of_mul_eq_one_right product
  obtain ⟨x, y, result, hx, hy⟩ := jtoa_of_finite finite
  have x_eq : toBig (modP x) = toBig (modP (intOf p.X * (zi * zi))) := by
    rw [toBig_modP_inj, hx]
    push_cast [hzi]
    ring
  have y_eq : toBig (modP y) = toBig (modP (intOf p.Y * (zi * zi * zi))) := by
    rw [toBig_modP_inj, hy]
    push_cast [hzi]
    ring
  rw [result, x_eq, y_eq, normalise]

theorem length_tableJacobian (Q : Affine) (W : Nat) (glv : Bool) :
    (tableJacobian Q W glv).length = nwin W glv * windowSize W :=
  tableRows_length _ _ _ (windowSize_pos W)

/-- The entry of a finite Jacobian value is its affine form. -/
theorem table_entry [Fact P.Prime] {Q : Affine} {W i : Nat} {glv : Bool} {T : List Affine}
    (h : table Q W glv = .ok T) (hi : i < nwin W glv * windowSize W)
    (finite : ((tableJacobian Q W glv).getD i J0).isIdentity = false) :
    jtoa ((tableJacobian Q W glv).getD i J0) = .ok (T.getD i A0) ∧ (T.getD i A0).inf = false := by
  rw [← length_tableJacobian Q] at hi
  obtain ⟨zi, inverses, spec⟩ :=
    batchinv_spec P Laws.prime_P ((tableJacobian Q W glv).map fun p => modP (intOf p.Z)) (by
      intro z hz
      obtain ⟨p, -, rfl⟩ := List.mem_map.1 hz
      exact reduced_zero_or _)
  rw [table, inverses] at h
  obtain rfl := Except.ok.inj h
  have length := spec.length_eq
  rw [List.length_map] at length
  have entry := spec.get (by rwa [List.length_map]) (length ▸ hi)
  rw [List.get_eq_getElem, List.getElem_map, List.get_eq_getElem] at entry
  rw [List.getD_eq_getElem _ _ hi] at finite ⊢
  rw [List.getD_eq_getElem _ _ (by rw [List.length_zipWith]; exact lt_min hi (length ▸ hi)), List.getElem_zipWith]
  rcases entry with ⟨zero, -⟩ | ⟨-, -, -, inverse⟩
  · exact absurd zero ((isIdentity_false_iff _).1 finite)
  · exact ⟨jtoa_eq_normalise finite inverse, rfl⟩

/-! ### The order of an element -/

variable [Fact P.Prime]

theorem n_nsmul (A : secp256k1.Point) : n • A = 0 := by
  obtain ⟨G, hG, base⟩ := stands_of_oncurve (Q := basePoint) (by decide +kernel)
  rw [← card_points hG base]
  exact card_nsmul_eq_zero'

theorem nsmul_ne_zero_of_not_dvd {A : secp256k1.Point} {k : Nat} (hA : A ≠ 0) (hk : ¬ n ∣ k) : k • A ≠ 0 := by
  have : Fact n.Prime := ⟨Laws.prime_n⟩
  rwa [Ne, ← addOrderOf_dvd_iff_nsmul_eq_zero, addOrderOf_eq_prime (n_nsmul A) hA]

/-! ### The entries -/

/-- The multiples of a row, from `c` on, and the last of them. -/
theorem multiples_stands {p b : Jacobian} {A : secp256k1.Point} {c : Nat} (more : Nat) (hp : p.stands A)
    (hb : b.stands (c • A)) : (multiples p more b).2.stands ((c + more) • A) ∧
      ∀ i ≤ more, ((multiples p more b).1.getD i J0).stands ((c + i) • A) := by
  induction more generalizing b c with
  | zero =>
    refine ⟨hb, fun i hi => ?_⟩
    obtain rfl : i = 0 := Nat.le_zero.1 hi
    exact hb
  | succ more ih =>
    have next : (jadd b p).stands ((c + 1) • A) := by
      rw [succ_nsmul]
      exact jadd_stands hb hp
    obtain ⟨last, entries⟩ := ih next
    rw [multiples]
    refine ⟨by rwa [Nat.add_right_comm] at last, fun i hi => ?_⟩
    cases i with
    | zero => exact hb
    | succ i =>
      have entry := entries i (Nat.le_of_succ_le_succ hi)
      rwa [Nat.add_right_comm] at entry

/-- Entry `j` of window `w` is `(j + 1)·(2h)^w` times the point: each window starts at twice the last of the window
before. -/
theorem tableRows_stands {h windows w j : Nat} {p : Jacobian} {A : secp256k1.Point} (hw : w < windows) (hj : j < h)
    (hp : p.stands A) : ((tableRows h windows p).getD (w * h + j) J0).stands (((j + 1) * (2 * h) ^ w) • A) := by
  induction windows generalizing w p A with
  | zero => exact absurd hw (Nat.not_lt_zero w)
  | succ windows ih =>
    have positive : h - 1 + 1 = h := by omega
    have length : (multiples p (h - 1) p).1.length = h := by rw [multiples_length, positive]
    obtain ⟨last, entries⟩ := multiples_stands (c := 1) (h - 1) hp (by rwa [one_nsmul])
    rw [tableRows]
    cases w with
    | zero =>
      rw [zero_mul, zero_add, List.getD_append _ _ _ _ (by rwa [length]), pow_zero, mul_one, add_comm]
      exact entries j (by omega)
    | succ w =>
      have double : (jdbl (multiples p (h - 1) p).2).stands ((2 * h) • A) := by
        rw [Nat.add_comm 1, positive] at last
        rw [mul_nsmul', two_nsmul]
        exact jdbl_stands last
      have index : (w + 1) * h + j - h = w * h + j := by rw [Nat.succ_mul]; omega
      have rest := ih (Nat.lt_of_succ_lt_succ hw) double
      rw [← mul_nsmul', mul_assoc, ← pow_succ] at rest
      rw [List.getD_append_right _ _ _ _ (by rw [length, Nat.succ_mul]; omega), length, index]
      exact rest

/-- The list holds, finite and canonical, the multiples that the digits of `windows` windows select (R230). -/
def HoldsMultiples (T : List Affine) (W windows : Nat) (A : secp256k1.Point) : Prop :=
  ∀ w j : Nat, w < windows → 1 ≤ j → j ≤ windowSize W →
    (T.getD (w * windowSize W + j - 1) A0).inf = false ∧ (T.getD (w * windowSize W + j - 1) A0).Canonical ∧
      (T.getD (w * windowSize W + j - 1) A0).stands ((j * 2 ^ (W * w)) • A)

/-- What the table of a finite element holds. -/
theorem table_holdsMultiples {Q : Affine} {A : secp256k1.Point} {W : Nat} {glv : Bool} {T : List Affine}
    (hA : A ≠ 0) (hQ : Q.stands A) (hW : W ∈ [1, 2, 4, 8]) (h : table Q W glv = .ok T) :
    HoldsMultiples T W (nwin W glv) A := by
  intro w j hw hj hj'
  have index : w * windowSize W + j - 1 = w * windowSize W + (j - 1) := by omega
  have inside : w * windowSize W + (j - 1) < nwin W glv * windowSize W := by
    have := Nat.mul_le_mul_right (windowSize W) (Nat.succ_le_of_lt hw)
    rw [Nat.succ_mul] at this
    omega
  have multiple := tableRows_stands hw (show j - 1 < windowSize W by omega) (jfroma_stands hQ)
  rw [two_mul_windowSize (one_le_width hW), ← pow_mul, Nat.sub_add_cancel hj] at multiple
  have finite : ((tableJacobian Q W glv).getD (w * windowSize W + (j - 1)) J0).isIdentity = false := by
    rcases (jacobian_stands_iff _ _).1 multiple with ⟨-, zero⟩ | ⟨finite, -⟩
    · exact absurd zero (nsmul_ne_zero_of_not_dvd hA (not_n_dvd_multiple hW hj hj'))
    · exact finite
  obtain ⟨form, inf⟩ := table_entry h inside finite
  obtain ⟨a, form', stands⟩ := multiple
  obtain rfl := Except.ok.inj (form.symm.trans form')
  rw [index]
  exact ⟨inf, jtoa_canonical form, stands⟩

end Sys2Proof.Machine
end

section
/-! The statements about the table and the plain multiplier. -/

open Sys2Proof Sys2Proof.Config Sys2Proof.Machine

/-- Settles O58, by the loop of `mulu`. -/
theorem plainMultiplierIsTheGroupMultiple : Obligations.PlainMultiplierIsTheGroupMultiple := fun _ _ k hQ =>
  mulu_stands k hQ

/-- Settles O57: an entry and the plain multiple stand for the same element, and both are canonical. -/
theorem theTableHoldsTheMultiples : Obligations.TheTableHoldsTheMultiples := by
  have : Fact P.Prime := ⟨Laws.prime_P⟩
  intro Q W glv hQ hW
  obtain ⟨A, hA, stands⟩ := stands_of_oncurve hQ
  obtain ⟨T, result, length⟩ := table_total Q W glv
  refine ⟨T, result, length, fun w j hw hj hj' => ?_⟩
  obtain ⟨inf, canonical, entry⟩ := table_holdsMultiples hA stands hW result w j hw hj hj'
  obtain ⟨a, product, multiple⟩ := mulu_stands (j * 2 ^ (W * w)) stands
  obtain rfl := canonical_unique (mulu_canonical product) canonical multiple entry
  exact ⟨product, inf⟩

end

section
/-! SUPPORT. The windowed multiplier in the group (43_scalar.md R235 to R237), from a table that holds the multiples. -/

namespace Sys2Proof.Machine

open Sys2Proof.Config

variable [Fact P.Prime]

/-- A finite entry lifted with `Z = 1` stands for what the entry does. -/
theorem liftEntry_stands {T : List Affine} {i : Nat} {A : secp256k1.Point} (inf : (T.getD i A0).inf = false)
    (h : (T.getD i A0).stands A) : (liftEntry T i).stands A := by
  have lifted := jfroma_stands h
  rwa [jfroma, if_neg (by simp only [inf, Bool.false_eq_true, not_false_eq_true])] at lifted

/-- A digit in range adds the multiple it selects. -/
theorem addDigit_stands {T : List Affine} {W windows w : Nat} {d : Int} {A B : secp256k1.Point} {acc : Jacobian}
    (hT : HoldsMultiples T W windows A) (hw : w < windows) (range : -(windowSize W : Int) < d ∧ d ≤ windowSize W)
    (hacc : acc.stands B) : (addDigit T W w d acc).stands (B + (d * 2 ^ (W * w)) • A) := by
  have selected {j : Nat} (hj : 1 ≤ j) (hj' : j ≤ windowSize W) :
      (liftEntry T (w * windowSize W + j - 1)).stands (((j : Int) * 2 ^ (W * w)) • A) := by
    obtain ⟨inf, -, entry⟩ := hT w j hw hj hj'
    have lifted := liftEntry_stands inf entry
    rw [← natCast_zsmul] at lifted
    exact_mod_cast lifted
  rcases lt_trichotomy d 0 with negative | rfl | positive
  · obtain ⟨j, hj⟩ := Int.eq_ofNat_of_zero_le (show 0 ≤ -d by omega)
    obtain rfl : d = -j := by omega
    rw [addDigit, if_neg negative.not_gt, if_pos negative, neg_neg, Int.toNat_natCast, neg_mul, neg_zsmul]
    exact jadd_stands hacc (jneg_stands (selected (by omega) (by omega)))
  · rw [addDigit, if_neg (lt_irrefl 0), if_neg (lt_irrefl 0), zero_mul, zero_zsmul, add_zero]
    exact hacc
  · obtain ⟨j, rfl⟩ := Int.eq_ofNat_of_zero_le positive.le
    rw [addDigit, if_pos positive, Int.toNat_natCast]
    exact jadd_stands hacc (selected (by omega) (by omega))

/-- Digits in range accumulate the multiple that is their sum. -/
theorem accumulate_stands {T : List Affine} {W windows : Nat} {A : secp256k1.Point} (hT : HoldsMultiples T W windows A)
    {ds : List Int} {w : Nat} {acc : Jacobian} {B : secp256k1.Point} (hw : w + ds.length ≤ windows)
    (range : ∀ d ∈ ds, -(windowSize W : Int) < d ∧ d ≤ windowSize W) (hacc : acc.stands B) :
    (accumulate T W w ds acc).stands (B + (digitSum W ds * 2 ^ (W * w)) • A) := by
  induction ds generalizing w acc B with
  | nil =>
    rw [digitSum, zero_mul, zero_zsmul, add_zero]
    exact hacc
  | cons d ds ih =>
    obtain ⟨first, others⟩ := List.forall_mem_cons.1 range
    rw [List.length_cons] at hw
    have weights : digitSum W (d :: ds) * 2 ^ (W * w) = d * 2 ^ (W * w) + digitSum W ds * 2 ^ (W * (w + 1)) := by
      rw [digitSum]
      ring
    rw [weights, add_zsmul, ← add_assoc]
    exact ih (by omega) others (addDigit_stands hT (by omega) first hacc)

/-- `wnaf` multiplies by a scalar below `2^B` (R235). -/
theorem wnaf_stands {T : List Affine} {W v : Nat} {glv : Bool} {A : secp256k1.Point}
    (hT : HoldsMultiples T W (nwin W glv) A) (hW : W ∈ [1, 2, 4, 8]) (hv : v < 2 ^ (if glv then 128 else 256)) :
    ∃ p, wnaf T v W glv = .ok p ∧ p.stands ((v : Int) • A) := by
  obtain ⟨result, sum⟩ := wnaf_eq T hW hv
  have multiple := accumulate_stands hT (w := 0) (by rw [length_wnafDigits, zero_add])
    (wnafDigits_range (one_le_width hW) (nwin W glv) v) J0_stands
  rw [sum, mul_zero, pow_zero, mul_one, zero_add] at multiple
  exact ⟨_, result, multiple⟩

/-- The magnitude with the sign put back (R236). -/
theorem withSign_stands {p : Jacobian} {A : secp256k1.Point} {a : Int} (h : p.stands ((a.natAbs : Int) • A)) :
    (withSign (decide (a < 0)) p).stands (a • A) := by
  by_cases negative : a < 0
  · have negated := jneg_stands h
    rw [← neg_zsmul, show -(a.natAbs : Int) = a by omega] at negated
    simpa [withSign, negative] using negated
  · rw [show (a.natAbs : Int) = a by omega] at h
    simpa [withSign, negative] using h

/-- A multiple depends on the scalar modulo `n`. -/
theorem zsmul_eq_of_modEq {a b : Int} (h : a ≡ b [ZMOD n]) (A : secp256k1.Point) : a • A = b • A :=
  zsmul_eq_zsmul_iff_modEq.2 (h.of_dvd (Int.natCast_dvd_natCast.2 (addOrderOf_dvd_of_nsmul_eq_zero (n_nsmul A))))

/-- The two halves of the split, the second through the endomorphism, make up the multiple (R224, R236). -/
theorem halves_eq (k : Int) (A : secp256k1.Point) : splitK1 k • A + endo (splitK2 k • A) = k • A := by
  rw [endo_eq_lambda_nsmul, ← natCast_zsmul, ← mul_zsmul, mul_comm, ← add_zsmul]
  exact zsmul_eq_of_modEq (split_congruent k) A

/-- The Jacobian result of `mulw` is the multiple (R236). -/
theorem mulwJacobian_stands {T : List Affine} {W k : Nat} {glv : Bool} {A : secp256k1.Point}
    (hT : HoldsMultiples T W (nwin W glv) A) (hW : W ∈ [1, 2, 4, 8]) (hk : k < n) :
    ∃ p, mulwJacobian T k W glv = .ok p ∧ p.stands (k • A) := by
  rw [← natCast_zsmul]
  cases glv
  · have below : n ≤ 2 ^ 256 := by decide +kernel
    exact wnaf_stands hT hW (hk.trans_le below)
  · obtain ⟨p1, result1, multiple1⟩ := wnaf_stands hT hW (split_small k).1
    obtain ⟨p2, result2, multiple2⟩ := wnaf_stands hT hW (split_small k).2
    refine ⟨jadd (withSign (split k).2.2.1 p1) (jendo (withSign (split k).2.2.2 p2)), ?_, ?_⟩
    · rw [mulwJacobian, if_pos rfl, result1, result2]
    · rw [← halves_eq k A]
      exact jadd_stands (withSign_stands multiple1) (jendo_stands (withSign_stands multiple2))

/-- `mulw` is the multiple in the group (R236). -/
theorem mulw_stands {Q : Affine} {A : secp256k1.Point} {W k : Nat} {glv : Bool} (hA : A ≠ 0) (hQ : Q.stands A)
    (hW : W ∈ [1, 2, 4, 8]) (hk : k < n) :
    ∃ a, mulw Q k W glv = .ok a ∧ a.Canonical ∧ a.stands (k • A) := by
  obtain ⟨T, contents, -⟩ := table_total Q W glv
  obtain ⟨p, result, a, form, multiple⟩ := mulwJacobian_stands (table_holdsMultiples hA hQ hW contents) hW hk
  refine ⟨a, ?_, jtoa_canonical form, multiple⟩
  rw [mulw_of_table contents, mulwWith, result]
  exact form

/-- A canonical value that stands for a finite element passes the curve test (42_point.md R192). -/
theorem oncurve_of_stands {a : Affine} {A : secp256k1.Point} (canonical : a.Canonical) (h : a.stands A) (hA : A ≠ 0) :
    oncurve a = true := by
  rcases (affine_stands_iff a A).1 h with ⟨-, zero⟩ | ⟨inf, atA⟩
  · exact absurd zero hA
  · have equation := atA.equation
    have y_ne := atA.y_ne_zero
    simp only [intOf, Int.cast_natCast] at equation y_ne
    have x_pos : 0 < a.x.toNat := Nat.pos_of_ne_zero fun zero => not_isSquare_seven ⟨a.y.toNat, by
      rw [← sq, equation, zero, Nat.cast_zero]
      ring⟩
    have y_pos : 0 < a.y.toNat := Nat.pos_of_ne_zero fun zero => y_ne (by rw [zero, Nat.cast_zero])
    exact (oncurve_iff a).2 ⟨inf, ⟨x_pos, canonical.x_lt⟩, ⟨y_pos, canonical.y_lt⟩, (curve_equation_iff _ _).2 equation⟩

end Sys2Proof.Machine
end

section
/-! The statement about the two multipliers. -/

open Sys2Proof Sys2Proof.Config Sys2Proof.Machine

/-- Settles O60: both results are canonical and stand for the same multiple, which is finite. -/
theorem theMultipliersAgree : Obligations.TheMultipliersAgree := by
  have : Fact P.Prime := ⟨Laws.prime_P⟩
  intro Q k W glv hQ positive below hW
  obtain ⟨k, rfl⟩ := Int.eq_ofNat_of_zero_le positive.le
  obtain ⟨A, hA, stands⟩ := stands_of_oncurve hQ
  obtain ⟨a, windowed, canonical, multiple⟩ := mulw_stands (glv := glv) hA stands hW (Int.ofNat_lt.1 below)
  obtain ⟨b, plain, multiple'⟩ := mulu_stands k stands
  obtain rfl := canonical_unique (mulu_canonical plain) canonical multiple' multiple
  have finite : k • A ≠ 0 := nsmul_ne_zero_of_not_dvd hA
    (Nat.not_dvd_of_pos_of_lt (Int.natCast_pos.1 positive) (Int.ofNat_lt.1 below))
  have on := oncurve_of_stands canonical multiple finite
  exact ⟨b, windowed, plain, ((oncurve_iff b).1 on).1, on⟩

end

section
/-! SUPPORT. What the window shows of an invalid table cache (20_memory.md R57, 44_system.md R263). -/

namespace Sys2Proof.Machine

/-- Without a valid table its rows read 0, whatever tag stands behind the valid bit. -/
theorem readReg_table_of_invalid {s : State} {r : Reg} (hr : r.isTable = true) (h : s.TBL.valid = false) :
    readReg s r = some 0 := by
  cases r with
  | tblinfo => simp [readReg, Table.info, h]
  | tblTagX i => simp [readReg, h]
  | tblTagY i => simp [readReg, h]
  | _ => cases hr

/-- `STATUS` bit 5 shows the valid bit (10_state.md R31). -/
theorem status_tblvalid (s : State) : s.status.getLsbD 5 = s.TBL.valid := by
  obtain ⟨-, -, -, -, valid, -⟩ := status_fields s
  exact valid

end Sys2Proof.Machine
end

section
/-! The statement about the system commands. -/

open Sys2Proof Sys2Proof.Machine

/-- Settles O24, a command at a time: none can fault, so each ends normally after its writes. The rows that
`C_TBLINV` empties are those of an invalid table. -/
theorem systemCommands : Obligations.SystemCommands := by
  intro s
  refine ⟨⟨rfl, ?nop⟩, ⟨rfl, ?clrerr⟩, ⟨rfl, ?wipe⟩, ⟨rfl, ?tblinv⟩⟩
  case nop | clrerr | wipe => exact exec_eq _ s
  case tblinv =>
    exact ⟨_, exec_eq _ s, rfl, readReg_table_of_invalid rfl rfl,
      fun _ => ⟨readReg_table_of_invalid rfl rfl, readReg_table_of_invalid rfl rfl⟩, _, rfl, status_tblvalid _⟩

end

section
/-! SUPPORT. The two ends of a command (60_exceptions.md R272, R273): what the normal end keeps of the sticky mask, and
the faults a well-formed command can raise. -/

namespace Sys2Proof.Machine

/-- Every command but `C_CLRERR` keeps the sticky mask at its normal end (R273, 44_system.md R261). -/
theorem Writes.errsticky_of_ne {i : Instr} {s u : State} (h : Writes s i u) (hi : i ≠ .cClrerr) :
    u.ERRSTICKY = s.ERRSTICKY := by
  cases h
  case cClrerr => exact absurd rfl hi
  all_goals rfl

/-- `C_CLRERR` has the one word `0x01000000` (R87). -/
theorem eq_of_decode_cClrerr {w : Word} (h : decode w = .ok .cClrerr) : w = 0x01000000 :=
  (decode_eq_ok_iff.1 h).1.symm

/-- The value check of `S_SPLIT` keeps the pair of registers inside the file (30_encoding.md R85). -/
theorem succ_lt_of_validPair {rd : FrNum} (h : validPair rd = true) : rd.val + 1 < 16 := by
  have : rd.val ≤ 14 := of_decide_eq_true h
  omega

/-- The affine doubling faults only on an inversion (42_point.md R184). -/
theorem adbl_error {a : Affine} {c : CmdFault} (h : adbl a = .error c) : c = .notInvertible := by
  rcases adbl_cases a with ⟨-, e⟩ | ⟨-, -, e⟩ | ⟨-, -, _, e, -⟩ <;> cases e.symm.trans h
  rfl

/-- The affine addition faults on opposite points, or as the doubling does (42_point.md R185). -/
theorem aadd_error {a b : Affine} {c : CmdFault} (h : aadd a b = .error c) :
    c = .invalidAddition ∨ c = .notInvertible := by
  rcases aadd_cases a b with ⟨-, e⟩ | ⟨-, -, e⟩ | ⟨-, -, -, -, double⟩ | ⟨-, -, -, -, e⟩ | ⟨-, -, -, _, e⟩
  · cases e.symm.trans h
  · cases e.symm.trans h
  · exact .inr (adbl_error (double.symm.trans h))
  · cases e.symm.trans h
    exact .inl rfl
  · cases e.symm.trans h

/-- A command with an affine result raises what the computation of the point raises. -/
theorem affineInto_error {rd : PtNum} {s : State} {r : Except CmdFault Affine} {c : CmdFault}
    (h : affineInto rd s r = .error c) : r = .error c := by
  rcases affineInto_cases rd s r with ⟨_, -, e⟩ | ⟨_, hr, e⟩ <;> cases e.symm.trans h
  exact hr

/-- The phase check raises `E_SEQUENCE` and nothing else (40_keccak.md R123). -/
theorem inAbsorb_error {s : State} {f : State → State} {c : CmdFault} (h : inAbsorb s f = .error c) :
    c = .sequence := by
  rcases inAbsorb_cases s f with ⟨-, e⟩ | ⟨-, e⟩ <;> cases e.symm.trans h
  rfl

/-- A command that passes its value check raises only the faults listed for it: no inversion of `F_BINV`, of `J_TOA` or
of the SMU meets a residue 0, and no recoding leaves a remainder (40_keccak.md R123, 41_field.md R151, 42_point.md R202,
43_scalar.md R241). -/
theorem effect_error_mem_faults {i : Instr} {s : State} {c : CmdFault} (wf : i.wellFormed = true)
    (h : effect i s = .error c) : c ∈ i.faults := by
  cases i
  case kAbsorb | kAbsorbw | kFinal => exact List.mem_singleton.2 (inAbsorb_error h)
  case fInv rd ra m =>
    rcases inverseInto_cases rd ra m s with ⟨-, _, e, -⟩ | ⟨-, e⟩ <;> cases e.symm.trans h
    exact .head _
  case fBinv ra m count =>
    rcases batchInverseAt_cases ra m count s with ⟨-, _, e, -⟩ | ⟨bad, -⟩
    · cases e.symm.trans h
    · cases bad.symm.trans wf
  case jToa rd ra =>
    obtain ⟨a, e, -⟩ := jtoa_total (s.jp ra)
    cases e.symm.trans (affineInto_error h)
  case aAdd => simpa [Instr.faults] using aadd_error (affineInto_error h)
  case aDbl => exact List.mem_singleton.2 (adbl_error (affineInto_error h))
  case aDecomp rd ra m =>
    rcases decompInto_cases rd ra m s with ⟨_, -, e⟩ | ⟨-, e⟩ <;> cases e.symm.trans h
    exact .head _
  case sSplit rd ra =>
    rcases splitInto_cases rd ra s with ⟨_, -, e⟩ | ⟨-, -, e⟩ | ⟨bad, -⟩
    · cases e.symm.trans h
    · cases e.symm.trans h
      exact .head _
    · exact absurd (succ_lt_of_validPair wf) bad
  case sPrecomp ra m w =>
    rcases precompute_cases ra m w s with ⟨-, -, _, -, e⟩ | ⟨-, -, e⟩ | ⟨bad, -⟩
    · cases e.symm.trans h
    · cases e.symm.trans h
      exact .head _
    · cases bad.symm.trans wf
  case sMul rd ra rb m w =>
    rcases multiplyInto_cases rd ra rb m w s with ⟨-, -, -, _, _, -, -, e⟩ | ⟨-, -, -, e⟩ | ⟨-, -, e⟩ | ⟨bad, -⟩
    · cases e.symm.trans h
    · cases e.symm.trans h
      exact .tail _ (.head _)
    · cases e.symm.trans h
      exact .head _
    · cases bad.symm.trans wf
  case sMulu rd ra rb =>
    rcases plainMultiplyInto_cases rd ra rb s with ⟨-, -, _, -, e⟩ | ⟨-, -, e⟩ | ⟨-, e⟩ <;> cases e.symm.trans h
    · exact .tail _ (.head _)
    · exact .head _
  all_goals cases h

end Sys2Proof.Machine
end

section
/-! The statements about the end of a command. -/

open Sys2Proof Sys2Proof.Machine

/-- Settles O16: a word that is no command and a command that faults end in `takeFault`; any other command ends after
its writes, and of these only those of `C_CLRERR` touch the sticky mask. -/
theorem aCommandEndsInOneOfTwoWays : Obligations.ACommandEndsInOneOfTwoWays := by
  intro w s
  obtain ⟨t, ht⟩ := command_total w s
  refine ⟨t, ht, ?_⟩
  have fault (c : CmdFault) : (takeFault c s).ERRCODE ≠ 0 ∧ takeFault c s = { s with
      ERRCODE := (takeFault c s).ERRCODE,
      ERRSTICKY := s.ERRSTICKY ||| (1#9 <<< (takeFault c s).ERRCODE.toNat) } := ⟨c.code_ne_zero, rfl⟩
  rcases command_cases ht with ⟨i, hi, run⟩ | ⟨_, -, rfl⟩
  · rcases exec_writes run with ⟨u, hu, rfl⟩ | ⟨c, rfl⟩
    · exact .inl ⟨rfl, fun hw => hu.errsticky_of_ne fun e => hw (eq_of_decode_cClrerr (e ▸ hi))⟩
    · exact .inr (fault c)
  · exact .inr (fault .illegal)

/-- Settles O17: a non-zero code is the one of the fault the command raised, which is on its list. -/
theorem commandsRaiseOnlyTheirFaults : Obligations.CommandsRaiseOnlyTheirFaults := by
  intro i s t wf run code
  rcases exec_cases run with ⟨u, -, rfl⟩ | ⟨c, raised, rfl⟩
  · exact absurd rfl code
  · exact ⟨c, effect_error_mem_faults wf raised, rfl⟩

end
